-- ==== Sys2Proof/Word.lean ====
section
/-! DEFINITION. The words of the block: bytes, nibbles and line levels (00_scope.md R16). -/

namespace Sys2Proof

/-- `Byte` of R16: an unsigned 8-bit value. -/
abbrev Byte := BitVec 8

/-- A 4-bit half of a byte (R65). -/
abbrev Nibble := BitVec 4

/-- `Level` of R16: what one `write` drives onto a line. -/
inductive Level where
  | L
  | H
  deriving DecidableEq, Repr

/-- `lvl(b)` of R16: `H` for a bit of 1 or a Bool of `true`, `L` otherwise. -/
def lvl (b : Bool) : Level := if b then .H else .L

@[simp] theorem lvl_true : lvl true = .H := rfl
@[simp] theorem lvl_false : lvl false = .L := rfl

end Sys2Proof
end

