-- ==== Sys2Proof/Syntax.lean ====
section
/-! DEFINITION. The operations of the block as data: one constructor of `Instr` for each row of
spec/opcode_table.json (30_encoding.md R83, R101, R103), and the types of their operands. -/

namespace Sys2Proof

/-- Transfer mode of a link (10_state.md R31). -/
inductive Mode where
  | fourBit
  | eightBit
  deriving DecidableEq, Repr

/-- The 11 line names of 00_scope.md R12. -/
inductive Line where
  | rs | rw | e | d0 | d1 | d2 | d3 | d4 | d5 | d6 | d7
  deriving DecidableEq, Repr

/-- One value for each of the 11 lines. -/
structure Lines (α : Type) where
  rs : α
  rw : α
  e : α
  d0 : α
  d1 : α
  d2 : α
  d3 : α
  d4 : α
  d5 : α
  d6 : α
  d7 : α
  deriving DecidableEq, Repr

namespace Lines

variable {α β : Type}

/-- The value of one line. -/
def get (x : Lines α) : Line → α
  | .rs => x.rs
  | .rw => x.rw
  | .e => x.e
  | .d0 => x.d0
  | .d1 => x.d1
  | .d2 => x.d2
  | .d3 => x.d3
  | .d4 => x.d4
  | .d5 => x.d5
  | .d6 => x.d6
  | .d7 => x.d7

/-- The same values but for one line. -/
def set (x : Lines α) (l : Line) (a : α) : Lines α :=
  match l with
  | .rs => { x with rs := a }
  | .rw => { x with rw := a }
  | .e => { x with e := a }
  | .d0 => { x with d0 := a }
  | .d1 => { x with d1 := a }
  | .d2 => { x with d2 := a }
  | .d3 => { x with d3 := a }
  | .d4 => { x with d4 := a }
  | .d5 => { x with d5 := a }
  | .d6 => { x with d6 := a }
  | .d7 => { x with d7 := a }

/-- One value per line, given by a rule of the line. -/
def of (f : Line → α) : Lines α :=
  ⟨f .rs, f .rw, f .e, f .d0, f .d1, f .d2, f .d3, f .d4, f .d5, f .d6, f .d7⟩

/-- Every value through a function. -/
def map (f : α → β) (x : Lines α) : Lines β := of fun l => f (x.get l)

end Lines

/-- All 11 lines, register-select first (R12). -/
def allLines : List Line := [.rs, .rw, .e, .d0, .d1, .d2, .d3, .d4, .d5, .d6, .d7]

/-- The eight data lines (20_memory.md R66). -/
def dataLines : List Line := [.d0, .d1, .d2, .d3, .d4, .d5, .d6, .d7]

/-- The four data lines a `FourBit` link writes (20_memory.md R66). -/
def nibbleLines : List Line := [.d4, .d5, .d6, .d7]

/-- The four properties of 42_controller_properties.md R155. -/
inductive Property where
  | visible
  | showCursor
  | blinkCursor
  | backlight
  deriving DecidableEq, Repr

/-- A character string, the operand of `WriteText` (44_controller_write_createchar.md R171). -/
abbrev Text := List Char

/-- The operations. A `link` or `ctl` operand is a reference: the position of a link or of a
controller in the order of construction (R30, R37; log 16). -/
inductive Instr where
  -- bus encodings (30_encoding.md R84 to R93): one transfer on a link
  | clearDisplay (link : Nat)
  | returnHome (link : Nat)
  | entryModeSet (link : Nat) (left shift : Bool)
  | displayControl (link : Nat) (display cursor blink : Bool)
  | cursorShift (link : Nat) (moveDisplay right : Bool)
  | functionSet (link : Nat) (wide twoLine tall : Bool)
  | setCgramAddr (link : Nat) (slot : BitVec 3)
  | setDdramAddr (link : Nat) (addr : BitVec 7)
  | data (link : Nat) (value : Byte)
  | hsProbe (link : Nat)
  | hsCommit4 (link : Nat)
  -- link operations (40_link_driver.md R110, R111, R112, R116)
  | linkConstruct (mode : Mode) (pins : Lines Bool)
  | fourBitMode (link : Nat)
  | send (link : Nat) (value : Byte) (isData backlight : Bool)
  | release (link : Nat)
  -- micro-operations (R113, R114, R115, R131, R150)
  | writeData8 (link : Nat) (value : Byte)
  | writeNibble (link : Nat) (nibble : Nibble)
  | enablePulse (link : Nat)
  | sendCommand (ctl : Nat) (value : Byte)
  | sendData (ctl : Nat) (value : Byte)
  | pushDisplayControl (ctl : Nat)
  -- host operations (30_encoding.md R101)
  | construct (link : Nat)
  | beginOp (ctl columns rows : Nat) (leftToRight largeFont : Bool)
  | setVisible (ctl : Nat) (b : Bool)
  | setShowCursor (ctl : Nat) (b : Bool)
  | setBlinkCursor (ctl : Nat) (b : Bool)
  | setBacklight (ctl : Nat) (b : Bool)
  | getProperty (ctl : Nat) (p : Property)
  | clear (ctl : Nat)
  | home (ctl : Nat)
  | setCursorPosition (ctl column row : Nat)
  | writeBytes (ctl : Nat) (buffer : List Byte)
  | writeText (ctl : Nat) (text : Text)
  | createChar (ctl slot : Nat) (bitmap : List Byte) (offset : Nat)
  | scrollDisplayLeft (ctl : Nat)
  | scrollDisplayRight (ctl : Nat)
  | moveCursor (ctl : Nat) (right : Bool)
  deriving DecidableEq, Repr

/-- `Begin(c, r)` is `Begin(c, r, true, false)` (30_encoding.md R102). -/
def Instr.beginDefault (ctl columns rows : Nat) : Instr := .beginOp ctl columns rows true false

/-- `CreateChar(s, b)` is `CreateChar(s, b, 0)` (30_encoding.md R102). -/
def Instr.createCharDefault (ctl slot : Nat) (bitmap : List Byte) : Instr :=
  .createChar ctl slot bitmap 0

end Sys2Proof
end

