-- ==== Sys2Proof/WellFormed.lean ====
section
/-! DEFINITION. The operand domains of the host operations: the only two operand checks of the spec
(41_controller_begin.md R132, 44_controller_write_createchar.md R173; 30_encoding.md R99). -/

namespace Sys2Proof

/-- `rows` of `Begin` is 1 to 4 (R132). -/
def rowsLegal (rows : Nat) : Bool := decide (1 ≤ rows ∧ rows ≤ 4)

/-- The bitmap of `CreateChar` reaches 8 bytes past `offset` (R173). -/
def bitmapLegal (bitmap : List Byte) (offset : Nat) : Bool := decide (offset + 8 ≤ bitmap.length)

/-- An operation whose operands lie in the domain the spec gives them. Every other operand value of
every operation is legal (R99). -/
def Instr.wellFormed : Instr → Bool
  | .beginOp _ _ rows _ _ => rowsLegal rows
  | .createChar _ _ bitmap offset => bitmapLegal bitmap offset
  | .clearDisplay _ | .returnHome _ | .entryModeSet _ _ _ | .displayControl _ _ _ _
  | .cursorShift _ _ _ | .functionSet _ _ _ _ | .setCgramAddr _ _ | .setDdramAddr _ _ | .data _ _
  | .hsProbe _ | .hsCommit4 _ | .linkConstruct _ _ | .fourBitMode _ | .send _ _ _ _ | .release _
  | .writeData8 _ _ | .writeNibble _ _ | .enablePulse _ | .sendCommand _ _ | .sendData _ _
  | .pushDisplayControl _ | .construct _ | .setVisible _ _ | .setShowCursor _ _
  | .setBlinkCursor _ _ | .setBacklight _ _ | .getProperty _ _ | .clear _ | .home _
  | .setCursorPosition _ _ _ | .writeBytes _ _ | .writeText _ _ | .scrollDisplayLeft _
  | .scrollDisplayRight _ | .moveCursor _ _ => true

end Sys2Proof
end

