-- ==== Sys2Proof/Decode.lean ====
section
/-! DEFINITION. The binary form of the operations. Bits of a transfer and indices of an operation are
those of spec/opcode_table.json (30_encoding.md R80, R83, R103); the record around them, which carries
the operands the table gives no bits, is the model's own (log 3).

A call record is: one format byte (0 BUS9, 1 LINKOP, 2 MICROOP, 3 HOSTOP); for BUS9 the 9-bit transfer as
two bytes, `v` then `rs`, for the others the operation index; the operands in the order of the
constructor; any number of zero bytes. A Nat is written 7 bits a byte, least significant first, bit 7 set
on all but the last byte; a Bool is 0 or 1; a list is its length and its elements. A record whose operand
bytes are all zero is a legal call (log 3): a pin bit of 1 leaves its line unassigned, `rows` of Begin is
written with 0 and 1 exchanged, and the length of CreateChar's bitmap with 0 and 8 exchanged. -/

namespace Sys2Proof

/-- Why a record encodes no operation. -/
inductive DecodeError where
  /-- The record ends before its last operand. -/
  | truncated
  /-- The format byte is none of 0 to 3. -/
  | badFormat
  /-- The operation index is none of the format's. -/
  | badIndex
  /-- A Bool, mode, property, pin or nibble operand outside its range. -/
  | badOperand
  /-- A Nat written with more bytes than it needs. -/
  | overlongNat
  /-- A character operand that is no Unicode scalar value. -/
  | badChar
  /-- A byte other than zero after the last operand. -/
  | trailingBytes
  deriving DecidableEq, Repr

/-! Each parser answers the value it reads and the rest of the record. -/

/-- The next byte. -/
def getByte : List Byte → Except DecodeError (Byte × List Byte)
  | [] => .error .truncated
  | b :: bs => .ok (b, bs)

/-- A Nat, 7 bits a byte. -/
def getNat : List Byte → Except DecodeError (Nat × List Byte)
  | [] => .error .truncated
  | b :: bs =>
    if b.toNat < 128 then .ok (b.toNat, bs)
    else
      match getNat bs with
      | .error e => .error e
      | .ok (n, rest) => if n = 0 then .error .overlongNat else .ok (b.toNat - 128 + 128 * n, rest)

/-- A Bool: 0 or 1. -/
def getBool : List Byte → Except DecodeError (Bool × List Byte)
  | [] => .error .truncated
  | b :: bs => if b = 0#8 then .ok (false, bs) else if b = 1#8 then .ok (true, bs) else .error .badOperand

/-- A mode: 0 `FourBit`, 1 `EightBit`. -/
def getMode : List Byte → Except DecodeError (Mode × List Byte)
  | [] => .error .truncated
  | b :: bs =>
    if b = 0#8 then .ok (.fourBit, bs) else if b = 1#8 then .ok (.eightBit, bs) else .error .badOperand

/-- A property, numbered in the order of R155. -/
def getProperty : List Byte → Except DecodeError (Property × List Byte)
  | [] => .error .truncated
  | b :: bs =>
    if b = 0#8 then .ok (.visible, bs)
    else if b = 1#8 then .ok (.showCursor, bs)
    else if b = 2#8 then .ok (.blinkCursor, bs)
    else if b = 3#8 then .ok (.backlight, bs)
    else .error .badOperand

/-- A nibble: a byte below 16. -/
def getNibble : List Byte → Except DecodeError (Nibble × List Byte)
  | [] => .error .truncated
  | b :: bs => if b.toNat < 16 then .ok (BitVec.ofNat 4 b.toNat, bs) else .error .badOperand

/-- A pin assignment: bit 0 to 7 of the first byte RS, RW, E, D0 to D4; bit 0 to 2 of the second D5 to
D7, its other bits 0. A bit of 1 leaves the line unassigned. -/
def getPins : List Byte → Except DecodeError ((Lines Bool) × List Byte)
  | a :: b :: bs =>
    if b.toNat < 8 then
      .ok (⟨!a.getLsbD 0, !a.getLsbD 1, !a.getLsbD 2, !a.getLsbD 3, !a.getLsbD 4, !a.getLsbD 5,
        !a.getLsbD 6, !a.getLsbD 7, !b.getLsbD 0, !b.getLsbD 1, !b.getLsbD 2⟩, bs)
    else .error .badOperand
  | _ => .error .truncated

/-- `n` bytes. -/
def getBytes : Nat → List Byte → Except DecodeError ((List Byte) × List Byte)
  | 0, bs => .ok ([], bs)
  | n + 1, bs => do
    let (b, r) ← getByte bs
    let (t, r) ← getBytes n r
    .ok (b :: t, r)

/-- A buffer: its length and its bytes. -/
def getBuffer (bs : List Byte) : Except DecodeError ((List Byte) × List Byte) := do
  let (n, r) ← getNat bs
  getBytes n r

/-- A number with 0 and `d` exchanged, so that a field of zeros stands for `d`. -/
def exchangeZero (d n : Nat) : Nat := if n = 0 then d else if n = d then 0 else n

/-- The `rows` of Begin: 0 stands for 1. -/
def getRows (bs : List Byte) : Except DecodeError (Nat × List Byte) := do
  let (n, r) ← getNat bs
  .ok (exchangeZero 1 n, r)

/-- The bitmap of CreateChar: the length 0 stands for the 8 of its signature (R101). -/
def getBitmap (bs : List Byte) : Except DecodeError ((List Byte) × List Byte) := do
  let (n, r) ← getNat bs
  getBytes (exchangeZero 8 n) r

/-- One character, as its scalar value. -/
def getChar (bs : List Byte) : Except DecodeError (Char × List Byte) := do
  let (n, r) ← getNat bs
  if h : n.isValidChar then .ok (Char.ofNatAux n h, r) else .error .badChar

/-- `n` characters. -/
def getChars : Nat → List Byte → Except DecodeError (Text × List Byte)
  | 0, bs => .ok ([], bs)
  | n + 1, bs => do
    let (c, r) ← getChar bs
    let (t, r) ← getChars n r
    .ok (c :: t, r)

/-- A text: its length in characters and its characters. -/
def getText (bs : List Byte) : Except DecodeError (Text × List Byte) := do
  let (n, r) ← getNat bs
  getChars n r

/-! ## The command map of R83 -/

/-- One row of the command map: the pattern `r dddddddd` as match and mask, bit 8 the register-select
flag (R80, R83; spec/opcode_table.json). -/
structure BusRow where
  pattern : BitVec 9
  mask : BitVec 9
  deriving DecidableEq, Repr

/-- A transfer that a row's pattern covers. -/
def BusRow.covers (r : BusRow) (w : BitVec 9) : Bool := w &&& r.mask == r.pattern

/-- R84: `0 00000001`. -/
def rowClearDisplay : BusRow := ⟨0x001#9, 0x1FF#9⟩
/-- R85: `0 00000010`. -/
def rowReturnHome : BusRow := ⟨0x002#9, 0x1FF#9⟩
/-- R86: `0 000001is`. -/
def rowEntryModeSet : BusRow := ⟨0x004#9, 0x1FC#9⟩
/-- R87: `0 00001dcb`. -/
def rowDisplayControl : BusRow := ⟨0x008#9, 0x1F8#9⟩
/-- R88: `0 0001mr00`. -/
def rowCursorShift : BusRow := ⟨0x010#9, 0x1F3#9⟩
/-- R89: `0 001wnf00`. -/
def rowFunctionSet : BusRow := ⟨0x020#9, 0x1E3#9⟩
/-- R90: `0 01sss000`. -/
def rowSetCgramAddr : BusRow := ⟨0x040#9, 0x1C7#9⟩
/-- R91: `0 1aaaaaaa`. -/
def rowSetDdramAddr : BusRow := ⟨0x080#9, 0x180#9⟩
/-- R92: `1 dddddddd`. -/
def rowData : BusRow := ⟨0x100#9, 0x100#9⟩
/-- R93: `0 00000011`. -/
def rowHsProbe : BusRow := ⟨0x003#9, 0x1FF#9⟩
/-- R93: `0 00000010`, the bits of RETURNHOME. -/
def rowHsCommit4 : BusRow := ⟨0x002#9, 0x1FF#9⟩

/-- The rows a decoder of the bus can tell apart. HS_COMMIT4 has the bits of RETURNHOME and is told from
it only "by when they are sent" (R85, R93; log 4). -/
def busRows : List BusRow :=
  [rowClearDisplay, rowReturnHome, rowEntryModeSet, rowDisplayControl, rowCursorShift, rowFunctionSet,
    rowSetCgramAddr, rowSetDdramAddr, rowData, rowHsProbe]

/-- The operation a transfer word is, on a given link: the row of R83 that covers it. There is no illegal
encoding (R99): a word that no row covers is a direct `link.send` of its byte and flag, whose backlight
argument, which the word does not carry, is false (log 14). -/
def decodeBus (w : BitVec 9) (link : Nat) : Instr :=
  if rowClearDisplay.covers w then .clearDisplay link
  else if rowReturnHome.covers w then .returnHome link
  else if rowHsProbe.covers w then .hsProbe link
  else if rowEntryModeSet.covers w then .entryModeSet link (w.getLsbD 1) (w.getLsbD 0)
  else if rowDisplayControl.covers w then
    .displayControl link (w.getLsbD 2) (w.getLsbD 1) (w.getLsbD 0)
  else if rowCursorShift.covers w then .cursorShift link (w.getLsbD 3) (w.getLsbD 2)
  else if rowFunctionSet.covers w then
    .functionSet link (w.getLsbD 4) (w.getLsbD 3) (w.getLsbD 2)
  else if rowSetCgramAddr.covers w then .setCgramAddr link (w.extractLsb' 3 3)
  else if rowSetDdramAddr.covers w then .setDdramAddr link (w.extractLsb' 0 7)
  else if rowData.covers w then .data link (w.extractLsb' 0 8)
  else .send link (w.extractLsb' 0 8) (w.getLsbD 8) false

/-! ## Decoding a record -/

/-- BUS9: the byte `v`, the flag `rs` in bit 0 of a byte of its own, the link. -/
def getBusOp (bs : List Byte) : Except DecodeError (Instr × List Byte) := do
  let (v, r) ← getByte bs
  let (rs, r) ← getBool r
  let (link, r) ← getNat r
  .ok (decodeBus (BitVec.ofBool rs ++ v) link, r)

/-- LINKOP, by the index of R103. -/
def getLinkOp (bs : List Byte) : Except DecodeError (Instr × List Byte) := do
  let (k, r) ← getByte bs
  match k.toNat with
  | 0 => do
    let (m, r) ← getMode r
    let (p, r) ← getPins r
    .ok (.linkConstruct m p, r)
  | 1 => do
    let (l, r) ← getNat r
    .ok (.fourBitMode l, r)
  | 2 => do
    let (l, r) ← getNat r
    let (v, r) ← getByte r
    let (d, r) ← getBool r
    let (b, r) ← getBool r
    .ok (.send l v d b, r)
  | 3 => do
    let (l, r) ← getNat r
    .ok (.release l, r)
  | _ => .error .badIndex

/-- MICROOP, by the index of R103. -/
def getMicroOp (bs : List Byte) : Except DecodeError (Instr × List Byte) := do
  let (k, r) ← getByte bs
  match k.toNat with
  | 0 => do
    let (l, r) ← getNat r
    let (v, r) ← getByte r
    .ok (.writeData8 l v, r)
  | 1 => do
    let (l, r) ← getNat r
    let (n, r) ← getNibble r
    .ok (.writeNibble l n, r)
  | 2 => do
    let (l, r) ← getNat r
    .ok (.enablePulse l, r)
  | 3 => do
    let (c, r) ← getNat r
    let (v, r) ← getByte r
    .ok (.sendCommand c v, r)
  | 4 => do
    let (c, r) ← getNat r
    let (v, r) ← getByte r
    .ok (.sendData c v, r)
  | 5 => do
    let (c, r) ← getNat r
    .ok (.pushDisplayControl c, r)
  | _ => .error .badIndex

/-- HOSTOP, by the index of R103. -/
def getHostOp (bs : List Byte) : Except DecodeError (Instr × List Byte) := do
  let (k, r) ← getByte bs
  match k.toNat with
  | 0 => do
    let (l, r) ← getNat r
    .ok (.construct l, r)
  | 1 => do
    let (c, r) ← getNat r
    let (cols, r) ← getNat r
    let (rows, r) ← getRows r
    let (ltr, r) ← getBool r
    let (font, r) ← getBool r
    .ok (.beginOp c cols rows ltr font, r)
  | 2 => do
    let (c, r) ← getNat r
    let (b, r) ← getBool r
    .ok (.setVisible c b, r)
  | 3 => do
    let (c, r) ← getNat r
    let (b, r) ← getBool r
    .ok (.setShowCursor c b, r)
  | 4 => do
    let (c, r) ← getNat r
    let (b, r) ← getBool r
    .ok (.setBlinkCursor c b, r)
  | 5 => do
    let (c, r) ← getNat r
    let (b, r) ← getBool r
    .ok (.setBacklight c b, r)
  | 6 => do
    let (c, r) ← getNat r
    let (p, r) ← getProperty r
    .ok (.getProperty c p, r)
  | 7 => do
    let (c, r) ← getNat r
    .ok (.clear c, r)
  | 8 => do
    let (c, r) ← getNat r
    .ok (.home c, r)
  | 9 => do
    let (c, r) ← getNat r
    let (col, r) ← getNat r
    let (row, r) ← getNat r
    .ok (.setCursorPosition c col row, r)
  | 10 => do
    let (c, r) ← getNat r
    let (buf, r) ← getBuffer r
    .ok (.writeBytes c buf, r)
  | 11 => do
    let (c, r) ← getNat r
    let (t, r) ← getText r
    .ok (.writeText c t, r)
  | 12 => do
    let (c, r) ← getNat r
    let (slot, r) ← getNat r
    let (bm, r) ← getBitmap r
    let (off, r) ← getNat r
    .ok (.createChar c slot bm off, r)
  | 13 => do
    let (c, r) ← getNat r
    .ok (.scrollDisplayLeft c, r)
  | 14 => do
    let (c, r) ← getNat r
    .ok (.scrollDisplayRight c, r)
  | 15 => do
    let (c, r) ← getNat r
    let (right, r) ← getBool r
    .ok (.moveCursor c right, r)
  | _ => .error .badIndex

/-- The operation at the front of a record, and the bytes after it. -/
def decodeFront (bs : List Byte) : Except DecodeError (Instr × List Byte) := do
  let (fmt, r) ← getByte bs
  match fmt.toNat with
  | 0 => getBusOp r
  | 1 => getLinkOp r
  | 2 => getMicroOp r
  | 3 => getHostOp r
  | _ => .error .badFormat

/-- The operation a record encodes: total, and every record that encodes none is rejected by name. -/
def decode (bs : List Byte) : Except DecodeError Instr := do
  let (i, r) ← decodeFront bs
  if r.all (· == 0#8) then .ok i else .error .trailingBytes

/-! ## Encoding -/

/-- A Nat, 7 bits a byte; the first argument bounds the number of bytes after the first. -/
def putNatFuel : Nat → Nat → List Byte
  | 0, n => [BitVec.ofNat 8 n]
  | fuel + 1, n =>
    if n < 128 then [BitVec.ofNat 8 n] else BitVec.ofNat 8 (n % 128 + 128) :: putNatFuel fuel (n / 128)

/-- A Nat, 7 bits a byte. -/
def putNat (n : Nat) : List Byte := putNatFuel n n

/-- A Bool as a byte. -/
def boolByte (b : Bool) : Byte := if b then 1#8 else 0#8

/-- A mode as a byte. -/
def modeByte : Mode → Byte
  | .fourBit => 0#8
  | .eightBit => 1#8

/-- A property as a byte. -/
def propertyByte : Property → Byte
  | .visible => 0#8
  | .showCursor => 1#8
  | .blinkCursor => 2#8
  | .backlight => 3#8

/-- Eight Booleans as the bits of a byte, the first in bit 0. -/
def byteOfBits (b0 b1 b2 b3 b4 b5 b6 b7 : Bool) : Byte :=
  BitVec.ofBool b7 ++ BitVec.ofBool b6 ++ BitVec.ofBool b5 ++ BitVec.ofBool b4 ++
    BitVec.ofBool b3 ++ BitVec.ofBool b2 ++ BitVec.ofBool b1 ++ BitVec.ofBool b0

/-- A pin assignment as two bytes, a bit of 1 for an unassigned line. -/
def putPins (p : Lines Bool) : List Byte :=
  [byteOfBits (!p.rs) (!p.rw) (!p.e) (!p.d0) (!p.d1) (!p.d2) (!p.d3) (!p.d4),
    byteOfBits (!p.d5) (!p.d6) (!p.d7) false false false false false]

/-- A buffer: its length and its bytes. -/
def putBuffer (bs : List Byte) : List Byte := putNat bs.length ++ bs

/-- The `rows` of Begin. -/
def putRows (n : Nat) : List Byte := putNat (exchangeZero 1 n)

/-- The bitmap of CreateChar. -/
def putBitmap (bs : List Byte) : List Byte := putNat (exchangeZero 8 bs.length) ++ bs

/-- A text: its length and its scalar values. -/
def putText (t : Text) : List Byte := putNat t.length ++ t.flatMap fun c => putNat c.toNat

/-- The transfer word of R80 as the table's encoding writes it: the pattern of the row with its fields
filled in. `none` for an operation that is no bus encoding. -/
def busWord : Instr → Option (BitVec 9)
  | .clearDisplay _ => some 0b000000001#9
  | .returnHome _ => some 0b000000010#9
  | .entryModeSet _ i s => some (0b0000001#7 ++ BitVec.ofBool i ++ BitVec.ofBool s)
  | .displayControl _ d c b =>
    some (0b000001#6 ++ BitVec.ofBool d ++ BitVec.ofBool c ++ BitVec.ofBool b)
  | .cursorShift _ m r => some (0b00001#5 ++ BitVec.ofBool m ++ BitVec.ofBool r ++ 0b00#2)
  | .functionSet _ w n f =>
    some (0b0001#4 ++ BitVec.ofBool w ++ BitVec.ofBool n ++ BitVec.ofBool f ++ 0b00#2)
  | .setCgramAddr _ s => some (0b001#3 ++ s ++ 0b000#3)
  | .setDdramAddr _ a => some (0b01#2 ++ a)
  | .data _ d => some (0b1#1 ++ d)
  | .hsProbe _ => some 0b000000011#9
  | .hsCommit4 _ => some 0b000000010#9
  | .linkConstruct _ _ | .fourBitMode _ | .send _ _ _ _ | .release _ | .writeData8 _ _
  | .writeNibble _ _ | .enablePulse _ | .sendCommand _ _ | .sendData _ _ | .pushDisplayControl _
  | .construct _ | .beginOp _ _ _ _ _ | .setVisible _ _ | .setShowCursor _ _ | .setBlinkCursor _ _
  | .setBacklight _ _ | .getProperty _ _ | .clear _ | .home _ | .setCursorPosition _ _ _
  | .writeBytes _ _ | .writeText _ _ | .createChar _ _ _ _ | .scrollDisplayLeft _
  | .scrollDisplayRight _ | .moveCursor _ _ => none

/-- The record of a transfer word on a link. -/
def putBus (w : BitVec 9) (link : Nat) : List Byte :=
  0#8 :: w.extractLsb' 0 8 :: boolByte (w.getLsbD 8) :: putNat link

/-- The record of a bus encoding. -/
def putBusOp (i : Instr) (link : Nat) : List Byte := putBus ((busWord i).getD 0#9) link

/-- The record of an operation, written from the same table (R83, R103) and without padding. -/
def encode : Instr → List Byte
  | .clearDisplay l => putBusOp (.clearDisplay l) l
  | .returnHome l => putBusOp (.returnHome l) l
  | .entryModeSet l i s => putBusOp (.entryModeSet l i s) l
  | .displayControl l d c b => putBusOp (.displayControl l d c b) l
  | .cursorShift l m r => putBusOp (.cursorShift l m r) l
  | .functionSet l w n f => putBusOp (.functionSet l w n f) l
  | .setCgramAddr l s => putBusOp (.setCgramAddr l s) l
  | .setDdramAddr l a => putBusOp (.setDdramAddr l a) l
  | .data l d => putBusOp (.data l d) l
  | .hsProbe l => putBusOp (.hsProbe l) l
  | .hsCommit4 l => putBusOp (.hsCommit4 l) l
  | .linkConstruct m p => 1#8 :: 0#8 :: modeByte m :: putPins p
  | .fourBitMode l => 1#8 :: 1#8 :: putNat l
  | .send l v d b => 1#8 :: 2#8 :: (putNat l ++ [v, boolByte d, boolByte b])
  | .release l => 1#8 :: 3#8 :: putNat l
  | .writeData8 l v => 2#8 :: 0#8 :: (putNat l ++ [v])
  | .writeNibble l n => 2#8 :: 1#8 :: (putNat l ++ [n.setWidth 8])
  | .enablePulse l => 2#8 :: 2#8 :: putNat l
  | .sendCommand c v => 2#8 :: 3#8 :: (putNat c ++ [v])
  | .sendData c v => 2#8 :: 4#8 :: (putNat c ++ [v])
  | .pushDisplayControl c => 2#8 :: 5#8 :: putNat c
  | .construct l => 3#8 :: 0#8 :: putNat l
  | .beginOp c cols rows ltr font =>
    3#8 :: 1#8 :: (putNat c ++ (putNat cols ++ (putRows rows ++ [boolByte ltr, boolByte font])))
  | .setVisible c b => 3#8 :: 2#8 :: (putNat c ++ [boolByte b])
  | .setShowCursor c b => 3#8 :: 3#8 :: (putNat c ++ [boolByte b])
  | .setBlinkCursor c b => 3#8 :: 4#8 :: (putNat c ++ [boolByte b])
  | .setBacklight c b => 3#8 :: 5#8 :: (putNat c ++ [boolByte b])
  | .getProperty c p => 3#8 :: 6#8 :: (putNat c ++ [propertyByte p])
  | .clear c => 3#8 :: 7#8 :: putNat c
  | .home c => 3#8 :: 8#8 :: putNat c
  | .setCursorPosition c col row => 3#8 :: 9#8 :: (putNat c ++ (putNat col ++ putNat row))
  | .writeBytes c buf => 3#8 :: 10#8 :: (putNat c ++ putBuffer buf)
  | .writeText c t => 3#8 :: 11#8 :: (putNat c ++ putText t)
  | .createChar c slot bm off =>
    3#8 :: 12#8 :: (putNat c ++ (putNat slot ++ (putBitmap bm ++ putNat off)))
  | .scrollDisplayLeft c => 3#8 :: 13#8 :: putNat c
  | .scrollDisplayRight c => 3#8 :: 14#8 :: putNat c
  | .moveCursor c right => 3#8 :: 15#8 :: (putNat c ++ [boolByte right])

/-- The operation a decoder of the bits alone reads from an operation's record: HS_COMMIT4 reads as
RETURNHOME, whose bits it has (R85, R93; log 4), every other operation as itself. -/
def Instr.asDecoded : Instr → Instr
  | .hsCommit4 l => .returnHome l
  | i => i

/-! ## The opcode table's own numbering -/

/-- The format byte of a table word of `nbits` bits, given as the table's own width (9, 2, 3, 4) or in
whole bytes (16, 8). LINKOP, MICROOP and HOSTOP words have the same bits and the same length in whole
bytes; such a word reads as a HOSTOP (log 3). -/
def tableFormat (nbits : Nat) : Byte :=
  if nbits = 2 then 1#8
  else if nbits = 3 then 2#8
  else if nbits ≤ 8 then 3#8
  else if nbits ≤ 16 then 0#8
  else 0xFF#8

/-- The record of a table word: its format byte, its bytes with the least significant first, and operand
bytes of zeros. -/
def tableCall (nbits w : Nat) : List Byte :=
  tableFormat nbits :: BitVec.ofNat 8 w ::
    ((if 8 < nbits then [BitVec.ofNat 8 (w / 256)] else []) ++ List.replicate 16 0#8)

/-- The operation the decoder reads from a table word. -/
def decodeTableWord (nbits w : Nat) : Option Instr :=
  match decode (tableCall nbits w) with
  | .ok i => some i
  | .error _ => none

end Sys2Proof
end

