-- ==== Sys2Proof/Config.lean ====
section
/-! DEFINITION. What an implementation fixes and what the spec leaves open: the shape of the command
record CMD (00_scope.md R14, D4), the names of the durations (R13), and the free values. The values
of CMD stand in Machine/Commands.lean, the bounds of the durations in Machine/Timing.lean. -/

namespace Sys2Proof.Config

/-- The configuration record CMD of D4: every constant of 00_scope.md R14. -/
structure Cmd where
  clearDisplay : Byte
  returnHome : Byte
  entryModeSet : Byte
  displayControl : Byte
  cursorShift : Byte
  functionSet : Byte
  setCgramAddr : Byte
  setDdramAddr : Byte
  hsProbe : Byte
  hsCommit4 : Byte
  fs8Bit : Byte
  fs4Bit : Byte
  fs2Line : Byte
  fs1Line : Byte
  fs5x10 : Byte
  fs5x8 : Byte
  entryLeft : Byte
  entryRight : Byte
  entryShiftInc : Byte
  entryShiftDec : Byte
  displayOn : Byte
  cursorOn : Byte
  blinkOn : Byte
  shiftDisplay : Byte
  shiftCursor : Byte
  shiftRight : Byte
  shiftLeft : Byte
  deriving DecidableEq, Repr

/-- The durations of 00_scope.md R13, by name. -/
inductive Delay where
  | warmup
  | hsLong
  | hs4Short
  | hs8Short
  | clear
  | home
  | pulse
  deriving DecidableEq, Repr

/-- The text encoders of 00_scope.md R11 and 10_state.md R46: UTF-8, the default, and the other
configured ones, which the spec does not describe (D32). -/
inductive Encoder where
  | utf8
  | other (k : Nat)
  deriving DecidableEq, Repr

/-- FREE VALUE (log 18). `T_UNIT` is `(unitNum + 1) / (unitDen + 1)` nanoseconds: any positive
rational (D1). -/
opaque unitNum : Nat

/-- FREE VALUE (log 18). See `unitNum`. -/
opaque unitDen : Nat

/-- FREE VALUE (log 18). How far a duration lies above its bound, `slackNum d / (slackDen d + 1)`
nanoseconds: any non-negative rational (R13, U8). -/
opaque slackNum : Delay → Nat

/-- FREE VALUE (log 18). See `slackNum`. -/
opaque slackDen : Delay → Nat

/-- FREE VALUE (log 10). A flag of controller number `ctl` that the spec leaves unspecified until
Begin writes it (R51, N16); `field` tells the flags apart. -/
opaque freshFlag (ctl field : Nat) : Bool

/-- FREE VALUE (log 10). The unspecified `ctl.displayFunction` of a new controller. -/
opaque freshByte (ctl : Nat) : Byte

/-- FREE VALUE (log 10). The unspecified geometry of a new controller. -/
opaque freshNat (ctl field : Nat) : Nat

/-- FREE VALUE (log 19). The bytes of a text under configured encoder number `k` (D32). -/
opaque encodeOther (k : Nat) (text : Text) : List Byte

end Sys2Proof.Config
end

