-- ==== Sys2Proof/Machine/Commands.lean ====
section
/-! DEFINITION. The values of the configuration record CMD (00_scope.md R14) and of the parameters of
00_scope.md R15. -/

namespace Sys2Proof.Machine

open Sys2Proof.Config

/-- CMD of R14. `hsProbe` and `hsCommit4` are printed in the source and `setDdramAddr` is derived from
it; every other value is PRESUMED (G1, G2; log 5). -/
def cmd : Cmd where
  clearDisplay := 0x01#8
  returnHome := 0x02#8
  entryModeSet := 0x04#8
  displayControl := 0x08#8
  cursorShift := 0x10#8
  functionSet := 0x20#8
  setCgramAddr := 0x40#8
  setDdramAddr := 0x80#8
  hsProbe := 0x03#8
  hsCommit4 := 0x02#8
  fs8Bit := 0x10#8
  fs4Bit := 0x00#8
  fs2Line := 0x08#8
  fs1Line := 0x00#8
  fs5x10 := 0x04#8
  fs5x8 := 0x00#8
  entryLeft := 0x02#8
  entryRight := 0x00#8
  entryShiftInc := 0x01#8
  entryShiftDec := 0x00#8
  displayOn := 0x04#8
  cursorOn := 0x02#8
  blinkOn := 0x01#8
  shiftDisplay := 0x08#8
  shiftCursor := 0x00#8
  shiftRight := 0x04#8
  shiftLeft := 0x00#8

/-- `RW_WRITE_LEVEL` of R15: PRESUMED (G5, D5; log 6). -/
def rwWriteLevel : Level := .L

end Sys2Proof.Machine
end

