-- ==== Sys2Proof/Machine/Flags.lean ====
section
/-! DEFINITION. The composed command bytes and the display function flags (30_encoding.md R84 to R96). -/

namespace Sys2Proof.Machine

/-- The bits of a flag that a Boolean selects, or no bits. -/
def flagBits (b : Bool) (bits : Byte) : Byte := if b then bits else 0#8

/-- `ctl.displayFunction` of R94. The large font is "only honored when `rows==1`". -/
def displayFunctionFlags (fourBit : Bool) (rows : Nat) (largeFont : Bool) : Byte :=
  (if fourBit then cmd.fs4Bit else cmd.fs8Bit) |||
  (if rows > 1 then cmd.fs2Line else cmd.fs1Line) |||
  (if largeFont && rows == 1 then cmd.fs5x10 else cmd.fs5x8)

/-- The function-set byte of R89: the base code and the display function flags. -/
def functionSetByte (displayFunction : Byte) : Byte := cmd.functionSet ||| displayFunction

/-- The display function field of a FUNCTIONSET word: `w` in bit 4, `n` in bit 3, `f` in bit 2 (R89). -/
def functionSetFlags (wide twoLine tall : Bool) : Byte :=
  (if wide then cmd.fs8Bit else cmd.fs4Bit) |||
  (if twoLine then cmd.fs2Line else cmd.fs1Line) |||
  (if tall then cmd.fs5x10 else cmd.fs5x8)

/-- `DisplayControlByte()` of R95. -/
def displayControlByte (visible showCursor blinkCursor : Bool) : Byte :=
  cmd.displayControl ||| flagBits visible cmd.displayOn ||| flagBits showCursor cmd.cursorOn |||
    flagBits blinkCursor cmd.blinkOn

/-- The entry-mode byte of R86 with both its fields; `EntryModeByte()` of R96 fixes `shift` to
`ENTRY_SHIFTDEC`. -/
def entryModeByte (leftToRight shift : Bool) : Byte :=
  cmd.entryModeSet ||| (if leftToRight then cmd.entryLeft else cmd.entryRight) |||
    (if shift then cmd.entryShiftInc else cmd.entryShiftDec)

/-- The shift byte of R88: `m` moves the display, `r` shifts right. -/
def cursorShiftByte (moveDisplay right : Bool) : Byte :=
  cmd.cursorShift ||| (if moveDisplay then cmd.shiftDisplay else cmd.shiftCursor) |||
    (if right then cmd.shiftRight else cmd.shiftLeft)

end Sys2Proof.Machine
end

