-- ==== Sys2Proof/Machine/Operands.lean ====
section
/-! DEFINITION. Operand assembly (30_encoding.md R97, R98), the halves of a byte and the lines of its bits
(20_memory.md R65, R66), legal pin assignments (00_scope.md R12), the encoder (R11), and the orders of
the "any order" groups (40_link_driver.md R113, R114, R116). -/

namespace Sys2Proof.Machine

open Sys2Proof.Config

/-- `value[7:4]`, the high nibble (R16, R65). -/
def highNibble (v : Byte) : Nibble := v.extractLsb' 4 4

/-- `value[3:0]`, the low nibble (R16, R65). -/
def lowNibble (v : Byte) : Nibble := v.extractLsb' 0 4

/-- The number of the bus bit a data line carries; 0 for the three lines that carry none (R66). -/
def busBit : Line → Nat
  | .d0 => 0
  | .d1 => 1
  | .d2 => 2
  | .d3 => 3
  | .d4 => 4
  | .d5 => 5
  | .d6 => 6
  | .d7 => 7
  | .rs | .rw | .e => 0

/-- The level bit `i` of the value gives line `Di` in `EightBit` mode (R66, R113). -/
def byteLevel (v : Byte) (l : Line) : Level := lvl (v.getLsbD (busBit l))

/-- The level bit `j` of the nibble gives line `D(4+j)` (R66, R114). -/
def nibbleLevel (n : Nibble) (l : Line) : Level := lvl (n.getLsbD (busBit l - 4))

/-- The pin assignments `LinkConstruct` accepts: register-select and enable always, all eight data lines
in `EightBit` mode, `D4` to `D7` in `FourBit` mode (R12, R110, R191). -/
def legalPins (mode : Mode) (pins : Lines Bool) : Bool :=
  pins.rs && pins.e &&
  match mode with
  | .eightBit => dataLines.all pins.get
  | .fourBit => nibbleLines.all pins.get

/-- The lines an assignment names, in the order of `allLines`. -/
def assignedLines (pins : Lines Bool) : List Line := allLines.filter pins.get

/-- `ROW_OFFSET` of R43. -/
def rowOffsetTable : List Nat := [0x00, 0x40, 0x14, 0x54]

/-- `ROW_OFFSET[r]`. Only indices 0 to 3 are ever used (R63). -/
def rowOffset (r : Nat) : Nat := rowOffsetTable.getD r 0

/-- The clamped row of R97: "no error, no wraparound beyond the last row". -/
def clampRow (numRows row : Nat) : Nat := if row ≥ numRows then numRows - 1 else row

/-- The DDRAM address of R97: natural addition, no wrap. -/
def ddramAddress (numRows column row : Nat) : Nat := column + rowOffset (clampRow numRows row)

/-- `(SETDDRAMADDR | address)[7:0]` of R97; above `0x7F` the low 8 bits (D19, U12; log 20). -/
def ddramByte (numRows column row : Nat) : Byte :=
  BitVec.ofNat 8 (cmd.setDdramAddr.toNat ||| ddramAddress numRows column row)

/-- The masked slot of R98: `slot & 0x7`. -/
def maskSlot (slot : Nat) : Nat := slot &&& 0x7

/-- `SETCGRAMADDR | (s << 3)` of R98. -/
def cgramByte (slot : Nat) : Byte := cmd.setCgramAddr ||| BitVec.ofNat 8 (maskSlot slot <<< 3)

/-- The 8 pattern bytes of CreateChar, `bitmap[offset]` first (R173). -/
def glyphBytes (bitmap : List Byte) (offset : Nat) : List Byte := (bitmap.drop offset).take 8

/-- UTF-8 of one character: PRESUMED (G8; log 19). -/
def utf8Char (c : Char) : List Byte :=
  let n := c.toNat
  if n < 0x80 then [BitVec.ofNat 8 n]
  else if n < 0x800 then [BitVec.ofNat 8 (0xC0 + n / 0x40), BitVec.ofNat 8 (0x80 + n % 0x40)]
  else if n < 0x10000 then
    [BitVec.ofNat 8 (0xE0 + n / 0x1000), BitVec.ofNat 8 (0x80 + n / 0x40 % 0x40),
      BitVec.ofNat 8 (0x80 + n % 0x40)]
  else
    [BitVec.ofNat 8 (0xF0 + n / 0x40000), BitVec.ofNat 8 (0x80 + n / 0x1000 % 0x40),
      BitVec.ofNat 8 (0x80 + n / 0x40 % 0x40), BitVec.ofNat 8 (0x80 + n % 0x40)]

/-- `Encode(text)` of R11 under one encoder: total, and fixed per controller (R46, D32, U22). -/
def encodeText : Encoder → Text → List Byte
  | .utf8, text => text.flatMap utf8Char
  | .other k, text => encodeOther k text

/-- A list with one more element, put at position `k`, or at the end when `k` lies beyond it. -/
def insertAt {α : Type} (k : Nat) (a : α) : List α → List α
  | [] => [a]
  | x :: xs =>
    match k with
    | 0 => a :: x :: xs
    | k + 1 => x :: insertAt k a xs

/-- The order number `n` of a list: 0 is the list as it stands, and every permutation of the list has a
number, so that a free `n` is a free order (R113, R114, R116, D7; log 8). -/
def permute {α : Type} (n : Nat) : List α → List α
  | [] => []
  | x :: xs => insertAt (n % (xs.length + 1)) x (permute (n / (xs.length + 1)) xs)

end Sys2Proof.Machine
end

