-- ==== Sys2Proof/Machine/State.lean ====
section
/-! DEFINITION. The state of the block as plain data (10_state.md R30 to R52), the events of its trace
(00_scope.md R18), the outcomes of an operation (R20), the stops of a step, and the state after reset. -/

namespace Sys2Proof.Machine

open Sys2Proof.Config

/-- `pin[line]` of R34: the level last written, `U` claimed and never written, `Z` released. `U` and `Z`
are not levels: they equal neither `L` nor `H` (D9, U14, U21; log 9). -/
inductive PinState where
  | L
  | H
  | U
  | Z
  deriving DecidableEq, Repr

/-- The pin state a written level leaves (R18). -/
def pinOf : Level → PinState
  | .L => .L
  | .H => .H

/-- `lnk` of R31 to R33 with the `pin` record of R34 for its lines. `pin` of a line is `none` exactly
where the line is not assigned: such a line "does not exist" (R51). -/
structure Link where
  mode : Mode
  assigned : Lines Bool
  released : Bool
  pin : Lines (Option PinState)
  deriving DecidableEq, Repr

/-- `ctl.phase` of R36. -/
inductive Phase where
  | uninitialized
  | ready
  deriving DecidableEq, Repr

/-- `ctl` of R36 to R42 and R46. `link` is the position of its link in `State.links` (R37; log 16). -/
structure Ctl where
  phase : Phase
  link : Nat
  displayFunction : Byte
  visible : Bool
  showCursor : Bool
  blinkCursor : Bool
  backlight : Bool
  leftToRight : Bool
  shiftOnWrite : Bool
  numCols : Nat
  numRows : Nat
  encode : Encoder
  deriving DecidableEq, Repr

/-- The parameters of 00_scope.md R15 that an operation reads. No step changes them (R52; log 7).
`defaultRowsLess1` is `DEFAULT_ROWS - 1`, so that `DEFAULT_ROWS` is 1 to 4 (D14). -/
structure Params where
  defaultCols : Nat
  defaultRowsLess1 : Fin 4
  backlightReset : Bool
  encode : Encoder
  deriving DecidableEq, Repr

/-- `DEFAULT_ROWS` of R15. -/
def Params.defaultRows (p : Params) : Nat := p.defaultRowsLess1.val + 1

/-- The events of 00_scope.md R18. A pin event names the link whose line it is, a transfer event the
controller that made it (log 16). -/
inductive Event where
  | pin (link : Nat) (line : Line) (level : Level)
  | wait (d : Delay)
  | release (link : Nat) (line : Line)
  | xfer (ctl : Nat) (value : Byte) (isData backlight : Bool)
  deriving DecidableEq, Repr

/-- The two error kinds of 60_exceptions.md R190: symbolic, with no payload (D26). -/
inductive ErrorKind where
  | configurationError
  | disposedError
  deriving DecidableEq, Repr

/-- How the last operation ended (R20): `ok`, with a result where the operation returns one, or
`error`. `none` before any operation has ended. -/
inductive OpOutcome where
  | none
  | ok
  | okBool (b : Bool)
  | okLink (link : Nat)
  | okCtl (ctl : Nat)
  | error (e : ErrorKind)
  deriving DecidableEq, Repr

/-- The whole machine. `links` and `ctls` are the spec's state (R30); the other fields are the model's
own (INVENTORY.md, State): the parameters (R52), the calls the host has yet to present (log 2), the
free choices of the "any order" groups (log 8), and the observations of R18 and R20 (log 12). -/
structure State where
  links : List Link
  ctls : List Ctl
  params : Params
  pending : List Instr
  lineOrders : List Nat
  trace : List Event
  outcome : OpOutcome
  deriving DecidableEq, Repr

/-- Stops for states that cannot arise. -/
inductive Fault where
  /-- Raised by every controller operation whose controller refers to a link that is not in the state.
  Safe: a controller is only made on an existing link and no link is ever removed (R37), so no state
  of a run raises it. -/
  | danglingLink
  deriving DecidableEq, Repr

/-- The `refused` outcome of R20, by reason. A refused operation has no trace, no state change and no
value (D16). -/
inductive Refusal where
  /-- An instruction whose meaning is not written; raised by `exec` alone. Safe. -/
  | notModelled (mnemonic : String)
  /-- Raised by a controller operation other than Begin while `ctl.phase = Uninitialized` (R193, U1).
  Safe: the spec gives the call no meaning. -/
  | notReady
  /-- Raised by Begin with `rows` outside 1 to 4 (R132, U11). Safe: the spec gives it no meaning. -/
  | rowsOutOfRange
  /-- Raised by CreateChar with fewer than `offset + 8` bytes (R173, U13). Safe: the spec gives it no
  meaning. -/
  | bitmapTooShort
  /-- Raised by an operation on a link that was never constructed (log 17). Safe: no host holds such a
  reference. -/
  | noSuchLink
  /-- Raised by an operation on a controller that was never constructed (log 17). Safe: no host holds
  such a reference. -/
  | noSuchController
  /-- Raised by a link micro-operation run alone on a link that does not drive the lines it writes: not
  assigned, released, or `D0` to `D3` of a `FourBit` link (R32, R34, R66; log 15). Safe: inside `Send`
  the case cannot arise and the host cannot call a micro-operation (R103). -/
  | lineNotDriven
  /-- Raised by a step whose call is a micro-operation, which "the host cannot call" (R103): no line is
  written except through `Send` (R35). Safe: the spec gives the host no such call. -/
  | notHostCallable
  deriving DecidableEq, Repr

/-- The parameter values of the reset state: PRESUMED (G9, D14, D15, R15; log 7). -/
def Params.initial : Params where
  defaultCols := 16
  defaultRowsLess1 := 0
  backlightReset := true
  encode := .utf8

/-- The machine before any call: nothing has been constructed (R212; log 1). The reset values of R51 are
those `LinkConstruct` and `Construct` give a new link and a new controller. -/
def State.reset : State where
  links := []
  ctls := []
  params := Params.initial
  pending := []
  lineOrders := []
  trace := []
  outcome := .none

end Sys2Proof.Machine
end

