-- ==== Sys2Proof/Machine/Ops.lean ====
section
/-! DEFINITION. The shared operations: the emission primitives of 00_scope.md R18, the link's
micro-operations and `Send` (40_link_driver.md R112 to R116), the controller's transfers and waits
(41_controller_begin.md R131), error entry (60_exceptions.md R196), and how an operation starts and
ends. -/

namespace Sys2Proof.Machine

open Sys2Proof.Config

/-! ## Sequences of micro-steps that an error may cut short (R196) -/

/-- Where a sequence of micro-steps stands: all done, or cut short by an error with every micro-step
before it done. -/
inductive Ran (σ : Type) where
  | done (x : σ)
  | failed (x : σ) (e : ErrorKind)
  deriving DecidableEq, Repr

/-- `A; B` of R17: B runs only when A has completed; an error of A ends both (R196). -/
def Ran.andThen {σ : Type} (r : Ran σ) (f : σ → Ran σ) : Ran σ :=
  match r with
  | .done x => f x
  | .failed x e => .failed x e

/-- The state reached, wherever the sequence ended. -/
def Ran.reached {σ : Type} : Ran σ → σ
  | .done x => x
  | .failed x _ => x

/-- The same sequence seen as part of a larger state. -/
def Ran.lift {σ τ : Type} (f : σ → τ) : Ran σ → Ran τ
  | .done x => .done (f x)
  | .failed x e => .failed (f x) e

/-! ## The link an operation works on -/

/-- What a link operation reads and writes: the link, its position, the free orders and the trace. -/
structure Bus where
  idx : Nat
  lnk : Link
  lineOrders : List Nat
  trace : List Event
  deriving DecidableEq, Repr

/-- `emit Pin(line, level)` of R18. -/
def Bus.emitPin (l : Line) (v : Level) (b : Bus) : Bus :=
  { b with
    lnk := { b.lnk with pin := b.lnk.pin.set l (some (pinOf v)) }
    trace := b.trace ++ [.pin b.idx l v] }

/-- `emit Wait(d)` of R18. -/
def Bus.emitWait (d : Delay) (b : Bus) : Bus := { b with trace := b.trace ++ [.wait d] }

/-- `emit Release(line)` of R18. -/
def Bus.emitRelease (l : Line) (b : Bus) : Bus :=
  { b with
    lnk := { b.lnk with pin := b.lnk.pin.set l (some .Z) }
    trace := b.trace ++ [.release b.idx l] }

/-- `for each x in xs (any order): A` of R17: the order is the next free choice (log 8). -/
def Bus.inAnyOrder (ls : List Line) (act : Line → Bus → Bus) (b : Bus) : Bus :=
  (permute (b.lineOrders.headD 0) ls).foldl (fun b l => act l b)
    { b with lineOrders := b.lineOrders.tail }

/-- `WriteData8(value)` of R113. -/
def Bus.writeData8 (v : Byte) (b : Bus) : Bus :=
  b.inAnyOrder dataLines fun l => Bus.emitPin l (byteLevel v l)

/-- `WriteNibble(n)` of R114. -/
def Bus.writeNibble (n : Nibble) (b : Bus) : Bus :=
  b.inAnyOrder nibbleLines fun l => Bus.emitPin l (nibbleLevel n l)

/-- `EnablePulse()` of R115. -/
def Bus.enablePulse (b : Bus) : Bus :=
  (((b.emitPin .e .L).emitPin .e .H).emitWait .pulse).emitPin .e .L

/-- The data cycles of a `Send`: one in `EightBit` mode, two in `FourBit` mode, high nibble first
(R81, R82, R112). -/
def Bus.sendCycles (v : Byte) (b : Bus) : Bus :=
  match b.lnk.mode with
  | .eightBit => (b.writeData8 v).enablePulse
  | .fourBit => (((b.writeNibble (highNibble v)).enablePulse).writeNibble (lowNibble v)).enablePulse

/-- `Send(value, isData, backlight)` of R112. The released check comes first and a failing `Send` emits
nothing (D11). The GPIO link has no backlight line, so the flag changes nothing (D10, C8). -/
def Bus.send (v : Byte) (isData _backlight : Bool) (b : Bus) : Ran Bus :=
  if b.lnk.released then .failed b .disposedError
  else
    let b := b.emitPin .rs (lvl isData)
    let b := if b.lnk.assigned.rw then b.emitPin .rw rwWriteLevel else b
    .done (b.sendCycles v)

/-- `Release()` of R116: every assigned line exactly once, and nothing the second time. -/
def Bus.release (b : Bus) : Bus :=
  if b.lnk.released then b
  else
    ({ b with lnk := { b.lnk with released := true } } : Bus).inAnyOrder (assignedLines b.lnk.assigned)
      Bus.emitRelease

/-- A line a micro-operation can write now: assigned (R32), not released (R34), and not one of the lines
`D0` to `D3` of a `FourBit` link, which are never written (R66; log 15). -/
def Link.drives (k : Link) (l : Line) : Bool :=
  k.assigned.get l && !k.released &&
    !(k.mode == .fourBit && (l == .d0 || l == .d1 || l == .d2 || l == .d3))

/-- The pins of a new link: `U` for an assigned line, absent otherwise (R51, R110). -/
def freshPins (pins : Lines Bool) : Lines (Option PinState) :=
  pins.map fun a => if a then some .U else none

/-- A new link (R51, R110). -/
def Link.fresh (mode : Mode) (pins : Lines Bool) : Link where
  mode := mode
  assigned := pins
  released := false
  pin := freshPins pins

/-! ## The controller an operation works on -/

/-- What a controller operation reads and writes: the controller, its position, and its link. -/
structure Desk where
  bus : Bus
  idx : Nat
  ctl : Ctl
  deriving DecidableEq, Repr

/-- `link.fourBitMode` of R111. -/
def Link.fourBitMode (k : Link) : Bool := k.mode == .fourBit

/-- `emit Xfer(value, isData, backlight)` of R18, with the cached backlight (R131). -/
def Desk.emitXfer (v : Byte) (isData : Bool) (d : Desk) : Desk :=
  { d with bus := { d.bus with trace := d.bus.trace ++ [.xfer d.idx v isData d.ctl.backlight] } }

/-- A controller's transfer, the body of R131: the event is recorded even when the `send` fails (D23),
and the error passes through unchanged (R199). -/
def Desk.transfer (v : Byte) (isData : Bool) (d : Desk) : Ran Desk :=
  let d := d.emitXfer v isData
  (d.bus.send v isData d.ctl.backlight).lift fun b => { d with bus := b }

/-- `SendCommand(v)` of R131. -/
def Desk.sendCommand (v : Byte) (d : Desk) : Ran Desk := d.transfer v false

/-- `SendData(v)` of R131. -/
def Desk.sendData (v : Byte) (d : Desk) : Ran Desk := d.transfer v true

/-- `emit Wait(d)` by the controller (R18). -/
def Desk.wait (t : Delay) (d : Desk) : Ran Desk := .done { d with bus := d.bus.emitWait t }

/-- `SendData` of each byte of a list, in order; the first error ends it (R67, R170). -/
def Desk.sendAll : List Byte → Desk → Ran Desk
  | [], d => .done d
  | v :: vs, d => (d.sendData v).andThen (Desk.sendAll vs)

/-- `PushDisplayControl()` of R150. -/
def Desk.pushDisplayControl (d : Desk) : Ran Desk :=
  d.sendCommand (displayControlByte d.ctl.visible d.ctl.showCursor d.ctl.blinkCursor)

/-- The body of `Clear` (R160), also Begin step 6 (R139). -/
def Desk.clear (d : Desk) : Ran Desk := (d.sendCommand cmd.clearDisplay).andThen (Desk.wait .clear)

/-- A write to the controller's cached fields. -/
def Desk.mapCtl (f : Ctl → Ctl) (d : Desk) : Desk := { d with ctl := f d.ctl }

/-- A new controller on a link (R51, R130): phase, link, backlight and encoder as given, the hardwired
`shiftOnWrite` (R47; log 11), and free values for the fields the spec leaves unspecified until Begin
writes them, within the bits R38 allows (log 10). -/
def Ctl.fresh (p : Params) (idx link : Nat) : Ctl where
  phase := .uninitialized
  link := link
  displayFunction := freshByte idx &&& 0x1C#8
  visible := freshFlag idx 0
  showCursor := freshFlag idx 1
  blinkCursor := freshFlag idx 2
  backlight := p.backlightReset
  leftToRight := freshFlag idx 3
  shiftOnWrite := false
  numCols := freshNat idx 0
  numRows := freshNat idx 1
  encode := p.encode

/-! ## Begin (41_controller_begin.md R132 to R140) -/

/-- Begin step 1 (R133). -/
def Desk.beginGeometry (columns rows : Nat) (largeFont : Bool) (d : Desk) : Desk :=
  d.mapCtl fun c =>
    { c with
      numCols := columns
      numRows := rows
      displayFunction := displayFunctionFlags d.bus.lnk.fourBitMode rows largeFont }

/-- The function-set transfer of Begin steps 3 and 4 (R136, R137). -/
def Desk.sendFunctionSet (d : Desk) : Ran Desk := d.sendCommand (functionSetByte d.ctl.displayFunction)

/-- Begin step 3 in `FourBit` mode (R135). -/
def Desk.handshake4 (d : Desk) : Ran Desk :=
  ((((((d.sendCommand cmd.hsProbe).andThen (Desk.wait .hsLong)).andThen
    (Desk.sendCommand cmd.hsProbe)).andThen (Desk.wait .hsLong)).andThen
    (Desk.sendCommand cmd.hsProbe)).andThen (Desk.wait .hs4Short)).andThen
    (Desk.sendCommand cmd.hsCommit4)

/-- Begin step 3 in `EightBit` mode (R136). -/
def Desk.handshake8 (d : Desk) : Ran Desk :=
  (((d.sendFunctionSet.andThen (Desk.wait .hsLong)).andThen Desk.sendFunctionSet).andThen
    (Desk.wait .hs8Short)).andThen Desk.sendFunctionSet

/-- Begin step 3, by transfer mode (R132). -/
def Desk.handshake (d : Desk) : Ran Desk :=
  if d.bus.lnk.fourBitMode then d.handshake4 else d.handshake8

/-- Begin step 5 (R138): the command is sent unconditionally. -/
def Desk.controlReset (d : Desk) : Ran Desk :=
  (d.mapCtl fun c =>
    { c with visible := true, showCursor := false, blinkCursor := false, backlight := true }).pushDisplayControl

/-- Begin step 7 (R140, R96). -/
def Desk.entryMode (leftToRight : Bool) (d : Desk) : Ran Desk :=
  let d := d.mapCtl fun c => { c with leftToRight := leftToRight, shiftOnWrite := false }
  d.sendCommand (entryModeByte d.ctl.leftToRight d.ctl.shiftOnWrite)

/-- Begin's last micro-step: `ctl.phase <- Ready` (R132, D22). -/
def Desk.becomeReady (d : Desk) : Ran Desk := .done (d.mapCtl fun c => { c with phase := .ready })

/-- The seven steps of Begin, each completing before the next, and the phase last (R132, R141). The
domain of `rows` is checked before (R195). -/
def Desk.begin (columns rows : Nat) (leftToRight largeFont : Bool) (d : Desk) : Ran Desk :=
  (((((((d.beginGeometry columns rows largeFont).wait .warmup).andThen Desk.handshake).andThen
    Desk.sendFunctionSet).andThen Desk.controlReset).andThen Desk.clear).andThen
    (Desk.entryMode leftToRight)).andThen Desk.becomeReady

/-! ## Starting and ending an operation -/

/-- The answers of a step. -/
abbrev Answer := Host.Outcome State Fault Refusal

/-- Error entry (R196): the host receives `error(e)`; nothing is saved, no mode changes, control goes
back to the host, and everything done before stands. There is no return from it (R198). -/
def State.raiseError (e : ErrorKind) (s : State) : State := { s with outcome := .error e }

/-- The operation ended `ok` with an answer (R20). -/
def State.answer (o : OpOutcome) (s : State) : State := { s with outcome := o }

/-- The link at a position, as an operation sees it. -/
def State.busAt (s : State) (l : Nat) : Option Bus :=
  s.links[l]?.map fun k => { idx := l, lnk := k, lineOrders := s.lineOrders, trace := s.trace }

/-- A link operation's results, back in the state. -/
def State.putBus (s : State) (b : Bus) : State :=
  { s with links := s.links.set b.idx b.lnk, lineOrders := b.lineOrders, trace := b.trace }

/-- A controller operation's results, back in the state. -/
def State.putDesk (s : State) (d : Desk) : State :=
  { s.putBus d.bus with ctls := s.ctls.set d.idx d.ctl }

/-- The end of a link operation (R20, R196). -/
def State.endBus (s : State) (o : OpOutcome) : Ran Bus → Answer
  | .done b => .next ((s.putBus b).answer o)
  | .failed b e => .next ((s.putBus b).raiseError e)

/-- The end of a controller operation (R20, R196). -/
def State.endDesk (s : State) (o : OpOutcome) : Ran Desk → Answer
  | .done d => .next ((s.putDesk d).answer o)
  | .failed d e => .next ((s.putDesk d).raiseError e)

/-- An operation on a link: refused where the link was never constructed (log 17). -/
def State.onLink (s : State) (l : Nat) (op : Bus → Answer) : Answer :=
  match s.busAt l with
  | none => .refused .noSuchLink
  | some b => op b

/-- An operation on a controller: refused where the controller was never constructed (log 17). -/
def State.onCtl (s : State) (c : Nat) (op : Desk → Answer) : Answer :=
  match s.ctls[c]? with
  | none => .refused .noSuchController
  | some k =>
    match s.busAt k.link with
    | none => .fault .danglingLink
    | some b => op { bus := b, idx := c, ctl := k }

/-- An operation whose precondition is `ctl.phase = Ready`: refused otherwise, before any micro-step
(R193, R195, D16). -/
def State.onReady (s : State) (c : Nat) (op : Desk → Answer) : Answer :=
  s.onCtl c fun d =>
    match d.ctl.phase with
    | .uninitialized => .refused .notReady
    | .ready => op d

/-- A whole controller operation that ends in plain `ok`. -/
def State.runReady (s : State) (c : Nat) (op : Desk → Ran Desk) : Answer :=
  s.onReady c fun d => s.endDesk .ok (op d)

/-- A whole `Send` on a link (R112). -/
def State.runSend (s : State) (l : Nat) (v : Byte) (isData backlight : Bool) : Answer :=
  s.onLink l fun b => s.endBus .ok (b.send v isData backlight)

/-- A link micro-operation run alone: refused unless the link drives every line it writes (log 15). -/
def State.runMicro (s : State) (l : Nat) (ls : List Line) (op : Bus → Bus) : Answer :=
  s.onLink l fun b =>
    if ls.all b.lnk.drives then s.endBus .ok (.done (op b)) else .refused .lineNotDriven

/-- A setter's body (R151 to R154): nothing when the cached value is already there, else update the cache
and push the display-control byte. -/
def Desk.setFlag (get : Ctl → Bool) (put : Ctl → Bool → Ctl) (b : Bool) (d : Desk) : Ran Desk :=
  if get d.ctl == b then .done d else (d.mapCtl fun c => put c b).pushDisplayControl

/-! ## The host's calls -/

/-- The next call the host presents, and the state with that call taken from the queue (log 2). -/
def State.nextCall (s : State) : Option (Instr × State) :=
  match s.pending with
  | [] => none
  | call :: rest => some (call, { s with pending := rest })

/-- A call put in front of the queue (log 2). -/
def State.present (call : Instr) (s : State) : State := { s with pending := call :: s.pending }

end Sys2Proof.Machine
end

