-- ==== Sys2Proof/Machine/Begin.lean ====
section
/-! DEFINITION. Construction of a controller and Begin (41_controller_begin.md R130, R132). -/

namespace Sys2Proof.Machine

/-- `Construct(link)` (R130): a new controller and its implicit Begin with the default geometry. The
controller exists from the start of `Construct`, so a failing Begin leaves it `Uninitialized` (D35). -/
def execConstruct (l : Nat) (s : State) : Answer :=
  s.onLink l fun b =>
    let c := Ctl.fresh s.params s.ctls.length l
    ({ s with ctls := s.ctls ++ [c] } : State).endDesk (.okCtl s.ctls.length)
      (Desk.begin s.params.defaultCols s.params.defaultRows true false
        { bus := b, idx := s.ctls.length, ctl := c })

/-- `Begin(columns, rows, leftToRight, largeFont)` (R132): in either phase; refused where `rows` is not 1
to 4, before any micro-step (R195, D17). -/
def execBegin (c columns rows : Nat) (leftToRight largeFont : Bool) (s : State) : Answer :=
  s.onCtl c fun d =>
    if rowsLegal rows then s.endDesk .ok (d.begin columns rows leftToRight largeFont)
    else .refused .rowsOutOfRange

end Sys2Proof.Machine
end

