-- ==== Sys2Proof/Machine/LinkDriver.lean ====
section
/-! DEFINITION. The Link Driver's operations (40_link_driver.md R110, R111, R112, R116). -/

namespace Sys2Proof.Machine

/-- `LinkConstruct(mode, pins)` (R110). A ConfigurationError leaves no link and no event (R191, D34);
otherwise the new link's position is the answer (log 16). -/
def execLinkConstruct (mode : Mode) (pins : Lines Bool) (s : State) : Answer :=
  if legalPins mode pins then
    .next (({ s with links := s.links ++ [Link.fresh mode pins] } : State).answer (.okLink s.links.length))
  else .next (s.raiseError .configurationError)

/-- `FourBitMode` (R111): answered after `Release` too (D13). -/
def execFourBitMode (l : Nat) (s : State) : Answer :=
  s.onLink l fun b => .next (s.answer (.okBool b.lnk.fourBitMode))

/-- `Send(value, isData, backlight)` (R112). -/
def execSend (l : Nat) (value : Byte) (isData backlight : Bool) (s : State) : Answer :=
  s.runSend l value isData backlight

/-- `Release()` (R116). -/
def execRelease (l : Nat) (s : State) : Answer :=
  s.onLink l fun b => s.endBus .ok (.done b.release)

end Sys2Proof.Machine
end

