-- ==== Sys2Proof/Machine/Calls.lean ====
section
/-! DEFINITION. The host's side of a call: which operations the host can call (30_encoding.md R103), what a
call is made on, and the boot order of 70_reset_and_hazards.md R212 by which what it is made on comes to
exist (log 2). -/

namespace Sys2Proof.Machine

/-- The operations the host can call: all but the micro-operations, which "the host cannot call" (R103). A bus
encoding stands for a host's direct `link.send` of it (R99; log 14). -/
def hostCallable : Instr → Bool
  | .writeData8 _ _ | .writeNibble _ _ | .enablePulse _ | .sendCommand _ _ | .sendData _ _
  | .pushDisplayControl _ => false
  | .clearDisplay _ | .returnHome _ | .entryModeSet _ _ _ | .displayControl _ _ _ _
  | .cursorShift _ _ _ | .functionSet _ _ _ _ | .setCgramAddr _ _ | .setDdramAddr _ _ | .data _ _
  | .hsProbe _ | .hsCommit4 _ | .linkConstruct _ _ | .fourBitMode _ | .send _ _ _ _ | .release _
  | .construct _ | .beginOp _ _ _ _ _ | .setVisible _ _ | .setShowCursor _ _ | .setBlinkCursor _ _
  | .setBacklight _ _ | .getProperty _ _ | .clear _ | .home _ | .setCursorPosition _ _ _
  | .writeBytes _ _ | .writeText _ _ | .createChar _ _ _ _ | .scrollDisplayLeft _
  | .scrollDisplayRight _ | .moveCursor _ _ => true

/-- What a call is made on. -/
inductive Target where
  | nothing
  | link
  | controller
  deriving DecidableEq, Repr

/-- What a call of an operation is made on (R101). -/
def targetOf : Instr → Target
  | .linkConstruct _ _ => .nothing
  | .clearDisplay _ | .returnHome _ | .entryModeSet _ _ _ | .displayControl _ _ _ _
  | .cursorShift _ _ _ | .functionSet _ _ _ _ | .setCgramAddr _ _ | .setDdramAddr _ _ | .data _ _
  | .hsProbe _ | .hsCommit4 _ | .fourBitMode _ | .send _ _ _ _ | .release _ | .writeData8 _ _
  | .writeNibble _ _ | .enablePulse _ | .construct _ => .link
  | .sendCommand _ _ | .sendData _ _ | .pushDisplayControl _ | .beginOp _ _ _ _ _ | .setVisible _ _
  | .setShowCursor _ _ | .setBlinkCursor _ _ | .setBacklight _ _ | .getProperty _ _ | .clear _
  | .home _ | .setCursorPosition _ _ _ | .writeBytes _ _ | .writeText _ _ | .createChar _ _ _ _
  | .scrollDisplayLeft _ | .scrollDisplayRight _ | .moveCursor _ _ => .controller

/-- The state an answer leaves, or the one given where it leaves none. -/
def Answer.stateOr (s : State) : Answer → State
  | .next t => t
  | .fault _ => s
  | .refused _ => s

/-- The assignment of all 11 lines. -/
def allAssigned : Lines Bool := Lines.of fun _ => true

/-- Boot step 2 of R212, where no link exists: `LinkConstruct`. -/
def State.bootLink (s : State) : State :=
  if s.links.isEmpty then (execLinkConstruct .eightBit allAssigned s).stateOr s else s

/-- Boot step 3 of R212, where no controller exists: `Construct` on the first link. -/
def State.bootCtl (s : State) : State :=
  if s.ctls.isEmpty then (execConstruct 0 s).stateOr s else s

/-- The state after the steps of the boot order that a call of an operation needs and that the host has not
taken yet (R212; log 2). -/
def State.bootFor (i : Instr) (s : State) : State :=
  match targetOf i with
  | .nothing => s
  | .link => s.bootLink
  | .controller => s.bootLink.bootCtl

/-- The operation the decoder reads from a table word, its operands zero, as the host's next call, in a state
where what it is called on exists; a word of no operation is no call (log 2, log 3). -/
def State.placeWord (s : State) (nbits w : Nat) : State :=
  match decodeTableWord nbits w with
  | some i => (s.bootFor i).present i
  | none => s

/-- A call of the host: refused for a micro-operation, before anything else (R35, R103). -/
def runCall (run : Instr → State → Answer) (i : Instr) (s : State) : Answer :=
  if hostCallable i then run i s else .refused .notHostCallable

end Sys2Proof.Machine
end

