-- ==== Sys2Proof/Machine/Characters.lean ====
section
/-! DEFINITION. WriteBytes, WriteText and CreateChar (44_controller_write_createchar.md R170, R171,
R173). -/

namespace Sys2Proof.Machine

/-- `WriteBytes(buffer)` (R170): no address command, no bounds check, no delay. -/
def execWriteBytes (c : Nat) (buffer : List Byte) (s : State) : Answer :=
  s.runReady c (Desk.sendAll buffer)

/-- `WriteText(text)` (R171): `WriteBytes(ctl.encode(text))`. -/
def execWriteText (c : Nat) (text : Text) (s : State) : Answer :=
  s.runReady c fun d => d.sendAll (encodeText d.ctl.encode text)

/-- `CreateChar(slot, bitmap, offset)` (R173): refused on a short bitmap before any send (R195, D21); the
chip is left addressing CGRAM (R223). -/
def execCreateChar (c slot : Nat) (bitmap : List Byte) (offset : Nat) (s : State) : Answer :=
  s.onReady c fun d =>
    if bitmapLegal bitmap offset then
      s.endDesk .ok ((d.sendCommand (cgramByte slot)).andThen (Desk.sendAll (glyphBytes bitmap offset)))
    else .refused .bitmapTooShort

end Sys2Proof.Machine
end

