-- ==== Sys2Proof/Machine/Cursor.lean ====
section
/-! DEFINITION. Clear, Home and SetCursorPosition (43_controller_clear_home_cursor.md R160 to R162). -/

namespace Sys2Proof.Machine

/-- `Clear()` (R160): the wait is not made when the send fails. -/
def execClear (c : Nat) (s : State) : Answer := s.runReady c Desk.clear

/-- `Home()` (R161, D33). -/
def execHome (c : Nat) (s : State) : Answer :=
  s.runReady c fun d => (d.sendCommand cmd.returnHome).andThen (Desk.wait .home)

/-- `SetCursorPosition(column, row)` (R162): nothing is cached (R44). -/
def execSetCursorPosition (c column row : Nat) (s : State) : Answer :=
  s.runReady c fun d => d.sendCommand (ddramByte d.ctl.numRows column row)

end Sys2Proof.Machine
end

