-- ==== Sys2Proof/Machine/Micro.lean ====
section
/-! DEFINITION. The micro-operations run alone (40_link_driver.md R113 to R115, 41_controller_begin.md
R131, 42_controller_properties.md R150; log 15). The host cannot call them (30_encoding.md R103). -/

namespace Sys2Proof.Machine

/-- `WriteData8(value)` (R113). -/
def execWriteData8 (l : Nat) (value : Byte) (s : State) : Answer :=
  s.runMicro l dataLines (Bus.writeData8 value)

/-- `WriteNibble(n)` (R114). -/
def execWriteNibble (l : Nat) (nibble : Nibble) (s : State) : Answer :=
  s.runMicro l nibbleLines (Bus.writeNibble nibble)

/-- `EnablePulse()` (R115). -/
def execEnablePulse (l : Nat) (s : State) : Answer := s.runMicro l [.e] Bus.enablePulse

/-- `SendCommand(v)` (R131): it does not check `ctl.phase`. -/
def execSendCommand (c : Nat) (value : Byte) (s : State) : Answer :=
  s.onCtl c fun d => s.endDesk .ok (d.sendCommand value)

/-- `SendData(v)` (R131): it does not check `ctl.phase`. -/
def execSendData (c : Nat) (value : Byte) (s : State) : Answer :=
  s.onCtl c fun d => s.endDesk .ok (d.sendData value)

/-- `PushDisplayControl()` (R150). Begin step 5 runs it before the phase is `Ready`, so it does not check
`ctl.phase`. -/
def execPushDisplayControl (c : Nat) (s : State) : Answer :=
  s.onCtl c fun d => s.endDesk .ok d.pushDisplayControl

end Sys2Proof.Machine
end

