-- ==== Sys2Proof/Machine/Properties.lean ====
section
/-! DEFINITION. The property setters and the property read (42_controller_properties.md R151 to R155). -/

namespace Sys2Proof.Machine

/-- `SetVisible(b)` (R151). -/
def execSetVisible (c : Nat) (b : Bool) (s : State) : Answer :=
  s.runReady c (Desk.setFlag Ctl.visible (fun k b => { k with visible := b }) b)

/-- `SetShowCursor(b)` (R152). -/
def execSetShowCursor (c : Nat) (b : Bool) (s : State) : Answer :=
  s.runReady c (Desk.setFlag Ctl.showCursor (fun k b => { k with showCursor := b }) b)

/-- `SetBlinkCursor(b)` (R153). -/
def execSetBlinkCursor (c : Nat) (b : Bool) (s : State) : Answer :=
  s.runReady c (Desk.setFlag Ctl.blinkCursor (fun k b => { k with blinkCursor := b }) b)

/-- `SetBacklight(b)` (R154): the transfer carries the new backlight. -/
def execSetBacklight (c : Nat) (b : Bool) (s : State) : Answer :=
  s.runReady c (Desk.setFlag Ctl.backlight (fun k b => { k with backlight := b }) b)

/-- The cached value of a property (R155). -/
def Ctl.property (k : Ctl) : Property → Bool
  | .visible => k.visible
  | .showCursor => k.showCursor
  | .blinkCursor => k.blinkCursor
  | .backlight => k.backlight

/-- `GetProperty(p)` (R155): the cache, not the chip (D24). -/
def execGetProperty (c : Nat) (p : Property) (s : State) : Answer :=
  s.onReady c fun d => .next (s.answer (.okBool (d.ctl.property p)))

end Sys2Proof.Machine
end

