-- ==== Sys2Proof/Machine/Shift.lean ====
section
/-! DEFINITION. The shift operations (45_controller_shift.md R180 to R182). They update no cached
position (R222). -/

namespace Sys2Proof.Machine

/-- `ScrollDisplayLeft()` (R180). -/
def execScrollDisplayLeft (c : Nat) (s : State) : Answer :=
  s.runReady c (Desk.sendCommand (cursorShiftByte true false))

/-- `ScrollDisplayRight()` (R181). -/
def execScrollDisplayRight (c : Nat) (s : State) : Answer :=
  s.runReady c (Desk.sendCommand (cursorShiftByte true true))

/-- `MoveCursor(right)` (R182). -/
def execMoveCursor (c : Nat) (right : Bool) (s : State) : Answer :=
  s.runReady c (Desk.sendCommand (cursorShiftByte false right))

end Sys2Proof.Machine
end

