-- ==== Sys2Proof/Machine/Transfers.lean ====
section
/-! DEFINITION. The bus encodings as operations: one transfer of the word on a link, by `link.send`
(30_encoding.md R80, R84 to R93, R99; log 14). The backlight flag has no place in the word and no line on
the link (R80). -/

namespace Sys2Proof.Machine

/-- CLEARDISPLAY (R84). The transfer alone: the settle delay is `Clear`'s (R214). -/
def execClearDisplay (l : Nat) (s : State) : Answer := s.runSend l cmd.clearDisplay false false

/-- RETURNHOME (R85). -/
def execReturnHome (l : Nat) (s : State) : Answer := s.runSend l cmd.returnHome false false

/-- ENTRYMODESET (R86). -/
def execEntryModeSet (l : Nat) (left shift : Bool) (s : State) : Answer :=
  s.runSend l (entryModeByte left shift) false false

/-- DISPLAYCONTROL (R87). -/
def execDisplayControl (l : Nat) (display cursor blink : Bool) (s : State) : Answer :=
  s.runSend l (displayControlByte display cursor blink) false false

/-- CURSORSHIFT (R88). -/
def execCursorShift (l : Nat) (moveDisplay right : Bool) (s : State) : Answer :=
  s.runSend l (cursorShiftByte moveDisplay right) false false

/-- FUNCTIONSET (R89). -/
def execFunctionSet (l : Nat) (wide twoLine tall : Bool) (s : State) : Answer :=
  s.runSend l (functionSetByte (functionSetFlags wide twoLine tall)) false false

/-- SETCGRAMADDR (R90). -/
def execSetCgramAddr (l : Nat) (slot : BitVec 3) (s : State) : Answer :=
  s.runSend l (cgramByte slot.toNat) false false

/-- SETDDRAMADDR (R91). -/
def execSetDdramAddr (l : Nat) (addr : BitVec 7) (s : State) : Answer :=
  s.runSend l (cmd.setDdramAddr ||| addr.setWidth 8) false false

/-- DATA (R92): any byte, unchanged. -/
def execData (l : Nat) (value : Byte) (s : State) : Answer := s.runSend l value true false

/-- HS_PROBE (R93): an ordinary `send`, two bus cycles in `FourBit` mode (C5). -/
def execHsProbe (l : Nat) (s : State) : Answer := s.runSend l cmd.hsProbe false false

/-- HS_COMMIT4 (R93): an ordinary `send`, two bus cycles in `FourBit` mode (C5). -/
def execHsCommit4 (l : Nat) (s : State) : Answer := s.runSend l cmd.hsCommit4 false false

end Sys2Proof.Machine
end

