-- ==== Sys2Proof/Machine/Dispatch.lean ====
section
/-! DEFINITION. The one dispatch of the operations to their meanings. -/

namespace Sys2Proof.Machine

def exec (i : Instr) (s : State) : Host.Outcome State Fault Refusal :=
  match i with
  | .clearDisplay link => Sys2Proof.Machine.execClearDisplay link s
  | .returnHome link => Sys2Proof.Machine.execReturnHome link s
  | .entryModeSet link left shift => Sys2Proof.Machine.execEntryModeSet link left shift s
  | .displayControl link display cursor blink => Sys2Proof.Machine.execDisplayControl link display cursor blink s
  | .cursorShift link moveDisplay right => Sys2Proof.Machine.execCursorShift link moveDisplay right s
  | .functionSet link wide twoLine tall => Sys2Proof.Machine.execFunctionSet link wide twoLine tall s
  | .setCgramAddr link slot => Sys2Proof.Machine.execSetCgramAddr link slot s
  | .setDdramAddr link addr => Sys2Proof.Machine.execSetDdramAddr link addr s
  | .data link value => Sys2Proof.Machine.execData link value s
  | .hsProbe link => Sys2Proof.Machine.execHsProbe link s
  | .hsCommit4 link => Sys2Proof.Machine.execHsCommit4 link s
  | .linkConstruct mode pins => Sys2Proof.Machine.execLinkConstruct mode pins s
  | .fourBitMode link => Sys2Proof.Machine.execFourBitMode link s
  | .send link value isData backlight => Sys2Proof.Machine.execSend link value isData backlight s
  | .release link => Sys2Proof.Machine.execRelease link s
  | .writeData8 link value => Sys2Proof.Machine.execWriteData8 link value s
  | .writeNibble link nibble => Sys2Proof.Machine.execWriteNibble link nibble s
  | .enablePulse link => Sys2Proof.Machine.execEnablePulse link s
  | .sendCommand ctl value => Sys2Proof.Machine.execSendCommand ctl value s
  | .sendData ctl value => Sys2Proof.Machine.execSendData ctl value s
  | .pushDisplayControl ctl => Sys2Proof.Machine.execPushDisplayControl ctl s
  | .construct link => Sys2Proof.Machine.execConstruct link s
  | .beginOp ctl columns rows leftToRight largeFont => Sys2Proof.Machine.execBegin ctl columns rows leftToRight largeFont s
  | .setVisible ctl b => Sys2Proof.Machine.execSetVisible ctl b s
  | .setShowCursor ctl b => Sys2Proof.Machine.execSetShowCursor ctl b s
  | .setBlinkCursor ctl b => Sys2Proof.Machine.execSetBlinkCursor ctl b s
  | .setBacklight ctl b => Sys2Proof.Machine.execSetBacklight ctl b s
  | .getProperty ctl p => Sys2Proof.Machine.execGetProperty ctl p s
  | .clear ctl => Sys2Proof.Machine.execClear ctl s
  | .home ctl => Sys2Proof.Machine.execHome ctl s
  | .setCursorPosition ctl column row => Sys2Proof.Machine.execSetCursorPosition ctl column row s
  | .writeBytes ctl buffer => Sys2Proof.Machine.execWriteBytes ctl buffer s
  | .writeText ctl text => Sys2Proof.Machine.execWriteText ctl text s
  | .createChar ctl slot bitmap offset => Sys2Proof.Machine.execCreateChar ctl slot bitmap offset s
  | .scrollDisplayLeft ctl => Sys2Proof.Machine.execScrollDisplayLeft ctl s
  | .scrollDisplayRight ctl => Sys2Proof.Machine.execScrollDisplayRight ctl s
  | .moveCursor ctl right => Sys2Proof.Machine.execMoveCursor ctl right s

end Sys2Proof.Machine
end

