-- ==== Sys2Proof/Machine/Step.lean ====
section
/-! DEFINITION. One step: the next call of the host is run to completion (10_state.md R48, D29), where it is
one the host can make (30_encoding.md R103). With no call waiting the block does nothing
(60_exceptions.md R194, R205; log 2). A call is an operation and not a number, as R103 asks. -/

namespace Sys2Proof.Machine

/-- One step. -/
def step (s : State) : Host.Outcome State Fault Refusal :=
  match s.nextCall with
  | none => .next s
  | some (i, s') => runCall exec i s'

/-- The state in which the next step runs a table word, its operands zero: the operation it decodes to as the
host's next call, and the link and the controller it is called on, made by the boot order where there are
none (R212; log 2, log 3). -/
def State.withFetchWord (s : State) (nbits w : Nat) : State := s.placeWord nbits w

end Sys2Proof.Machine
end

