-- ==== Sys2Proof/Machine/Timing.lean ====
section
/-! DEFINITION. The durations of 00_scope.md R13 and 70_reset_and_hazards.md R228, in nanoseconds: each
is its bound and a free slack (log 18). -/

namespace Sys2Proof.Machine

open Sys2Proof.Config

/-- `T_UNIT` of R13: some positive duration (D1). -/
def timeUnit : Rat := ((unitNum : Rat) + 1) / ((unitDen : Rat) + 1)

/-- How far a duration lies above its bound: "rounded up, never down" (R13). -/
def slack (d : Delay) : Rat := (slackNum d : Rat) / ((slackDen d : Rat) + 1)

/-- The value of each `T_*` of R13: its bound of R228, plus the slack. `T_PW` is strictly above
450 ns (D3, C4). -/
def duration : Delay → Rat
  | .warmup => 50 * timeUnit + slack .warmup
  | .hsLong => 41 / 10 * timeUnit + slack .hsLong
  | .hs4Short => slack .hs4Short
  | .hs8Short => slack .hs8Short
  | .clear => 2 * timeUnit + slack .clear
  | .home => 2 * timeUnit + slack .home
  | .pulse => 450 + ((slackNum .pulse : Rat) + 1) / ((slackDen .pulse : Rat) + 1)

end Sys2Proof.Machine
end

