-- ==== Sys2Proof/Machine/Observer.lean ====
section
/-! DEFINITION. What can be read from a trace: the two observation levels (00_scope.md R19), the bus
observer (40_link_driver.md R117, R118), and minimum durations (70_reset_and_hazards.md R229). Nothing in
the machine reads them. -/

namespace Sys2Proof.Machine

open Sys2Proof.Config

/-- The controller-level trace of R19: the `Xfer` and `Wait` events the controller emits. The
enable-high hold is the link's own wait (R115). -/
def controllerTrace (tr : List Event) : List Event :=
  tr.filter fun
    | .xfer _ _ _ _ => true
    | .wait d => d != .pulse
    | .pin _ _ _ => false
    | .release _ _ => false

/-- The pin-level trace of R19: the `Pin`, `Wait` and `Release` events. -/
def pinTrace (tr : List Event) : List Event :=
  tr.filter fun
    | .xfer _ _ _ _ => false
    | .wait _ => true
    | .pin _ _ _ => true
    | .release _ _ => true

/-- The transfers recorded at the capability interface, as register-select flag and byte. -/
def xfersOf (tr : List Event) : List (Bool × Byte) :=
  tr.filterMap fun
    | .xfer _ v isData _ => some (isData, v)
    | .wait _ => none
    | .pin _ _ _ => none
    | .release _ _ => none

/-- A bus cycle of R117: the level of each assigned line but `E`; `none` for a line that is absent. -/
abbrev Cycle := Lines (Option PinState)

/-- The cycle that a set of levels is, with unassigned lines and `E` absent (R117). -/
def sample (assigned : Lines Bool) (levels : Lines PinState) : Cycle :=
  (Lines.of fun l => if assigned.get l then some (levels.get l) else none).set .e none

/-- The scan of R117 from given levels: a cycle at each `Pin(E, L)` while `E` is at `H` (D27). Only the
events of link `link` count. -/
def cyclesFrom (link : Nat) (assigned : Lines Bool) (levels : Lines PinState) : List Event → List Cycle
  | [] => []
  | .pin k l v :: tr =>
    if k = link then
      let after := levels.set l (pinOf v)
      if l = .e ∧ v = .L ∧ levels.e = .H then
        sample assigned levels :: cyclesFrom link assigned after tr
      else cyclesFrom link assigned after tr
    else cyclesFrom link assigned levels tr
  | .wait _ :: tr => cyclesFrom link assigned levels tr
  | .release _ _ :: tr => cyclesFrom link assigned levels tr
  | .xfer _ _ _ _ :: tr => cyclesFrom link assigned levels tr

/-- `Cycles(trace)` of R117: the scan starts with every line at `U`. -/
def cycles (link : Nat) (assigned : Lines Bool) (tr : List Event) : List Cycle :=
  cyclesFrom link assigned (Lines.of fun _ => .U) tr

/-- `(D_i == H)` in a cycle (R118): neither an absent line nor `U` equals `H`. -/
def Cycle.high (c : Cycle) (l : Line) : Bool := c.get l == some .H

/-- The byte of an `EightBit` cycle (R118). -/
def Cycle.byte (c : Cycle) : Byte :=
  BitVec.ofBool (c.high .d7) ++ BitVec.ofBool (c.high .d6) ++ BitVec.ofBool (c.high .d5) ++
    BitVec.ofBool (c.high .d4) ++ BitVec.ofBool (c.high .d3) ++ BitVec.ofBool (c.high .d2) ++
    BitVec.ofBool (c.high .d1) ++ BitVec.ofBool (c.high .d0)

/-- The nibble on `D4` to `D7` of a `FourBit` cycle (R118). -/
def Cycle.nibble (c : Cycle) : Nibble :=
  BitVec.ofBool (c.high .d7) ++ BitVec.ofBool (c.high .d6) ++ BitVec.ofBool (c.high .d5) ++
    BitVec.ofBool (c.high .d4)

/-- Consecutive pairs of `FourBit` cycles, the high nibble first; a trailing unpaired cycle gives
nothing (R118). -/
def pairNibbles : List Cycle → List (Bool × Byte)
  | c1 :: c2 :: cs => (c1.high .rs, c1.nibble ++ c2.nibble) :: pairNibbles cs
  | [_] => []
  | [] => []

/-- `Transfers(mode, cycles)` of R118. -/
def transfers (mode : Mode) (cs : List Cycle) : List (Bool × Byte) :=
  match mode with
  | .eightBit => cs.map fun c => (c.high .rs, c.byte)
  | .fourBit => pairNibbles cs

/-- The lower bound on the time one event takes (R228): only a `Wait` has one. -/
def Event.minDuration : Event → Rat
  | .wait d => duration d
  | .pin _ _ _ => 0
  | .release _ _ => 0
  | .xfer _ _ _ _ => 0

/-- The minimum duration of a trace in nanoseconds: the sum of its waits (R229). -/
def minDuration (tr : List Event) : Rat := (tr.map Event.minDuration).sum

end Sys2Proof.Machine
end

