-- ==== Sys2Proof/Safety.lean ====
section
/-! DEFINITION. The terms claims use: the invariant of the machine, what a completed operation leaves
behind and what it leaves alone, and which link and controller an operation works on. -/

namespace Sys2Proof.Machine

open Sys2Proof.Config

/-! ## The invariant -/

/-- The states a pin can be in: absent exactly where the line is not assigned (R32, R51), `Z` exactly after
`Release` (R34, R116). -/
def pinExists (k : Link) (l : Line) : Prop :=
  match k.pin.get l with
  | none => k.assigned.get l = false
  | some .Z => k.assigned.get l = true ∧ k.released = true
  | some _ => k.assigned.get l = true ∧ k.released = false

/-- A link as `LinkConstruct` makes one and every operation keeps it: a legal assignment (R12), pins that
exist where assigned, `E` never left high (R115), `RW` never at another level than write (R112), and `D0`
to `D3` never written in `FourBit` mode (R66). -/
structure Link.WF (k : Link) : Prop where
  legal : legalPins k.mode k.assigned = true
  pins : ∀ l, pinExists k l
  enableLow : k.pin.get .e ≠ some .H
  rwWrites : ∀ v, k.pin.get .rw = some (pinOf v) → v = rwWriteLevel
  lowLinesUnwritten : k.mode = .fourBit → ∀ l ∈ [Line.d0, .d1, .d2, .d3],
    k.pin.get l ≠ some .L ∧ k.pin.get l ≠ some .H

/-- A controller as `Construct` makes one and every operation keeps it, beside its link: legal geometry
(R42, R132), display function flags composed by R94, and the hardwired `shiftOnWrite` (R47; log 11). -/
structure Ctl.WF (c : Ctl) (k : Link) : Prop where
  rows : 1 ≤ c.numRows ∧ c.numRows ≤ 4
  flags : ∃ largeFont, c.displayFunction = displayFunctionFlags k.fourBitMode c.numRows largeFont
  shift : c.shiftOnWrite = false

/-- The invariant of the machine: every link is well formed, and every controller refers to a link of the
state (R37) and is well formed beside it. -/
structure State.Inv (s : State) : Prop where
  links : ∀ k ∈ s.links, k.WF
  ctls : ∀ c ∈ s.ctls, ∃ k, s.links[c.link]? = some k ∧ c.WF k

/-! ## What an operation can use -/

/-- Link number `l` exists, is not released, and has a legal assignment. -/
def State.LinkUp (s : State) (l : Nat) (k : Link) : Prop :=
  s.links[l]? = some k ∧ k.released = false ∧ legalPins k.mode k.assigned = true

/-- Controller number `c` exists and its link can send. -/
def State.CtlUp (s : State) (c : Nat) (k : Ctl) (lk : Link) : Prop :=
  s.ctls[c]? = some k ∧ s.LinkUp k.link lk

/-- Controller number `c` exists and its link has been released (R33). -/
def State.CtlDown (s : State) (c : Nat) (k : Ctl) (lk : Link) : Prop :=
  s.ctls[c]? = some k ∧ s.links[k.link]? = some lk ∧ lk.released = true

/-! ## What a completed operation leaves behind -/

/-- The number of enable pulses of one transfer (R119, R229). -/
def pulses : Mode → Nat
  | .eightBit => 1
  | .fourBit => 2

/-- The pins of a link after one `Send`: `RS` the register-select flag, `RW`, if assigned, the write level,
`E` low, and on the data lines the byte, or the low nibble in `FourBit` mode; `D0` to `D3` untouched there
(R81, R82, R112). -/
def pinsAfter (k : Link) (isData : Bool) (v : Byte) : Lines (Option PinState) :=
  Lines.of fun l =>
    match l with
    | .rs => some (pinOf (lvl isData))
    | .rw => if k.assigned.rw then some (pinOf rwWriteLevel) else k.pin.get .rw
    | .e => some .L
    | .d0 | .d1 | .d2 | .d3 =>
      match k.mode with
      | .eightBit => some (pinOf (byteLevel v l))
      | .fourBit => k.pin.get l
    | .d4 | .d5 | .d6 | .d7 =>
      match k.mode with
      | .eightBit => some (pinOf (byteLevel v l))
      | .fourBit => some (pinOf (nibbleLevel (lowNibble v) l))

/-- The pins of a link after a list of transfers: those after the last, or as before when there is
none. -/
def pinsAfterAll (k : Link) (xs : List (Bool × Byte)) : Lines (Option PinState) :=
  match xs.getLast? with
  | none => k.pin
  | some (isData, v) => pinsAfter k isData v

/-- The events of one enable pulse on link `l`: low, high, held, low (R115). -/
def pulseOn (l : Nat) : List Event := [.pin l .e .L, .pin l .e .H, .wait .pulse, .pin l .e .L]

/-- `tr` is the events of one `Send` of a byte on link `l`, complete and in order (R112): register-select, `RW`
at the write level if assigned, then the byte's bits and a pulse, or in `FourBit` mode the high nibble, a
pulse, the low nibble and a pulse; the lines of a group in some order (R113, R114). -/
def IsSend (l : Nat) (k : Link) (isData : Bool) (v : Byte) (tr : List Event) : Prop :=
  ∃ controls : List Event,
    controls = .pin l .rs (lvl isData) :: (if k.assigned.rw then [.pin l .rw rwWriteLevel] else []) ∧
    match k.mode with
    | .eightBit => ∃ order : List Line, order.Perm dataLines ∧
        tr = controls ++ (order.map fun m => .pin l m (lvl (v.getLsbD (busBit m)))) ++ pulseOn l
    | .fourBit => ∃ first second : List Line, first.Perm nibbleLines ∧ second.Perm nibbleLines ∧
        tr = controls ++ (first.map fun m => .pin l m (lvl (v.getLsbD (busBit m)))) ++ pulseOn l ++
          (second.map fun m => .pin l m (lvl (v.getLsbD (busBit m - 4)))) ++ pulseOn l

/-- `tr` is the events of one `Send` for each transfer of a list, one after another. -/
def AreSends (l : Nat) (k : Link) : List (Bool × Byte) → List Event → Prop
  | [], tr => tr = []
  | (isData, v) :: xs, tr => ∃ sent rest, tr = sent ++ rest ∧ IsSend l k isData v sent ∧ AreSends l k xs rest

/-- `tr` is the controller's own events with the events of one `Send` of the same byte on link `l` standing
directly after each transfer, and nothing else (R131, R74): so every wait of the controller stands after
the whole `Send` before it and before the next transfer. -/
def WithSends (l : Nat) (k : Link) : List Event → List Event → Prop
  | [], tr => tr = []
  | .xfer c v isData bl :: es, tr => ∃ sent rest, tr = .xfer c v isData bl :: (sent ++ rest) ∧
      IsSend l k isData v sent ∧ WithSends l k es rest
  | .wait d :: es, tr => ∃ rest, tr = .wait d :: rest ∧ WithSends l k es rest
  | .pin l' m x :: es, tr => ∃ rest, tr = .pin l' m x :: rest ∧ WithSends l k es rest
  | .release l' m :: es, tr => ∃ rest, tr = .release l' m :: rest ∧ WithSends l k es rest

/-- What a link operation that sends `xs` on link `l` leaves: the events are new at the end of the trace and
are one whole `Send` for each transfer of `xs`, the bus observer reads exactly `xs` from them, the link's
pins are those after the last transfer, and nothing else of the state changes but the used-up line
orders. -/
structure LinkSent (s t : State) (l : Nat) (k : Link) (xs : List (Bool × Byte)) : Prop where
  links : t.links = s.links.set l { k with pin := pinsAfterAll k xs }
  trace : ∃ tr, t.trace = s.trace ++ tr ∧ controllerTrace tr = [] ∧
    transfers k.mode (cycles l k.assigned tr) = xs ∧ AreSends l k xs tr
  orders : t.lineOrders = s.lineOrders.drop (xs.length * pulses k.mode)
  ctls : t.ctls = s.ctls
  params : t.params = s.params
  pending : t.pending = s.pending

/-- What a controller operation with controller-level trace `evs` leaves when it ends `ok`: controller
number `c` is `k'`, the new events are `evs` with one whole `Send` directly after each transfer, the
transfers of `evs` are exactly what the bus observer reads on its link `lk`, the link's pins are those after
the last transfer, and nothing else of the state changes but the used-up line orders. -/
structure CtlSent (s t : State) (c : Nat) (k' : Ctl) (lk : Link) (evs : List Event) : Prop where
  ctls : t.ctls = s.ctls.set c k'
  links : t.links = s.links.set k'.link { lk with pin := pinsAfterAll lk (xfersOf evs) }
  trace : ∃ tr, t.trace = s.trace ++ tr ∧ controllerTrace tr = evs ∧
    transfers lk.mode (cycles k'.link lk.assigned tr) = xfersOf evs ∧ WithSends k'.link lk evs tr
  orders : t.lineOrders = s.lineOrders.drop ((xfersOf evs).length * pulses lk.mode)
  params : t.params = s.params
  pending : t.pending = s.pending

/-- What a controller operation cut short by a DisposedError leaves (R196, D23): controller number `c` is
`k'`, the events `evs` stand in the trace, no line is written, nothing else changes, and the host receives
the error. -/
def disposed (s : State) (c : Nat) (k' : Ctl) (evs : List Event) : State :=
  ({ s with ctls := s.ctls.set c k', trace := s.trace ++ evs } : State).raiseError .disposedError

/-! ## The traces of Begin (R132) -/

/-- The controller fields Begin leaves when it ends `ok` (R132 to R140). -/
def ctlAfterBegin (k : Ctl) (fourBit : Bool) (columns rows : Nat) (leftToRight largeFont : Bool) : Ctl :=
  { k with
    phase := .ready
    displayFunction := displayFunctionFlags fourBit rows largeFont
    visible := true
    showCursor := false
    blinkCursor := false
    backlight := true
    leftToRight := leftToRight
    shiftOnWrite := false
    numCols := columns
    numRows := rows }

/-- The controller-level trace of Begin in `FourBit` mode (R132): 8 transfers and 5 waits. `bl` is the
backlight on entry, `fs` the function-set byte, `em` the entry-mode byte. -/
def beginTrace4 (c : Nat) (bl : Bool) (fs em : Byte) : List Event :=
  [.wait .warmup, .xfer c 0x03#8 false bl, .wait .hsLong, .xfer c 0x03#8 false bl, .wait .hsLong,
    .xfer c 0x03#8 false bl, .wait .hs4Short, .xfer c 0x02#8 false bl, .xfer c fs false bl,
    .xfer c 0x0C#8 false true, .xfer c 0x01#8 false true, .wait .clear, .xfer c em false true]

/-- The controller-level trace of Begin in `EightBit` mode (R132): 7 transfers and 4 waits. -/
def beginTrace8 (c : Nat) (bl : Bool) (fs em : Byte) : List Event :=
  [.wait .warmup, .xfer c fs false bl, .wait .hsLong, .xfer c fs false bl, .wait .hs8Short,
    .xfer c fs false bl, .xfer c fs false bl, .xfer c 0x0C#8 false true, .xfer c 0x01#8 false true,
    .wait .clear, .xfer c em false true]

/-! ## Which link and controller an operation works on -/

/-- The controller an operation works on: its operand, or the one `Construct` makes. -/
def ctlOf (s : State) : Instr → Option Nat
  | .clearDisplay _ | .returnHome _ | .entryModeSet _ _ _ | .displayControl _ _ _ _
  | .cursorShift _ _ _ | .functionSet _ _ _ _ | .setCgramAddr _ _ | .setDdramAddr _ _ | .data _ _
  | .hsProbe _ | .hsCommit4 _ | .linkConstruct _ _ | .fourBitMode _ | .send _ _ _ _ | .release _
  | .writeData8 _ _ | .writeNibble _ _ | .enablePulse _ => none
  | .construct _ => some s.ctls.length
  | .sendCommand c _ | .sendData c _ | .pushDisplayControl c | .beginOp c _ _ _ _ | .setVisible c _
  | .setShowCursor c _ | .setBlinkCursor c _ | .setBacklight c _ | .getProperty c _ | .clear c
  | .home c | .setCursorPosition c _ _ | .writeBytes c _ | .writeText c _ | .createChar c _ _ _
  | .scrollDisplayLeft c | .scrollDisplayRight c | .moveCursor c _ => some c

/-- The link an operation works on: its operand, the one `LinkConstruct` makes, or its controller's
link (R37). -/
def linkOf (s : State) : Instr → Option Nat
  | .clearDisplay l | .returnHome l | .entryModeSet l _ _ | .displayControl l _ _ _
  | .cursorShift l _ _ | .functionSet l _ _ _ | .setCgramAddr l _ | .setDdramAddr l _ | .data l _
  | .hsProbe l | .hsCommit4 l | .fourBitMode l | .send l _ _ _ | .release l | .writeData8 l _
  | .writeNibble l _ | .enablePulse l | .construct l => some l
  | .linkConstruct _ _ => some s.links.length
  | .sendCommand c _ | .sendData c _ | .pushDisplayControl c | .beginOp c _ _ _ _ | .setVisible c _
  | .setShowCursor c _ | .setBlinkCursor c _ | .setBacklight c _ | .getProperty c _ | .clear c
  | .home c | .setCursorPosition c _ _ | .writeBytes c _ | .writeText c _ | .createChar c _ _ _
  | .scrollDisplayLeft c | .scrollDisplayRight c | .moveCursor c _ => s.ctls[c]?.map Ctl.link

/-- The setter of a property (R151 to R154). -/
def setter : Property → Nat → Bool → Instr
  | .visible, c, b => .setVisible c b
  | .showCursor, c, b => .setShowCursor c b
  | .blinkCursor, c, b => .setBlinkCursor c b
  | .backlight, c, b => .setBacklight c b

/-- A controller with one property set. -/
def Ctl.withProperty (k : Ctl) : Property → Bool → Ctl
  | .visible, b => { k with visible := b }
  | .showCursor, b => { k with showCursor := b }
  | .blinkCursor, b => { k with blinkCursor := b }
  | .backlight, b => { k with backlight := b }

/-- The byte a controller's cached flags compose (R95). -/
def Ctl.displayByte (k : Ctl) : Byte := displayControlByte k.visible k.showCursor k.blinkCursor

/-- A run of operations, stopping at the first stop; an operation that ends in an error does not stop the
host from calling the next (R198). -/
def execAll : List Instr → State → Answer
  | [], s => .next s
  | i :: is, s =>
    match exec i s with
    | .next t => execAll is t
    | .fault r => .fault r
    | .refused r => .refused r

/-- The host operations of a controller, those of format HOSTOP but `Construct` and `Begin`: the ones
with the precondition `ctl.phase = Ready` (R193). -/
def needsReady : Instr → Bool
  | .setVisible _ _ | .setShowCursor _ _ | .setBlinkCursor _ _ | .setBacklight _ _ | .getProperty _ _
  | .clear _ | .home _ | .setCursorPosition _ _ _ | .writeBytes _ _ | .writeText _ _
  | .createChar _ _ _ _ | .scrollDisplayLeft _ | .scrollDisplayRight _ | .moveCursor _ _ => true
  | .clearDisplay _ | .returnHome _ | .entryModeSet _ _ _ | .displayControl _ _ _ _
  | .cursorShift _ _ _ | .functionSet _ _ _ _ | .setCgramAddr _ _ | .setDdramAddr _ _ | .data _ _
  | .hsProbe _ | .hsCommit4 _ | .linkConstruct _ _ | .fourBitMode _ | .send _ _ _ _ | .release _
  | .writeData8 _ _ | .writeNibble _ _ | .enablePulse _ | .sendCommand _ _ | .sendData _ _
  | .pushDisplayControl _ | .construct _ | .beginOp _ _ _ _ _ => false

/-- The host operations of a controller (30_encoding.md R101, format HOSTOP). -/
def isHostOp : Instr → Bool
  | .construct _ | .beginOp _ _ _ _ _ => true
  | i => needsReady i

/-- The state with every pin level forgotten, all else as it is (R3, R34: no rule reads a pin). -/
def State.forgetPins (s : State) : State :=
  { s with links := s.links.map fun k => { k with pin := Lines.of fun _ => none } }

/-- An answer with its next state seen through a function. -/
def Answer.view {α : Type} (f : State → α) : Answer → Host.Outcome α Fault Refusal
  | .next s => .next (f s)
  | .fault r => .fault r
  | .refused r => .refused r

/-- A write to one of a group of lines. -/
def Event.writes (group : List Line) : Event → Bool
  | .pin _ m _ => group.contains m
  | .wait _ => false
  | .release _ _ => false
  | .xfer _ _ _ _ => false

/-- The events of a trace on the lines of one link: writes and releases (R18). -/
def lineEvents (l : Nat) (tr : List Event) : List Event :=
  tr.filter fun e =>
    match e with
    | .pin l' _ _ | .release l' _ => l' == l
    | .wait _ | .xfer _ _ _ _ => false

/-- How many calls of a sequence of setter calls change their flag (R156). -/
def changes : Ctl → List (Property × Bool) → Nat
  | _, [] => 0
  | k, (p, b) :: rest => (if k.property p = b then 0 else 1) + changes (k.withProperty p b) rest

end Sys2Proof.Machine
end

