-- ==== Sys2Proof/Certificates/Slice0/Obligations.lean ====
section
/-! DEFINITION. The statements for the provers. Each docstring names the rules of spec/ it formalises, or says
what of it is the model's own choice and names the log entry. -/

open Sys2Proof Sys2Proof.Machine Sys2Proof.Config

/-! ## Encodings -/

/-- Words written out bit by bit from spec/opcode_table.json decode to the operations they stand for, one or
more of each format. That a word no row covers decodes to a `Send` of its byte, its backlight false, is the
model's choice (log 14), and so is the record around the words (log 3). -/
def Obligations.WrittenWordsDecode : Prop :=
  decodeBus 0b000000001#9 5 = .clearDisplay 5 ∧
  decodeBus 0b000000110#9 0 = .entryModeSet 0 true false ∧
  decodeBus 0b000001101#9 0 = .displayControl 0 true false true ∧
  decodeBus 0b000011000#9 0 = .cursorShift 0 true false ∧
  decodeBus 0b000110100#9 0 = .functionSet 0 true false true ∧
  decodeBus 0b001011000#9 0 = .setCgramAddr 0 3#3 ∧
  decodeBus 0b011000101#9 0 = .setDdramAddr 0 0x45#7 ∧
  decodeBus 0b101001000#9 0 = .data 0 0x48#8 ∧
  decodeBus 0b000010001#9 0 = .send 0 0x11#8 false false ∧
  decode [1#8, 0b10#8, 0#8, 0x28#8, 1#8, 0#8] = .ok (.send 0 0x28#8 true false) ∧
  decode [2#8, 0b001#8, 0#8, 9#8] = .ok (.writeNibble 0 9#4) ∧
  decode [3#8, 0b1001#8, 0#8, 19#8, 3#8] = .ok (.setCursorPosition 0 19 3)

/-- Decoding the encoding of any operation, with every operand at every value and any zero padding, gives the
operation back; HS_COMMIT4 comes back as RETURNHOME, whose bits it has (R85, R93; log 4). -/
def Obligations.DecodeEncodeGivesTheOperationBack : Prop :=
  ∀ (i : Instr) (n : Nat), decode (encode i ++ List.replicate n 0#8) = .ok i.asDecoded

/-- A record decodes to an operation only as that operation's own encoding with zero padding, or, for a `Send`
of a command byte that no row of the command map covers, as the record of that word (log 3, log 14; R99). -/
def Obligations.DecodedRecordIsThePaddedEncoding : Prop :=
  ∀ (bs : List Byte) (i : Instr), decode bs = .ok i → ∃ n,
    bs = encode i ++ List.replicate n 0#8 ∨
    ∃ (w : BitVec 9) (l : Nat), (∀ r ∈ busRows, r.covers w = false) ∧
      i = .send l (w.extractLsb' 0 8) false false ∧ bs = putBus w l ++ List.replicate n 0#8

/-- No transfer word is covered by two rows of the command map but RETURNHOME and HS_COMMIT4, which have one
pattern (R83 to R93). -/
def Obligations.BusRowsAreDisjoint : Prop :=
  (∀ w : BitVec 9, (busRows.filter fun r => r.covers w).length ≤ 1) ∧ rowHsCommit4 = rowReturnHome

/-- Each of the eleven bus encodings (CLEARDISPLAY, RETURNHOME, ENTRYMODESET, DISPLAYCONTROL, CURSORSHIFT,
FUNCTIONSET, SETCGRAMADDR, SETDDRAMADDR, DATA, HS_PROBE, HS_COMMIT4) completes on a link that can send, and
puts exactly its own word on the link: bit 8 as the register-select flag, bits 7 to 0 as the byte; on a
released link it fails with a DisposedError and does nothing. And there is no illegal word (R99): what any
word at all decodes to does just that. That a bus encoding is run as a direct `link.send` of its word is
the model's reading (log 14), and the composed values rest on CMD (log 5). -/
def Obligations.BusWordIsTheTransferSent : Prop :=
  (∀ (i : Instr) (w : BitVec 9) (s : State) (l : Nat) (k : Link),
    busWord i = some w → linkOf s i = some l →
    (s.LinkUp l k → ∃ t, exec i s = .next t ∧ t.outcome = .ok ∧
      LinkSent s t l k [(w.getLsbD 8, w.extractLsb' 0 8)]) ∧
    (s.links[l]? = some k → k.released = true →
      exec i s = .next { s with outcome := .error .disposedError })) ∧
  ∀ (w : BitVec 9) (s : State) (l : Nat) (k : Link),
    (s.LinkUp l k → ∃ t, exec (decodeBus w l) s = .next t ∧ t.outcome = .ok ∧
      LinkSent s t l k [(w.getLsbD 8, w.extractLsb' 0 8)]) ∧
    (s.links[l]? = some k → k.released = true →
      exec (decodeBus w l) s = .next { s with outcome := .error .disposedError })

/-! ## Steps and reset -/

/-- A step runs the next call of the host: when that is an operation `i` the host can call, the step is
`exec i` on the state without that call; a call of a micro-operation, which the host cannot make, is
refused by name (R48, R103; the queue of calls and the name of the refusal are the model's own, log 2,
log 15). -/
def Obligations.StepRunsTheNextCall : Prop :=
  ∀ (s : State) (rest : List Instr) (i : Instr), s.pending = i :: rest →
    (hostCallable i = true → step s = exec i { s with pending := rest }) ∧
    (hostCallable i = false → step s = .refused .notHostCallable)

/-- A step with no call waiting changes nothing, and a step stops for no reason of its own: where it is refused
or faults, the next call is a micro-operation, which the host cannot make, or the operation itself stops so
(R194, R205, R103; the queue is the model's own, log 2, and so is the refusal's name, log 15). -/
def Obligations.StepWithoutAnOperation : Prop :=
  ∀ s : State, (s.pending = [] → step s = .next s) ∧
    (∀ r, step s = .refused r → ∃ i rest, s.pending = i :: rest ∧
      ((hostCallable i = false ∧ r = .notHostCallable) ∨
        (hostCallable i = true ∧ exec i { s with pending := rest } = .refused r))) ∧
    (∀ r, step s = .fault r → ∃ i rest, s.pending = i :: rest ∧ hostCallable i = true ∧
      exec i { s with pending := rest } = .fault r)

/-- A table word of an operation the host can call, placed by `withFetchWord`, is what the very next step runs,
on the state with what it is called on. Where a link and a controller exist that is the state itself. From
reset it is, for a word called on nothing, reset itself; for one called on a link, what `LinkConstruct`
leaves; for one called on a controller, what `LinkConstruct` and then `Construct` leave, the boot order of
R212; and from reset the word's operation answers a next state. The record, its zero operands and the
choice of what is booted are the model's own (log 2, log 3). -/
def Obligations.FetchedTableWordRunsNext : Prop :=
  ∀ (nbits w : Nat) (i : Instr), decodeTableWord nbits w = some i →
    (∀ s : State, hostCallable i = true → step (s.withFetchWord nbits w) = exec i (s.bootFor i)) ∧
    (∀ s : State, s.links ≠ [] → s.ctls ≠ [] → s.bootFor i = s) ∧
    (targetOf i = .nothing → State.reset.bootFor i = State.reset) ∧
    (targetOf i = .link →
      execAll [.linkConstruct .eightBit allAssigned] State.reset = .next (State.reset.bootFor i)) ∧
    (targetOf i = .controller →
      execAll [.linkConstruct .eightBit allAssigned, .construct 0] State.reset =
        .next (State.reset.bootFor i)) ∧
    (hostCallable i = true → ∃ t, step (State.reset.withFetchWord nbits w) = .next t)

/-- After reset nothing has been constructed, nothing observed and no call waits (log 1). -/
def Obligations.ResetHoldsNothing : Prop :=
  State.reset.links = [] ∧ State.reset.ctls = [] ∧ State.reset.trace = [] ∧
    State.reset.pending = [] ∧ State.reset.outcome = .none

/-- The invariant holds after reset. -/
def Obligations.ResetMeetsTheInvariant : Prop := State.reset.Inv

/-- Every step from a state that meets the invariant reaches one that meets it: pins exist exactly where
assigned and are `Z` exactly after release, `E` is never left high, `RW` never leaves the write level, `D0`
to `D3` are never written in `FourBit` mode, every controller refers to a link, its geometry is 1 to 4 rows,
its display function is composed by R94 and its `shiftOnWrite` is false. That `shiftOnWrite` is false
before Begin step 7 too, as in a controller whose Begin failed, is the model's reading: it follows R47
where R51 leaves the field unspecified (log 11). -/
def Obligations.StepKeepsTheInvariant : Prop :=
  ∀ s t : State, s.Inv → step s = .next t → t.Inv

/-! ## The link -/

/-- `LinkConstruct` (R110): with register-select, enable and the mode's data lines assigned, a new link with
the mode and assignment given, not released, every assigned line at `U`; otherwise a ConfigurationError,
and no link. Nothing is emitted and nothing else changes either way. -/
def Obligations.LinkConstructMakesAFreshLink : Prop :=
  ∀ (mode : Mode) (pins : Lines Bool) (s : State),
    let legal := pins.rs = true ∧ pins.e = true ∧
      (mode = .eightBit → pins.d0 = true ∧ pins.d1 = true ∧ pins.d2 = true ∧ pins.d3 = true) ∧
      pins.d4 = true ∧ pins.d5 = true ∧ pins.d6 = true ∧ pins.d7 = true
    (legal → ∃ k : Link, k.mode = mode ∧ k.assigned = pins ∧ k.released = false ∧
        (∀ l, k.pin.get l = if pins.get l then some .U else none) ∧
        exec (.linkConstruct mode pins) s =
          .next { s with links := s.links ++ [k], outcome := .okLink s.links.length }) ∧
    (¬ legal → exec (.linkConstruct mode pins) s =
      .next { s with outcome := .error .configurationError })

/-- `ConfigurationError` (R191): an operation ends with it exactly when it is `LinkConstruct` with the
register-select line, the enable line, one of `D4` to `D7`, or in `EightBit` mode one of `D0` to `D3` not
assigned. So it never comes from a missing `RW`, from `D0` to `D3` in `FourBit` mode, or from a
controller. -/
def Obligations.ConfigurationErrorExactlyForMissingLines : Prop :=
  ∀ (i : Instr) (s : State),
    (∃ t, exec i s = .next t ∧ t.outcome = .error .configurationError) ↔
    ∃ mode pins, i = .linkConstruct mode pins ∧
      (pins.rs = false ∨ pins.e = false ∨
        (mode = .eightBit ∧ (pins.d0 = false ∨ pins.d1 = false ∨ pins.d2 = false ∨ pins.d3 = false ∨
          pins.d4 = false ∨ pins.d5 = false ∨ pins.d6 = false ∨ pins.d7 = false)) ∨
        (mode = .fourBit ∧ (pins.d4 = false ∨ pins.d5 = false ∨ pins.d6 = false ∨ pins.d7 = false)))

/-- `FourBitMode` answers whether the mode is `FourBit`, released or not, and changes nothing (R111). -/
def Obligations.FourBitModeReadsTheMode : Prop :=
  ∀ (l : Nat) (k : Link) (s : State), s.links[l]? = some k →
    exec (.fourBitMode l) s = .next { s with outcome := .okBool (decide (k.mode = .fourBit)) }

/-- `Send` on a link that is not released completes: the bus observer reads exactly the register-select flag
and the byte, the pins are those of the last bus cycle, and nothing else changes (R112, R118). On a
released link it fails with a DisposedError and does nothing at all. -/
def Obligations.SendPutsItsByteOnTheLink : Prop :=
  ∀ (l : Nat) (k : Link) (v : Byte) (isData backlight : Bool) (s : State),
    (s.LinkUp l k → ∃ t, exec (.send l v isData backlight) s = .next t ∧ t.outcome = .ok ∧
      LinkSent s t l k [(isData, v)]) ∧
    (s.links[l]? = some k → k.released = true →
      exec (.send l v isData backlight) s = .next { s with outcome := .error .disposedError })

/-- The events of one `Send`, in order (R112): register-select, then `RW` at the write level if assigned, then
the byte's bits on the data lines and a pulse, or in `FourBit` mode the high nibble, a pulse, the low nibble
and a pulse. The order inside a group of data lines is some order (R113, R114); a pulse is `E` low, high,
held, low (R115). -/
def Obligations.SendEmitsItsEvents : Prop :=
  ∀ (l : Nat) (k : Link) (v : Byte) (isData backlight : Bool) (s : State), s.LinkUp l k →
    let pulse : List Event := [.pin l .e .L, .pin l .e .H, .wait .pulse, .pin l .e .L]
    let controls : List Event := .pin l .rs (lvl isData) ::
      (if k.assigned.rw then [.pin l .rw rwWriteLevel] else [])
    ∃ (t : State) (first second : List Line), exec (.send l v isData backlight) s = .next t ∧
      t.trace = s.trace ++ controls ++
        (match k.mode with
        | .eightBit => (first.map fun m => .pin l m (lvl (v.getLsbD (busBit m)))) ++ pulse
        | .fourBit => (first.map fun m => .pin l m (lvl (v.getLsbD (busBit m)))) ++ pulse ++
            (second.map fun m => .pin l m (lvl (v.getLsbD (busBit m - 4)))) ++ pulse) ∧
      (k.mode = .eightBit → first.Perm dataLines) ∧
      (k.mode = .fourBit → first.Perm nibbleLines ∧ second.Perm nibbleLines)

/-- The counting law (R119): one `Send` emits 13 events without `RW` and 14 with in `EightBit` mode, 17 and 18
in `FourBit` mode: one `RS` write, one `RW` write if assigned, 8 data writes, and 3 `E` writes and 1 wait per
pulse; its minimum duration is `T_PW` per pulse. -/
def Obligations.SendCountsItsEvents : Prop :=
  ∀ (l : Nat) (k : Link) (v : Byte) (isData backlight : Bool) (s : State), s.LinkUp l k →
    ∃ (t : State) (tr : List Event), exec (.send l v isData backlight) s = .next t ∧ t.trace = s.trace ++ tr ∧
      tr.length = (match k.mode with | .eightBit => 13 | .fourBit => 17) +
        (if k.assigned.rw then 1 else 0) ∧
      tr.countP (Event.writes [.rs]) = 1 ∧
      tr.countP (Event.writes [.rw]) = (if k.assigned.rw then 1 else 0) ∧
      tr.countP (Event.writes dataLines) = 8 ∧
      tr.countP (Event.writes [.e]) = 3 * pulses k.mode ∧
      tr.count (.wait .pulse) = pulses k.mode ∧
      minDuration tr = pulses k.mode * duration .pulse

/-- A sequence of `Send` calls shows the concatenation of its transfers (R118). -/
def Obligations.SendSequenceShowsItsTransfers : Prop :=
  ∀ (l : Nat) (k : Link) (xs : List (Bool × Byte)) (s : State), s.LinkUp l k →
    ∃ (t : State) (tr : List Event), execAll (xs.map fun x => .send l x.2 x.1 true) s = .next t ∧ t.trace = s.trace ++ tr ∧
      transfers k.mode (cycles l k.assigned tr) = xs

/-- The backlight flag of `Send` reaches no line and no state of the link (R112, D10). -/
def Obligations.BacklightReachesNoLine : Prop :=
  ∀ (l : Nat) (v : Byte) (isData : Bool) (s : State),
    exec (.send l v isData true) s = exec (.send l v isData false) s

/-- `Release` (R116): the first time the link becomes released and every assigned line gets exactly one
`Release` event, in some order, after which its pin is `Z`; no line is driven to a level first. The second
time nothing happens. It never fails. Afterwards `Send` fails with a DisposedError and does nothing, and
`FourBitMode` still answers. -/
def Obligations.ReleaseFreesEveryLineOnce : Prop :=
  ∀ (l : Nat) (k : Link) (s : State), s.links[l]? = some k →
    (k.released = true → exec (.release l) s = .next { s with outcome := .ok }) ∧
    (k.released = false → ∃ (t : State) (order : List Line) (k' : Link),
      exec (.release l) s = .next t ∧ t.outcome = .ok ∧
      order.Perm (allLines.filter k.assigned.get) ∧
      t.trace = s.trace ++ (order.map fun m => .release l m) ∧
      t.links = s.links.set l k' ∧
      k'.mode = k.mode ∧ k'.assigned = k.assigned ∧ k'.released = true ∧
      (∀ m, k'.pin.get m = if k.assigned.get m then some .Z else k.pin.get m) ∧
      t.ctls = s.ctls ∧ t.params = s.params ∧ t.pending = s.pending ∧
      t.lineOrders = s.lineOrders.drop 1 ∧
      exec (.release l) t = .next t ∧
      (∀ v isData backlight, exec (.send l v isData backlight) t =
        .next { t with outcome := .error .disposedError }) ∧
      exec (.fourBitMode l) t = .next { t with outcome := .okBool (decide (k.mode = .fourBit)) })

/-- `lnk.released` (R33): a link that `LinkConstruct` makes is not released; only its own `Release` makes it
so; and once it is, whatever the host calls next, the link stays released and every `Send` on it fails with
a DisposedError. -/
def Obligations.ReleasedOnceReleasedForEver : Prop :=
  (∀ mode pins s t n, exec (.linkConstruct mode pins) s = .next t → t.outcome = .okLink n →
    ∃ k, t.links[n]? = some k ∧ k.released = false) ∧
  (∀ i s t l k, exec i s = .next t → s.links[l]? = some k → k.released = false → i ≠ .release l →
    ∃ k', t.links[l]? = some k' ∧ k'.released = false) ∧
  (∀ l k s, s.links[l]? = some k →
    ∃ t k', exec (.release l) s = .next t ∧ t.links[l]? = some k' ∧ k'.released = true) ∧
  (∀ calls s u l k, s.links[l]? = some k → k.released = true → execAll calls s = .next u →
    (∃ k', u.links[l]? = some k' ∧ k'.released = true) ∧
    ∀ v isData backlight, exec (.send l v isData backlight) u =
      .next { u with outcome := .error .disposedError })

/-- `WriteData8`, `WriteNibble` and `EnablePulse` run alone on a link that drives their lines (R113, R114,
R115): every line of the group gets the level of its bit, each by one event, in some order; the pulse is
`E` low, high, held, low. Running them alone at all is the model's own (log 15). -/
def Obligations.MicroOperationsWriteTheirLines : Prop :=
  ∀ (l : Nat) (k : Link) (s : State), s.LinkUp l k →
    (∀ v : Byte, k.mode = .eightBit → ∃ (t : State) (order : List Line) (k' : Link), exec (.writeData8 l v) s = .next t ∧
      t.outcome = .ok ∧ order.Perm dataLines ∧
      t.trace = s.trace ++ (order.map fun m => .pin l m (lvl (v.getLsbD (busBit m)))) ∧
      t.links = s.links.set l k' ∧ { k' with pin := k.pin } = k ∧
      (∀ m, k'.pin.get m =
        if m ∈ dataLines then some (pinOf (lvl (v.getLsbD (busBit m)))) else k.pin.get m) ∧
      t.ctls = s.ctls ∧ t.params = s.params ∧ t.pending = s.pending) ∧
    (∀ n : Nibble, ∃ (t : State) (order : List Line) (k' : Link), exec (.writeNibble l n) s = .next t ∧
      t.outcome = .ok ∧ order.Perm nibbleLines ∧
      t.trace = s.trace ++ (order.map fun m => .pin l m (lvl (n.getLsbD (busBit m - 4)))) ∧
      t.links = s.links.set l k' ∧ { k' with pin := k.pin } = k ∧
      (∀ m, k'.pin.get m =
        if m ∈ nibbleLines then some (pinOf (lvl (n.getLsbD (busBit m - 4)))) else k.pin.get m) ∧
      t.ctls = s.ctls ∧ t.params = s.params ∧ t.pending = s.pending) ∧
    exec (.enablePulse l) s = .next
      { s with
        links := s.links.set l { k with pin := k.pin.set .e (some .L) }
        trace := s.trace ++ [.pin l .e .L, .pin l .e .H, .wait .pulse, .pin l .e .L]
        outcome := .ok }

/-- A link micro-operation run alone is refused by name on a released link, and `WriteData8` also on a
`FourBit` link, whose lines `D0` to `D3` are never written (the model's own: log 15). -/
def Obligations.MicroOperationsRefusedOffTheirLink : Prop :=
  ∀ (l : Nat) (k : Link) (v : Byte) (n : Nibble) (s : State), s.links[l]? = some k →
    (k.released = true → exec (.writeData8 l v) s = .refused .lineNotDriven ∧
      exec (.writeNibble l n) s = .refused .lineNotDriven ∧
      exec (.enablePulse l) s = .refused .lineNotDriven) ∧
    (k.mode = .fourBit → exec (.writeData8 l v) s = .refused .lineNotDriven)

/-- Every order of a group is a permitted behaviour, and every permitted behaviour is an order of the group
(R113, R114, R116: "any order"; log 8). -/
def Obligations.EveryLineOrderIsPermitted : Prop :=
  ∀ group order : List Line, order.Perm group ↔ ∃ n, permute n group = order

/-! ## Transfers and properties of the controller -/

/-- `SendCommand` and `SendData` send the byte with the cached backlight, in either phase and without a wait;
on a released link the call is still recorded and the DisposedError passes through (R131). Running them
alone is the model's own (log 15). -/
def Obligations.SendCommandAndSendDataCarryTheBacklight : Prop :=
  ∀ (c : Nat) (k : Ctl) (lk : Link) (v : Byte) (s : State),
    (s.CtlUp c k lk → ∃ t, exec (.sendCommand c v) s = .next t ∧ t.outcome = .ok ∧
      CtlSent s t c k lk [.xfer c v false k.backlight]) ∧
    (s.CtlUp c k lk → ∃ t, exec (.sendData c v) s = .next t ∧ t.outcome = .ok ∧
      CtlSent s t c k lk [.xfer c v true k.backlight]) ∧
    (s.CtlDown c k lk →
      exec (.sendCommand c v) s = .next (disposed s c k [.xfer c v false k.backlight]) ∧
      exec (.sendData c v) s = .next (disposed s c k [.xfer c v true k.backlight]))

/-- `PushDisplayControl` sends exactly one command, `DISPLAYCONTROL` OR-ed with the bits of the three cached
Booleans, with the cached backlight (R150, R95); on a released link that call is still recorded, nothing
else happens, and the DisposedError passes through (R131, D23). Running it alone is the model's own
(log 15). -/
def Obligations.PushSendsTheComposedByte : Prop :=
  ∀ (c : Nat) (k : Ctl) (lk : Link) (s : State),
    let sent : List Event := [.xfer c (cmd.displayControl ||| (if k.visible then cmd.displayOn else 0#8) |||
      (if k.showCursor then cmd.cursorOn else 0#8) ||| (if k.blinkCursor then cmd.blinkOn else 0#8))
      false k.backlight]
    (s.CtlUp c k lk → ∃ t, exec (.pushDisplayControl c) s = .next t ∧ t.outcome = .ok ∧
      CtlSent s t c k lk sent) ∧
    (s.CtlDown c k lk → exec (.pushDisplayControl c) s = .next (disposed s c k sent))

/-- A setter that changes its flag (`SetVisible`, `SetShowCursor`, `SetBlinkCursor`, `SetBacklight`) updates
that flag and sends exactly one display-control byte, composed from the new flags and carrying the new
backlight (R151 to R154, R156). -/
def Obligations.ChangingSetterSendsOneByte : Prop :=
  ∀ (p : Property) (c : Nat) (b : Bool) (k : Ctl) (lk : Link) (s : State), s.CtlUp c k lk →
    k.phase = .ready → k.property p ≠ b →
    ∃ t, exec (setter p c b) s = .next t ∧ t.outcome = .ok ∧
      CtlSent s t c (k.withProperty p b) lk
        [.xfer c (k.withProperty p b).displayByte false (k.withProperty p b).backlight]

/-- A setter whose value is already cached sends nothing and changes nothing, on a released link too (R151
to R154, R156). -/
def Obligations.UnchangedSetterSendsNothing : Prop :=
  ∀ (p : Property) (c : Nat) (b : Bool) (k : Ctl) (lk : Link) (s : State),
    s.ctls[c]? = some k → s.links[k.link]? = some lk → k.phase = .ready → k.property p = b →
    exec (setter p c b) s = .next { s with outcome := .ok }

/-- A setter that changes its flag on a released link fails with a DisposedError, and the cache keeps the new
value (R151, D23). -/
def Obligations.FailedSetterKeepsTheNewFlag : Prop :=
  ∀ (p : Property) (c : Nat) (b : Bool) (k : Ctl) (lk : Link) (s : State), s.CtlDown c k lk →
    k.phase = .ready → k.property p ≠ b →
    exec (setter p c b) s = .next (disposed s c (k.withProperty p b)
      [.xfer c (k.withProperty p b).displayByte false (k.withProperty p b).backlight])

/-- From any `Ready` state, its link released or not, a sequence of setter calls sends exactly as many transfers
as the number of calls that change their flag (R156). How each such call ends is said by
`ChangingSetterSendsOneByte`, and on a released link by `FailedSetterKeepsTheNewFlag`. -/
def Obligations.SetterSequenceSendsItsChanges : Prop :=
  ∀ (c : Nat) (calls : List (Property × Bool)) (k : Ctl) (lk : Link) (s : State),
    s.ctls[c]? = some k → s.links[k.link]? = some lk → k.phase = .ready →
    ∃ (t : State) (tr : List Event), execAll (calls.map fun x => setter x.1 c x.2) s = .next t ∧ t.trace = s.trace ++ tr ∧
      (xfersOf tr).length = changes k calls

/-- `GetProperty` returns the cached flag, emits nothing and writes nothing (R155). -/
def Obligations.GetPropertyReadsTheCache : Prop :=
  ∀ (p : Property) (c : Nat) (k : Ctl) (lk : Link) (s : State),
    s.ctls[c]? = some k → s.links[k.link]? = some lk → k.phase = .ready →
    exec (.getProperty c p) s = .next { s with outcome := .okBool (match p with
      | .visible => k.visible
      | .showCursor => k.showCursor
      | .blinkCursor => k.blinkCursor
      | .backlight => k.backlight) }

/-! ## Clear, Home, addressing, characters, shifts -/

/-- `Clear` sends CLEARDISPLAY and then waits, `Home` sends RETURNHOME and then waits; neither changes the
cache (R160, R161). The two codes rest on CMD (log 5). -/
def Obligations.ClearAndHomeSendAndWait : Prop :=
  ∀ (c : Nat) (k : Ctl) (lk : Link) (s : State), s.CtlUp c k lk → k.phase = .ready →
    (∃ t, exec (.clear c) s = .next t ∧ t.outcome = .ok ∧
      CtlSent s t c k lk [.xfer c cmd.clearDisplay false k.backlight, .wait .clear]) ∧
    (∃ t, exec (.home c) s = .next t ∧ t.outcome = .ok ∧
      CtlSent s t c k lk [.xfer c cmd.returnHome false k.backlight, .wait .home])

/-- `SetCursorPosition` clamps the row to the last configured one, adds the row's offset, and sends
`(SETDDRAMADDR | address)[7:0]`; up to address `0x7F` that byte is `0x80 + address` (R162, R97). Nothing
is cached. The byte sent for an address above `0x7F` is the model's choice (log 20: the spec's D19, where
U12 lets a model refuse instead). -/
def Obligations.SetCursorPositionSendsTheAddress : Prop :=
  ∀ (c column row : Nat) (k : Ctl) (lk : Link) (s : State), s.CtlUp c k lk → k.phase = .ready →
    let r := if row ≥ k.numRows then k.numRows - 1 else row
    ∀ offset, [0x00, 0x40, 0x14, 0x54][r]? = some offset →
      ∃ (t : State) (v : Byte), exec (.setCursorPosition c column row) s = .next t ∧ t.outcome = .ok ∧
        CtlSent s t c k lk [.xfer c v false k.backlight] ∧
        v = BitVec.ofNat 8 (0x80 ||| (column + offset)) ∧
        (column + offset ≤ 0x7F → v.toNat = 0x80 + (column + offset))

/-- The clamp law: a row beyond the configured count acts as the last one (R163). -/
def Obligations.RowClampLaw : Prop :=
  ∀ (c column row : Nat) (k : Ctl) (s : State), s.ctls[c]? = some k →
    (row ≥ k.numRows →
      exec (.setCursorPosition c column row) s =
        exec (.setCursorPosition c column (min row (k.numRows - 1))) s) ∧
    (row < k.numRows → min row (k.numRows - 1) = row)

/-- `WriteBytes` sends every byte of its buffer as data, in order and unchanged, and `WriteText` sends the
bytes of its controller's encoder so; no address, no wait, no other change (R170, R171). -/
def Obligations.WritesSendEveryByte : Prop :=
  ∀ (c : Nat) (k : Ctl) (lk : Link) (s : State), s.CtlUp c k lk → k.phase = .ready →
    (∀ buffer, ∃ t, exec (.writeBytes c buffer) s = .next t ∧ t.outcome = .ok ∧
      CtlSent s t c k lk (buffer.map fun v => .xfer c v true k.backlight)) ∧
    (∀ text, ∃ t, exec (.writeText c text) s = .next t ∧ t.outcome = .ok ∧
      CtlSent s t c k lk ((encodeText k.encode text).map fun v => .xfer c v true k.backlight))

/-- Writing two buffers one after another is writing them joined, and `WriteText` is `WriteBytes` of the
encoding (R172, R102). -/
def Obligations.WritesCompose : Prop :=
  ∀ (c : Nat) (k : Ctl) (lk : Link) (s : State), s.CtlUp c k lk → k.phase = .ready →
    (∀ a b, execAll [.writeBytes c a, .writeBytes c b] s = exec (.writeBytes c (a ++ b)) s) ∧
    (∀ text, exec (.writeText c text) s = exec (.writeBytes c (encodeText k.encode text)) s)

/-- `CreateChar` sends the slot's CGRAM address command and then exactly the 8 bytes from `offset`, unchanged
and in order; with fewer than `offset + 8` bytes a `Ready` controller refuses it, on a released link too
(R173, R98, R195). -/
def Obligations.CreateCharSendsTheGlyph : Prop :=
  ∀ (c slot : Nat) (bitmap : List Byte) (offset : Nat) (k : Ctl) (lk : Link) (s : State),
    s.ctls[c]? = some k → s.links[k.link]? = some lk → k.phase = .ready →
    (s.CtlUp c k lk → offset + 8 ≤ bitmap.length → ∃ (t : State) (glyph : List Byte), exec (.createChar c slot bitmap offset) s = .next t ∧
      t.outcome = .ok ∧ glyph.length = 8 ∧ (∀ j < 8, glyph[j]? = bitmap[offset + j]?) ∧
      CtlSent s t c k lk (.xfer c (cmd.setCgramAddr ||| BitVec.ofNat 8 ((slot &&& 0x7) <<< 3)) false
        k.backlight :: glyph.map fun v => .xfer c v true k.backlight)) ∧
    (bitmap.length < offset + 8 → exec (.createChar c slot bitmap offset) s = .refused .bitmapTooShort)

/-- Slots wrap: `CreateChar(s, bitmap)` and `CreateChar(s & 0x7, bitmap)` are the same, and so is
`s mod 8` (R98). -/
def Obligations.GlyphSlotsWrap : Prop :=
  ∀ (c slot : Nat) (bitmap : List Byte) (offset : Nat) (s : State),
    slot &&& 0x7 = slot % 8 ∧
    exec (.createChar c slot bitmap offset) s = exec (.createChar c (slot &&& 0x7) bitmap offset) s

/-- The shift operations each send their one byte and change no cached field: `ScrollDisplayLeft` `0x18`,
`ScrollDisplayRight` `0x1C`, `MoveCursor` `0x14` or `0x10` (R180, R181, R182). -/
def Obligations.ShiftsSendTheirByte : Prop :=
  ∀ (c : Nat) (right : Bool) (k : Ctl) (lk : Link) (s : State), s.CtlUp c k lk → k.phase = .ready →
    (∃ t, exec (.scrollDisplayLeft c) s = .next t ∧ t.outcome = .ok ∧
      CtlSent s t c k lk [.xfer c 0x18#8 false k.backlight]) ∧
    (∃ t, exec (.scrollDisplayRight c) s = .next t ∧ t.outcome = .ok ∧
      CtlSent s t c k lk [.xfer c 0x1C#8 false k.backlight]) ∧
    (∃ t, exec (.moveCursor c right) s = .next t ∧ t.outcome = .ok ∧
      CtlSent s t c k lk [.xfer c (if right then 0x14#8 else 0x10#8) false k.backlight])

/-! ## Construct and Begin -/

/-- `Begin` (R132): refused with `rows` outside 1 to 4, before anything else; on a link that can send, the
whole controller-level trace of the mode, ending `Ready` with every cached field overwritten; on a released
link the warm-up and the first transfer, the geometry written, the phase as it was, and a DisposedError. The
bytes the traces name, `0x03`, `0x02`, `0x0C`, `0x01`, `0x06` and `0x04`, and the function-set byte rest on
CMD, whose values but the first two are PRESUMED (log 5). -/
def Obligations.BeginRunsItsSevenSteps : Prop :=
  ∀ (c columns rows : Nat) (ltr font : Bool) (k : Ctl) (lk : Link) (s : State),
    s.ctls[c]? = some k → s.links[k.link]? = some lk →
    let fourBit := decide (lk.mode = .fourBit)
    let flags := displayFunctionFlags fourBit rows font
    let fs := cmd.functionSet ||| flags
    let em := if ltr then 0x06#8 else 0x04#8
    (rows < 1 ∨ rows > 4 →
      exec (.beginOp c columns rows ltr font) s = .refused .rowsOutOfRange) ∧
    (1 ≤ rows → rows ≤ 4 → s.CtlUp c k lk →
      ∃ t, exec (.beginOp c columns rows ltr font) s = .next t ∧ t.outcome = .ok ∧
        CtlSent s t c (ctlAfterBegin k fourBit columns rows ltr font) lk
          (if fourBit then beginTrace4 c k.backlight fs em else beginTrace8 c k.backlight fs em)) ∧
    (1 ≤ rows → rows ≤ 4 → s.CtlDown c k lk →
      exec (.beginOp c columns rows ltr font) s = .next (disposed s c
        { k with numCols := columns, numRows := rows, displayFunction := flags }
        [.wait .warmup, .xfer c (if fourBit then 0x03#8 else fs) false k.backlight]))

/-- `Construct` (R130): a new controller on the link, run through Begin with the default geometry,
left-to-right and the small font. On a link that can send it ends `Ready`; on a released link it ends with a
DisposedError and the controller stays `Uninitialized` with the default geometry (D35). The bytes the traces
name, `0x03`, `0x02`, `0x0C`, `0x01` and `0x06`, and the function-set byte rest on CMD, whose values but the
first two are PRESUMED (log 5). -/
def Obligations.ConstructRunsTheDefaultBegin : Prop :=
  ∀ (l : Nat) (lk : Link) (s : State), s.links[l]? = some lk →
    let c := s.ctls.length
    let fourBit := decide (lk.mode = .fourBit)
    let flags := displayFunctionFlags fourBit s.params.defaultRows false
    let fs := cmd.functionSet ||| flags
    let bl := s.params.backlightReset
    (s.LinkUp l lk → ∃ (t : State) (k' : Ctl), exec (.construct l) s = .next t ∧ t.outcome = .okCtl c ∧
      k' = { phase := .ready, link := l, displayFunction := flags, visible := true,
             showCursor := false, blinkCursor := false, backlight := true, leftToRight := true,
             shiftOnWrite := false, numCols := s.params.defaultCols,
             numRows := s.params.defaultRows, encode := s.params.encode } ∧
      CtlSent { s with ctls := s.ctls ++ [k'] } t c k' lk
        (if fourBit then beginTrace4 c bl fs 0x06#8 else beginTrace8 c bl fs 0x06#8)) ∧
    (lk.released = true → ∃ k' : Ctl, exec (.construct l) s = .next (disposed
        { s with ctls := s.ctls ++ [k'] } c k'
        [.wait .warmup, .xfer c (if fourBit then 0x03#8 else fs) false bl]) ∧
      k'.phase = .uninitialized ∧ k'.link = l ∧ k'.backlight = bl ∧
      k'.numCols = s.params.defaultCols ∧ k'.numRows = s.params.defaultRows ∧
      k'.displayFunction = flags ∧ k'.encode = s.params.encode)

/-- The display function flags (R94): a Begin on a link that can send leaves in the controller the flags for
the 4-bit or 8-bit width, for 2-line mode exactly when `rows > 1`, and for the large font only when
`rows = 1`. The bits themselves are the names of CMD, whatever their values. -/
def Obligations.DisplayFunctionIsComposed : Prop :=
  ∀ (c columns rows : Nat) (ltr largeFont : Bool) (k : Ctl) (lk : Link) (s : State),
    s.CtlUp c k lk → 1 ≤ rows → rows ≤ 4 →
    ∃ (t : State) (k' : Ctl), exec (.beginOp c columns rows ltr largeFont) s = .next t ∧
      t.ctls[c]? = some k' ∧
      k'.displayFunction = ((if lk.mode = .fourBit then cmd.fs4Bit else cmd.fs8Bit) |||
        (if rows > 1 then cmd.fs2Line else cmd.fs1Line) |||
        (if largeFont = true ∧ rows = 1 then cmd.fs5x10 else cmd.fs5x8))

/-- The display-control byte (R95) and the entry-mode byte (R96) are the base code OR-ed with the bits of the
flags, by the names of CMD; the entry mode has shift-decrement fixed. -/
def Obligations.ControlBytesAreComposed : Prop :=
  (∀ k : Ctl, k.displayByte = (cmd.displayControl ||| (if k.visible then cmd.displayOn else 0#8) |||
    (if k.showCursor then cmd.cursorOn else 0#8) ||| (if k.blinkCursor then cmd.blinkOn else 0#8))) ∧
  (∀ ltr : Bool, entryModeByte ltr false =
    (cmd.entryModeSet ||| (if ltr then cmd.entryLeft else cmd.entryRight) ||| cmd.entryShiftDec))

/-- With the values the model gives CMD (log 5): the composed function-set bytes are `0x20`, `0x24`, `0x28` in
`FourBit` mode and `0x30`, `0x34`, `0x38` in `EightBit` mode and no other (R89); the display-control bytes
are `0x08` to `0x0F`, one for each setting of the flags (R87); the entry-mode bytes are `0x06` and `0x04`
(R86). -/
def Obligations.ComposedBytesHaveTheirValues : Prop :=
  (∀ (rows : Nat) (largeFont : Bool),
    functionSetByte (displayFunctionFlags true rows largeFont) ∈ [0x20#8, 0x24#8, 0x28#8] ∧
    functionSetByte (displayFunctionFlags false rows largeFont) ∈ [0x30#8, 0x34#8, 0x38#8]) ∧
  (∀ visible showCursor blinkCursor : Bool,
    (displayControlByte visible showCursor blinkCursor).toNat =
      8 + (if visible then 4 else 0) + (if showCursor then 2 else 0) + (if blinkCursor then 1 else 0)) ∧
  entryModeByte true false = 0x06#8 ∧ entryModeByte false false = 0x04#8

/-- UTF-8 of a text of characters below 0x80 is one byte per character, the character's code (the default
encoder is the spec's, its definition general knowledge: R11, log 19). -/
def Obligations.DefaultEncoderOnAscii : Prop :=
  ∀ text : Text, (∀ ch ∈ text, ch.toNat < 0x80) →
    encodeText .utf8 text = text.map fun ch => BitVec.ofNat 8 ch.toNat

/-! ## Errors and refusals -/

/-- A controller operation other than Begin is refused while the controller is `Uninitialized`, whatever its
operands and whatever the link (R193). -/
def Obligations.NothingBeforeBegin : Prop :=
  ∀ (i : Instr) (c : Nat) (k : Ctl) (lk : Link) (s : State),
    needsReady i = true → ctlOf s i = some c → s.ctls[c]? = some k → s.links[k.link]? = some lk →
    k.phase = .uninitialized → exec i s = .refused .notReady

/-- A DisposedError comes only from an operation that sends, on a released link: not from `Release`,
`FourBitMode`, `GetProperty`, `LinkConstruct`, a write of no byte, a text whose encoding is empty, a setter
that changes nothing, or a link micro-operation run alone (R192). -/
def Obligations.DisposedErrorOnlyFromASend : Prop :=
  ∀ (i : Instr) (s t : State), exec i s = .next t → t.outcome = .error .disposedError →
    (∃ l k, linkOf s i = some l ∧ s.links[l]? = some k ∧ k.released = true) ∧
    (∀ l, i ≠ .release l) ∧ (∀ l, i ≠ .fourBitMode l) ∧ (∀ c p, i ≠ .getProperty c p) ∧
    (∀ m p, i ≠ .linkConstruct m p) ∧ (∀ c, i ≠ .writeBytes c []) ∧
    (∀ c text k, i = .writeText c text → s.ctls[c]? = some k → encodeText k.encode text ≠ []) ∧
    (∀ l v, i ≠ .writeData8 l v) ∧ (∀ l n, i ≠ .writeNibble l n) ∧ (∀ l, i ≠ .enablePulse l) ∧
    (∀ p c b k, i = setter p c b → s.ctls[c]? = some k → k.property p ≠ b)

/-- On a released link `Clear`, `Home`, `SetCursorPosition`, `WriteBytes` and `WriteText` of one byte or more,
`CreateChar` of a full glyph, the two scrolls and `MoveCursor` of a `Ready` controller each record their
first transfer, write no line, make no wait after it, change no cached field, and end with a DisposedError;
`WriteBytes` of no byte ends `ok` (R192, R196, D23, and the rules of the operations). The codes they send
rest on CMD (log 5), and the byte `SetCursorPosition` sends for an address above `0x7F` is the model's
choice (log 20: the spec's D19, where U12 lets a model refuse instead). -/
def Obligations.FirstTransferFailsAfterRelease : Prop :=
  ∀ (c : Nat) (k : Ctl) (lk : Link) (s : State), s.CtlDown c k lk → k.phase = .ready →
    exec (.clear c) s = .next (disposed s c k [.xfer c cmd.clearDisplay false k.backlight]) ∧
    exec (.home c) s = .next (disposed s c k [.xfer c cmd.returnHome false k.backlight]) ∧
    (∀ col row, exec (.setCursorPosition c col row) s =
      .next (disposed s c k [.xfer c (ddramByte k.numRows col row) false k.backlight])) ∧
    (∀ v vs, exec (.writeBytes c (v :: vs)) s =
      .next (disposed s c k [.xfer c v true k.backlight])) ∧
    (∀ text v vs, encodeText k.encode text = v :: vs → exec (.writeText c text) s =
      .next (disposed s c k [.xfer c v true k.backlight])) ∧
    (∀ slot bitmap offset, offset + 8 ≤ bitmap.length → exec (.createChar c slot bitmap offset) s =
      .next (disposed s c k [.xfer c (cgramByte slot) false k.backlight])) ∧
    exec (.scrollDisplayLeft c) s = .next (disposed s c k [.xfer c 0x18#8 false k.backlight]) ∧
    exec (.scrollDisplayRight c) s = .next (disposed s c k [.xfer c 0x1C#8 false k.backlight]) ∧
    (∀ right, exec (.moveCursor c right) s =
      .next (disposed s c k [.xfer c (if right then 0x14#8 else 0x10#8) false k.backlight])) ∧
    exec (.writeBytes c []) s = .next { s with outcome := .ok }

/-! ## Rules of the whole machine -/

/-- The phase of a controller becomes `Ready` only by a Begin of its own that ends `ok`, and never goes back
(R36). -/
def Obligations.OnlyBeginMakesReady : Prop :=
  ∀ (i : Instr) (s t : State) (c : Nat) (k : Ctl), exec i s = .next t → s.ctls[c]? = some k →
    ∃ k', t.ctls[c]? = some k' ∧
      (k'.phase = k.phase ∨
        (k'.phase = .ready ∧ t.outcome = .ok ∧ ∃ cols rows ltr font, i = .beginOp c cols rows ltr font))

/-- The writers of the cached fields (R47): the link and the encoder of a controller never change; geometry,
display function and entry mode change only by a Begin of its own; each display flag only by such a Begin or
by its own setter. -/
def Obligations.CachedFieldsHaveTheirWriters : Prop :=
  ∀ (i : Instr) (s t : State) (c : Nat) (k : Ctl), exec i s = .next t → s.ctls[c]? = some k →
    ∃ k', t.ctls[c]? = some k' ∧ k'.link = k.link ∧ k'.encode = k.encode ∧
      ((∃ cols rows ltr font, i = .beginOp c cols rows ltr font) ∨
        (k'.phase = k.phase ∧ k'.displayFunction = k.displayFunction ∧ k'.numCols = k.numCols ∧
          k'.numRows = k.numRows ∧ k'.leftToRight = k.leftToRight ∧
          k'.shiftOnWrite = k.shiftOnWrite ∧
          ∀ p, k'.property p = k.property p ∨ ∃ b, i = setter p c b ∧ k'.property p = b))

/-- The mode and the assignment of a link never change, and `released` becomes true only by its own `Release`
and never goes back (R31, R32, R33). -/
def Obligations.LinkConfigurationIsFixed : Prop :=
  ∀ (i : Instr) (s t : State) (l : Nat) (k : Link), exec i s = .next t → s.links[l]? = some k →
    ∃ k', t.links[l]? = some k' ∧ k'.mode = k.mode ∧ k'.assigned = k.assigned ∧
      (k'.released = k.released ∨ (k'.released = true ∧ i = .release l))

/-- An operation changes no link but the one it works on, and no controller but its own (R37). And a step
writes lines only through `Send` (R35): whatever the host calls, a link that was there is afterwards what
either its own `Release` or some sequence of `Send` calls on it leaves, with exactly the writes to its lines
and releases of them that those make, in the same order. -/
def Obligations.OtherLinksAndControllersUntouched : Prop :=
  (∀ (i : Instr) (s t : State), exec i s = .next t →
    (∀ l < s.links.length, linkOf s i ≠ some l → t.links[l]? = s.links[l]?) ∧
    (∀ c < s.ctls.length, ctlOf s i ≠ some c → t.ctls[c]? = s.ctls[c]?)) ∧
  ∀ (s t : State) (l : Nat) (k : Link), step s = .next t → s.links[l]? = some k →
    ∃ u : State, t.links[l]? = u.links[l]? ∧ lineEvents l t.trace = lineEvents l u.trace ∧
      (exec (.release l) s = .next u ∨
        ∃ xs : List (Bool × Byte), execAll (xs.map fun x => .send l x.2 x.1 true) s = .next u)

/-- An operation only adds to the end of the trace, and changes neither the parameters nor the calls that wait
(R18, R52, R74). -/
def Obligations.TraceOnlyGrows : Prop :=
  ∀ (i : Instr) (s t : State), exec i s = .next t →
    (∃ tr, t.trace = s.trace ++ tr) ∧ t.params = s.params ∧ t.pending = s.pending

/-- No rule reads a pin or the trace (R3, R30, R34): with every pin level forgotten and the trace replaced,
every operation stops the same way or does the same things. -/
def Obligations.NothingReadsPinsOrTrace : Prop :=
  ∀ (i : Instr) (s : State),
    (∀ s' : State, s'.forgetPins = s.forgetPins →
      Answer.view State.forgetPins (exec i s') = Answer.view State.forgetPins (exec i s)) ∧
    ∀ tr : List Event,
      (∀ t, exec i s = .next t → ∃ new, t.trace = s.trace ++ new ∧
        exec i { s with trace := tr } = .next { t with trace := tr ++ new }) ∧
      (∀ r, exec i s = .refused r → exec i { s with trace := tr } = .refused r) ∧
      (∀ r, exec i s = .fault r → exec i { s with trace := tr } = .fault r)

/-- No operation but `Construct`, `Begin`, `Clear` and `Home` makes any wait other than the enable-high hold
(R228, R215). -/
def Obligations.WaitsOnlyWhereListed : Prop :=
  ∀ (i : Instr) (s t : State) (tr : List Event), exec i s = .next t → t.trace = s.trace ++ tr →
    (∀ l, i ≠ .construct l) → (∀ c cols rows ltr font, i ≠ .beginOp c cols rows ltr font) →
    (∀ c, i ≠ .clear c) → (∀ c, i ≠ .home c) → ∀ d, .wait d ∈ tr → d = .pulse

/-- Every duration is at or above its bound, `T_PW` strictly, and the unit is positive (R13). -/
def Obligations.DurationsMeetTheirBounds : Prop :=
  0 < timeUnit ∧ 50 * timeUnit ≤ duration .warmup ∧ 41 / 10 * timeUnit ≤ duration .hsLong ∧
    0 ≤ duration .hs4Short ∧ 0 ≤ duration .hs8Short ∧ 2 * timeUnit ≤ duration .clear ∧
    2 * timeUnit ≤ duration .home ∧ 450 < duration .pulse

/-- The minimum durations of every row of R229 but Send's, on a link that can send: Begin, the setters, Clear,
Home, SetCursorPosition, the shift operations, WriteBytes and CreateChar. -/
def Obligations.MinimumDurations : Prop :=
  ∀ (c : Nat) (k : Ctl) (lk : Link) (s : State), s.CtlUp c k lk →
    let pw := duration .pulse
    let n : Rat := pulses lk.mode
    (∀ cols rows ltr font t tr, 1 ≤ rows → rows ≤ 4 →
      exec (.beginOp c cols rows ltr font) s = .next t → t.trace = s.trace ++ tr →
      minDuration tr = match lk.mode with
        | .fourBit => duration .warmup + 2 * duration .hsLong + duration .hs4Short + duration .clear + 16 * pw
        | .eightBit => duration .warmup + duration .hsLong + duration .hs8Short + duration .clear + 7 * pw) ∧
    (k.phase = .ready →
      (∀ t tr, exec (.clear c) s = .next t → t.trace = s.trace ++ tr →
        minDuration tr = n * pw + duration .clear) ∧
      (∀ t tr, exec (.home c) s = .next t → t.trace = s.trace ++ tr →
        minDuration tr = n * pw + duration .home) ∧
      (∀ buffer t tr, exec (.writeBytes c buffer) s = .next t → t.trace = s.trace ++ tr →
        minDuration tr = buffer.length * n * pw) ∧
      (∀ slot bitmap offset t tr, exec (.createChar c slot bitmap offset) s = .next t →
        t.trace = s.trace ++ tr → minDuration tr = 9 * n * pw) ∧
      (∀ p b t tr, exec (setter p c b) s = .next t → t.trace = s.trace ++ tr →
        minDuration tr = if k.property p = b then 0 else n * pw) ∧
      (∀ i t tr, ((∃ column row, i = .setCursorPosition c column row) ∨ i = .scrollDisplayLeft c ∨
          i = .scrollDisplayRight c ∨ ∃ right, i = .moveCursor c right) →
        exec i s = .next t → t.trace = s.trace ++ tr → minDuration tr = n * pw))

/-- The pin level refines the controller level: whatever a host operation of a controller does when it ends
without an error, the bus observer reads from the link exactly the transfers the controller recorded, each
once and in order (R8, R118, R19). -/
def Obligations.PinsCarryExactlyTheTransfers : Prop :=
  ∀ (i : Instr) (s t : State) (l : Nat) (k : Link), s.Inv → isHostOp i = true → exec i s = .next t →
    t.outcome ≠ .error .disposedError → linkOf s i = some l → s.links[l]? = some k →
    ∃ tr, t.trace = s.trace ++ tr ∧ transfers k.mode (cycles l k.assigned tr) = xfersOf tr

/-- An operation that ends with a DisposedError has written no line: the new events are waits of the
controller, none of them the enable-high hold, and transfer records. A failing `Send` emits nothing (R112,
R196), and that no `Send` of the operation before it succeeded rests on the model's reading that an
operation is one step (log 13) into which no `Release` falls (log 21: R33, R48, R203, R219); R197 speaks of
failures between two transfers, which only such a release could bring about. -/
def Obligations.DisposedOperationsWriteNoLine : Prop :=
  ∀ (i : Instr) (s t : State), exec i s = .next t → t.outcome = .error .disposedError →
    t.links = s.links ∧ t.lineOrders = s.lineOrders ∧
    ∃ tr, t.trace = s.trace ++ tr ∧ (∀ l m v, .pin l m v ∉ tr) ∧ (∀ l m, .release l m ∉ tr) ∧
      .wait .pulse ∉ tr

/-- The command bytes a controller's host operations send are never among those it "never composes": entry
mode with shift-increment, shift with low bits set, function set with low bits or with both 2-line and 5×10,
CGRAM addresses off a slot boundary, and `0x00` (R99). The codes rest on CMD (log 5), and the byte of a DDRAM
address above `0x7F` is the model's choice (log 20). -/
def Obligations.NeverComposedBytesAreNeverSent : Prop :=
  ∀ (i : Instr) (s t : State) (tr : List Event) (c : Nat) (v : Byte) (bl : Bool),
    isHostOp i = true → exec i s = .next t → t.trace = s.trace ++ tr → .xfer c v false bl ∈ tr →
    v ≠ 0x00#8 ∧ v ≠ 0x05#8 ∧ v ≠ 0x07#8 ∧ v ≠ 0x2C#8 ∧ v ≠ 0x3C#8 ∧
    ¬ (0x10 ≤ v.toNat ∧ v.toNat < 0x40 ∧ v.toNat % 4 ≠ 0) ∧
    ¬ (0x40 ≤ v.toNat ∧ v.toNat < 0x80 ∧ v.toNat % 8 ≠ 0)
end

