-- ==== Sys2Proof/Laws/Decode.lean ====
section
/-! SUPPORT. What each parser reads from what the matching writer wrote, and the other way round. -/

namespace Sys2Proof

@[simp] theorem ok_bind {ε α β : Type} (a : α) (f : α → Except ε β) : (Except.ok a >>= f) = f a := rfl

@[simp] theorem error_bind {ε α β : Type} (e : ε) (f : α → Except ε β) :
    (Except.error e >>= f) = .error e := rfl

/-! ## Reading what was written -/

theorem getNat_cons_lt {b : Byte} (h : b.toNat < 128) (bs : List Byte) :
    getNat (b :: bs) = .ok (b.toNat, bs) := by simp [getNat, h]

theorem getNat_putNatFuel (fuel n : Nat) (h : n ≤ fuel) (r : List Byte) :
    getNat (putNatFuel fuel n ++ r) = .ok (n, r) := by
  induction fuel generalizing n with
  | zero =>
    have : n = 0 := by omega
    subst this
    rfl
  | succ fuel ih =>
    rw [putNatFuel]
    split
    · have hn : (BitVec.ofNat 8 n).toNat = n := by simp; omega
      rw [List.singleton_append, getNat_cons_lt (by omega), hn]
    · have hd : (BitVec.ofNat 8 (n % 128 + 128)).toNat = n % 128 + 128 := by simp; omega
      have hz : n / 128 ≠ 0 := by omega
      rw [List.cons_append, getNat, hd, if_neg (by omega), ih (n / 128) (by omega)]
      simp only [hz, if_false]
      congr 2
      omega

@[simp] theorem getNat_putNat (n : Nat) (r : List Byte) : getNat (putNat n ++ r) = .ok (n, r) :=
  getNat_putNatFuel n n (Nat.le_refl n) r

@[simp] theorem getByte_cons (b : Byte) (r : List Byte) : getByte (b :: r) = .ok (b, r) := rfl

@[simp] theorem getBool_boolByte (b : Bool) (r : List Byte) : getBool (boolByte b :: r) = .ok (b, r) := by
  cases b <;> rfl

@[simp] theorem getMode_modeByte (m : Mode) (r : List Byte) : getMode (modeByte m :: r) = .ok (m, r) := by
  cases m <;> rfl

@[simp] theorem getProperty_propertyByte (p : Property) (r : List Byte) :
    getProperty (propertyByte p :: r) = .ok (p, r) := by
  cases p <;> rfl

@[simp] theorem getNibble_cons (n : Nibble) (r : List Byte) :
    getNibble (n.setWidth 8 :: r) = .ok (n, r) := by
  have h : ∀ n : Nibble, (n.setWidth 8).toNat < 16 ∧ BitVec.ofNat 4 (n.setWidth 8).toNat = n := by decide
  simp only [getNibble, h n, if_true]

theorem byteOfBits_get (b0 b1 b2 b3 b4 b5 b6 b7 : Bool) :
    let v := byteOfBits b0 b1 b2 b3 b4 b5 b6 b7
    v.getLsbD 0 = b0 ∧ v.getLsbD 1 = b1 ∧ v.getLsbD 2 = b2 ∧ v.getLsbD 3 = b3 ∧ v.getLsbD 4 = b4 ∧
      v.getLsbD 5 = b5 ∧ v.getLsbD 6 = b6 ∧ v.getLsbD 7 = b7 := by
  revert b0 b1 b2 b3 b4 b5 b6 b7
  decide

theorem byteOfBits_low (a b c : Bool) : (byteOfBits a b c false false false false false).toNat < 8 := by
  revert a b c
  decide

@[simp] theorem getPins_putPins (p : Lines Bool) (r : List Byte) :
    getPins (putPins p ++ r) = .ok (p, r) := by
  obtain ⟨a0, a1, a2, a3, a4, a5, a6, a7⟩ :=
    byteOfBits_get (!p.rs) (!p.rw) (!p.e) (!p.d0) (!p.d1) (!p.d2) (!p.d3) (!p.d4)
  obtain ⟨b0, b1, b2, -⟩ := byteOfBits_get (!p.d5) (!p.d6) (!p.d7) false false false false false
  simp only [putPins, List.cons_append, List.nil_append, getPins, byteOfBits_low, if_true, a0, a1, a2, a3,
    a4, a5, a6, a7, b0, b1, b2, Bool.not_not]

@[simp] theorem getBytes_append (bs r : List Byte) : getBytes bs.length (bs ++ r) = .ok (bs, r) := by
  induction bs with
  | nil => rfl
  | cons b bs ih =>
    simp only [List.length_cons, List.cons_append, getBytes, getByte_cons, ok_bind, ih]

@[simp] theorem getBuffer_putBuffer (bs r : List Byte) : getBuffer (putBuffer bs ++ r) = .ok (bs, r) := by
  simp only [getBuffer, putBuffer, List.append_assoc, getNat_putNat, ok_bind, getBytes_append]

/-- Exchanging twice changes nothing. -/
@[simp] theorem exchangeZero_twice (d n : Nat) : exchangeZero d (exchangeZero d n) = n := by
  simp only [exchangeZero]
  split_ifs <;> omega

@[simp] theorem getRows_putRows (n : Nat) (r : List Byte) : getRows (putRows n ++ r) = .ok (n, r) := by
  simp only [getRows, putRows, getNat_putNat, ok_bind, exchangeZero_twice]

@[simp] theorem getBitmap_putBitmap (bs r : List Byte) : getBitmap (putBitmap bs ++ r) = .ok (bs, r) := by
  simp only [getBitmap, putBitmap, List.append_assoc, getNat_putNat, ok_bind, exchangeZero_twice,
    getBytes_append]

@[simp] theorem getChar_putNat (c : Char) (r : List Byte) :
    getChar (putNat c.toNat ++ r) = .ok (c, r) := by
  have hv : c.toNat.isValidChar := c.valid
  have hc : Char.ofNatAux c.toNat hv = c := by
    have := Char.ofNat_toNat c
    rwa [Char.ofNat, dif_pos hv] at this
  simp only [getChar, getNat_putNat, ok_bind, hv, dite_true, hc]

@[simp] theorem getChars_flatMap (t : Text) (r : List Byte) :
    getChars t.length ((t.flatMap fun c => putNat c.toNat) ++ r) = .ok (t, r) := by
  induction t with
  | nil => rfl
  | cons c t ih =>
    simp only [List.length_cons, List.flatMap_cons, List.append_assoc, getChars, getChar_putNat,
      ok_bind, ih]

@[simp] theorem getText_putText (t : Text) (r : List Byte) : getText (putText t ++ r) = .ok (t, r) := by
  simp only [getText, putText, List.append_assoc, getNat_putNat, ok_bind, getChars_flatMap]

/-- The bits of a transfer word put together again. -/
theorem busWord_halves (w : BitVec 9) : BitVec.ofBool (w.getLsbD 8) ++ w.extractLsb' 0 8 = w := by
  revert w
  decide

/-- The record of a transfer word decodes as the word does. -/
theorem decodeFront_putBus (w : BitVec 9) (link : Nat) (r : List Byte) :
    decodeFront (putBus w link ++ r) = .ok (decodeBus w link, r) := by
  simp only [putBus, List.cons_append, decodeFront, getByte_cons, ok_bind, BitVec.toNat_ofNat,
    getBusOp, getBool_boolByte, getNat_putNat, busWord_halves, Nat.zero_mod]

/-! ## Writing back what was read -/

theorem putNatFuel_enough (fuel fuel' n : Nat) (h : n ≤ fuel) (h' : n ≤ fuel') :
    putNatFuel fuel n = putNatFuel fuel' n := by
  induction fuel generalizing fuel' n with
  | zero =>
    have : n = 0 := by omega
    subst this
    cases fuel' <;> simp [putNatFuel]
  | succ fuel ih =>
    cases fuel' with
    | zero =>
      have : n = 0 := by omega
      subst this
      simp [putNatFuel]
    | succ fuel' =>
      simp only [putNatFuel]
      split
      · rfl
      · rw [ih fuel' (n / 128) (by omega) (by omega)]

theorem putNat_small {n : Nat} (h : n < 128) : putNat n = [BitVec.ofNat 8 n] := by
  cases n <;> simp [putNat, putNatFuel, h]

theorem putNat_large {n : Nat} (h : 128 ≤ n) :
    putNat n = BitVec.ofNat 8 (n % 128 + 128) :: putNat (n / 128) := by
  obtain ⟨m, rfl⟩ : ∃ m, n = m + 1 := ⟨n - 1, by omega⟩
  rw [putNat, putNatFuel, if_neg (by omega), putNat]
  rw [putNatFuel_enough m ((m + 1) / 128) ((m + 1) / 128) (by omega) (by omega)]

theorem getNat_eq {bs r : List Byte} {n : Nat} (h : getNat bs = .ok (n, r)) : bs = putNat n ++ r := by
  induction bs generalizing n with
  | nil => cases h
  | cons b bs ih =>
    rw [getNat] at h
    split at h
    · cases h
      rw [putNat_small ‹_›]
      simp
    · split at h
      · cases h
      · rename_i m rest hm
        split at h
        · cases h
        · cases h
          have hb := b.isLt
          rw [putNat_large (by omega), ih hm]
          have h1 : (b.toNat - 128 + 128 * m) % 128 + 128 = b.toNat := by omega
          have h2 : (b.toNat - 128 + 128 * m) / 128 = m := by omega
          rw [h1, h2]
          simp

theorem getByte_eq {bs r : List Byte} {b : Byte} (h : getByte bs = .ok (b, r)) : bs = b :: r := by
  cases bs <;> simp_all [getByte]

theorem getBool_eq {bs r : List Byte} {b : Bool} (h : getBool bs = .ok (b, r)) :
    bs = boolByte b :: r := by
  cases bs with
  | nil => cases h
  | cons a bs =>
    rw [getBool] at h
    split_ifs at h <;> cases h <;> simp_all [boolByte]

theorem getMode_eq {bs r : List Byte} {m : Mode} (h : getMode bs = .ok (m, r)) :
    bs = modeByte m :: r := by
  cases bs with
  | nil => cases h
  | cons a bs =>
    rw [getMode] at h
    split_ifs at h <;> cases h <;> simp_all [modeByte]

theorem getProperty_eq {bs r : List Byte} {p : Property} (h : getProperty bs = .ok (p, r)) :
    bs = propertyByte p :: r := by
  cases bs with
  | nil => cases h
  | cons a bs =>
    rw [getProperty] at h
    split_ifs at h <;> cases h <;> simp_all [propertyByte]

theorem getNibble_eq {bs r : List Byte} {n : Nibble} (h : getNibble bs = .ok (n, r)) :
    bs = n.setWidth 8 :: r := by
  have e : ∀ a : Byte, a.toNat < 16 → (BitVec.ofNat 4 a.toNat).setWidth 8 = a := by decide
  cases bs with
  | nil => cases h
  | cons a bs =>
    rw [getNibble] at h
    split_ifs at h with ha
    cases h
    rw [e a ha]

theorem byteOfBits_eq (a : Byte) :
    byteOfBits (a.getLsbD 0) (a.getLsbD 1) (a.getLsbD 2) (a.getLsbD 3) (a.getLsbD 4) (a.getLsbD 5)
      (a.getLsbD 6) (a.getLsbD 7) = a := by
  revert a
  decide

theorem byteOfBits_low_eq (a : Byte) (h : a.toNat < 8) :
    byteOfBits (a.getLsbD 0) (a.getLsbD 1) (a.getLsbD 2) false false false false false = a := by
  revert a
  decide

theorem getPins_eq {bs r : List Byte} {p : Lines Bool} (h : getPins bs = .ok (p, r)) :
    bs = putPins p ++ r := by
  match bs, h with
  | [], h => cases h
  | [_], h => cases h
  | a :: b :: bs, h =>
    rw [getPins] at h
    split_ifs at h with hb
    cases h
    simp only [putPins, Bool.not_not, byteOfBits_eq, byteOfBits_low_eq b hb]
    rfl

theorem getBytes_eq {n : Nat} {bs r l : List Byte} (h : getBytes n bs = .ok (l, r)) :
    bs = l ++ r ∧ l.length = n := by
  induction n generalizing bs l with
  | zero => cases h; simp
  | succ n ih =>
    cases bs with
    | nil => cases h
    | cons b bs =>
      simp only [getBytes, getByte_cons, ok_bind] at h
      cases hg : getBytes n bs with
      | error e => rw [hg] at h; cases h
      | ok x =>
        obtain ⟨l', r'⟩ := x
        rw [hg] at h
        cases h
        obtain ⟨rfl, rfl⟩ := ih hg
        simp

/-- A bind that answers a value comes from one that does. -/
theorem bind_eq_ok {ε α β : Type} {x : Except ε α} {f : α → Except ε β} {b : β}
    (h : (x >>= f) = .ok b) : ∃ a, x = .ok a ∧ f a = .ok b := by
  cases x with
  | error e => cases h
  | ok a => exact ⟨a, rfl, h⟩

theorem getBuffer_eq {bs r l : List Byte} (h : getBuffer bs = .ok (l, r)) : bs = putBuffer l ++ r := by
  obtain ⟨⟨n, r'⟩, h1, h2⟩ := bind_eq_ok h
  obtain ⟨rfl, rfl⟩ := getBytes_eq h2
  rw [getNat_eq h1, putBuffer, List.append_assoc]

theorem getRows_eq {bs r : List Byte} {n : Nat} (h : getRows bs = .ok (n, r)) : bs = putRows n ++ r := by
  obtain ⟨⟨m, r'⟩, h1, h2⟩ := bind_eq_ok h
  cases h2
  rw [getNat_eq h1, putRows, exchangeZero_twice]

theorem getBitmap_eq {bs r l : List Byte} (h : getBitmap bs = .ok (l, r)) : bs = putBitmap l ++ r := by
  obtain ⟨⟨n, r'⟩, h1, h2⟩ := bind_eq_ok h
  obtain ⟨rfl, hn⟩ := getBytes_eq h2
  rw [getNat_eq h1, putBitmap, hn, exchangeZero_twice, List.append_assoc]

theorem getChar_eq {bs r : List Byte} {c : Char} (h : getChar bs = .ok (c, r)) :
    bs = putNat c.toNat ++ r := by
  obtain ⟨⟨n, r'⟩, h1, h2⟩ := bind_eq_ok h
  simp only at h2
  split at h2
  · rename_i hv
    cases h2
    have : (Char.ofNatAux n hv).toNat = n := by
      have := Char.toNat_ofNat n
      rwa [Char.ofNat, dif_pos hv, if_pos hv] at this
    rw [this]
    exact getNat_eq h1
  · cases h2

theorem getChars_eq {n : Nat} {bs r : List Byte} {t : Text} (h : getChars n bs = .ok (t, r)) :
    bs = (t.flatMap fun c => putNat c.toNat) ++ r ∧ t.length = n := by
  induction n generalizing bs t with
  | zero => cases h; simp
  | succ n ih =>
    obtain ⟨⟨c, r'⟩, h1, h2⟩ := bind_eq_ok h
    obtain ⟨⟨t', r''⟩, h3, h4⟩ := bind_eq_ok h2
    cases h4
    obtain ⟨h5, rfl⟩ := ih h3
    rw [getChar_eq h1, h5]
    simp

theorem getText_eq {bs r : List Byte} {t : Text} (h : getText bs = .ok (t, r)) : bs = putText t ++ r := by
  obtain ⟨⟨n, r'⟩, h1, h2⟩ := bind_eq_ok h
  obtain ⟨h3, rfl⟩ := getChars_eq h2
  rw [getNat_eq h1, putText, h3, List.append_assoc]

end Sys2Proof
end

