-- ==== Sys2Proof/Laws/Lines.lean ====
section
/-! SUPPORT. Reading and writing one value per line. -/

namespace Sys2Proof.Lines

variable {α β : Type}

theorem get_ext {x y : Lines α} (h : ∀ l, x.get l = y.get l) : x = y := by
  cases x; cases y
  simpa [get] using
    (⟨h .rs, h .rw, h .e, h .d0, h .d1, h .d2, h .d3, h .d4, h .d5, h .d6, h .d7⟩ :
      _ ∧ _ ∧ _ ∧ _ ∧ _ ∧ _ ∧ _ ∧ _ ∧ _ ∧ _ ∧ _)

@[simp] theorem get_set_same (x : Lines α) (l : Line) (a : α) : (x.set l a).get l = a := by
  cases l <;> rfl

theorem get_set_other (x : Lines α) {l m : Line} (a : α) (h : m ≠ l) :
    (x.set l a).get m = x.get m := by
  cases l <;> cases m <;> first | rfl | exact absurd rfl h

theorem get_set (x : Lines α) (l m : Line) (a : α) :
    (x.set l a).get m = if m = l then a else x.get m := by
  split
  · subst_vars; simp
  · exact get_set_other x a ‹_›

@[simp] theorem get_of (f : Line → α) (l : Line) : (of f).get l = f l := by cases l <;> rfl

@[simp] theorem of_get (x : Lines α) : of x.get = x := get_ext fun l => by simp

@[simp] theorem get_map (f : α → β) (x : Lines α) (l : Line) : (x.map f).get l = f (x.get l) := by
  simp [map]

end Sys2Proof.Lines

namespace Sys2Proof

@[simp] theorem mem_allLines (l : Line) : l ∈ allLines := by cases l <;> decide

theorem allLines_nodup : allLines.Nodup := by decide

end Sys2Proof
end

