-- ==== Sys2Proof/Laws/Operands.lean ====
section
/-! SUPPORT. The orders of the "any order" groups, and the bits of the halves of a byte. -/

namespace Sys2Proof.Machine

variable {α : Type}

theorem insertAt_perm (k : Nat) (a : α) (l : List α) : (insertAt k a l).Perm (a :: l) := by
  induction l generalizing k with
  | nil => simp [insertAt]
  | cons x xs ih =>
    cases k with
    | zero => simp [insertAt]
    | succ k => simpa [insertAt] using ((ih k).cons x).trans (.swap a x xs)

/-- Every order number gives a permutation. -/
theorem permute_perm (n : Nat) (l : List α) : (permute n l).Perm l := by
  induction l generalizing n with
  | nil => exact .refl _
  | cons x xs ih => exact (insertAt_perm _ x _).trans ((ih _).cons x)

@[simp] theorem mem_permute {n : Nat} {l : List α} {a : α} : a ∈ permute n l ↔ a ∈ l :=
  (permute_perm n l).mem_iff

@[simp] theorem permute_length (n : Nat) (l : List α) : (permute n l).length = l.length :=
  (permute_perm n l).length_eq

theorem insertAt_zero (a : α) (l : List α) : insertAt 0 a l = a :: l := by cases l <;> simp [insertAt]

/-- Order number 0 is the list as it stands. -/
@[simp] theorem permute_zero (l : List α) : permute 0 l = l := by
  induction l with
  | nil => rfl
  | cons x xs ih => simp [permute, ih, insertAt_zero]

/-- An element put at the length of a front part stands between that part and the rest. -/
theorem insertAt_append (a : α) (l r : List α) : insertAt l.length a (l ++ r) = l ++ a :: r := by
  induction l with
  | nil => simp [insertAt_zero]
  | cons x xs ih => simp [insertAt, ih]

/-- A byte is its two halves. -/
theorem high_append_low (v : Byte) : (highNibble v ++ lowNibble v : Byte) = v := by
  simp only [highNibble, lowNibble]
  exact BitVec.extractLsb'_append_extractLsb'_eq_extractLsb' (by omega) |>.trans (by simp)

end Sys2Proof.Machine
end

