-- ==== Sys2Proof/Laws/State.lean ====
section
/-! SUPPORT. One lemma per field per update of the state and of the views an operation works on, true by
rfl, so that no later proof unfolds a record update. -/

namespace Sys2Proof.Machine

open Sys2Proof.Config

section Bus
variable (b : Bus) (l : Line) (v : Level) (d : Delay)

@[simp] theorem emitPin_idx : (b.emitPin l v).idx = b.idx := rfl
@[simp] theorem emitPin_mode : (b.emitPin l v).lnk.mode = b.lnk.mode := rfl
@[simp] theorem emitPin_assigned : (b.emitPin l v).lnk.assigned = b.lnk.assigned := rfl
@[simp] theorem emitPin_released : (b.emitPin l v).lnk.released = b.lnk.released := rfl
@[simp] theorem emitPin_pin : (b.emitPin l v).lnk.pin = b.lnk.pin.set l (some (pinOf v)) := rfl
@[simp] theorem emitPin_lineOrders : (b.emitPin l v).lineOrders = b.lineOrders := rfl
@[simp] theorem emitPin_trace : (b.emitPin l v).trace = b.trace ++ [.pin b.idx l v] := rfl

@[simp] theorem emitWait_idx : (b.emitWait d).idx = b.idx := rfl
@[simp] theorem emitWait_lnk : (b.emitWait d).lnk = b.lnk := rfl
@[simp] theorem emitWait_lineOrders : (b.emitWait d).lineOrders = b.lineOrders := rfl
@[simp] theorem emitWait_trace : (b.emitWait d).trace = b.trace ++ [.wait d] := rfl

@[simp] theorem emitRelease_idx : (b.emitRelease l).idx = b.idx := rfl
@[simp] theorem emitRelease_mode : (b.emitRelease l).lnk.mode = b.lnk.mode := rfl
@[simp] theorem emitRelease_assigned : (b.emitRelease l).lnk.assigned = b.lnk.assigned := rfl
@[simp] theorem emitRelease_released : (b.emitRelease l).lnk.released = b.lnk.released := rfl
@[simp] theorem emitRelease_pin : (b.emitRelease l).lnk.pin = b.lnk.pin.set l (some .Z) := rfl
@[simp] theorem emitRelease_lineOrders : (b.emitRelease l).lineOrders = b.lineOrders := rfl
@[simp] theorem emitRelease_trace : (b.emitRelease l).trace = b.trace ++ [.release b.idx l] := rfl

end Bus

section Desk
variable (d : Desk) (v : Byte) (r : Bool) (f : Ctl → Ctl)

@[simp] theorem emitXfer_idx : (d.emitXfer v r).idx = d.idx := rfl
@[simp] theorem emitXfer_ctl : (d.emitXfer v r).ctl = d.ctl := rfl
@[simp] theorem emitXfer_busIdx : (d.emitXfer v r).bus.idx = d.bus.idx := rfl
@[simp] theorem emitXfer_lnk : (d.emitXfer v r).bus.lnk = d.bus.lnk := rfl
@[simp] theorem emitXfer_lineOrders : (d.emitXfer v r).bus.lineOrders = d.bus.lineOrders := rfl
@[simp] theorem emitXfer_trace :
    (d.emitXfer v r).bus.trace = d.bus.trace ++ [.xfer d.idx v r d.ctl.backlight] := rfl

@[simp] theorem mapCtl_idx : (d.mapCtl f).idx = d.idx := rfl
@[simp] theorem mapCtl_bus : (d.mapCtl f).bus = d.bus := rfl
@[simp] theorem mapCtl_ctl : (d.mapCtl f).ctl = f d.ctl := rfl

end Desk

section State
variable (s : State) (b : Bus) (d : Desk) (o : OpOutcome) (e : ErrorKind) (call : Instr)

@[simp] theorem answer_links : (s.answer o).links = s.links := rfl
@[simp] theorem answer_ctls : (s.answer o).ctls = s.ctls := rfl
@[simp] theorem answer_params : (s.answer o).params = s.params := rfl
@[simp] theorem answer_pending : (s.answer o).pending = s.pending := rfl
@[simp] theorem answer_lineOrders : (s.answer o).lineOrders = s.lineOrders := rfl
@[simp] theorem answer_trace : (s.answer o).trace = s.trace := rfl
@[simp] theorem answer_outcome : (s.answer o).outcome = o := rfl

@[simp] theorem raiseError_links : (s.raiseError e).links = s.links := rfl
@[simp] theorem raiseError_ctls : (s.raiseError e).ctls = s.ctls := rfl
@[simp] theorem raiseError_params : (s.raiseError e).params = s.params := rfl
@[simp] theorem raiseError_pending : (s.raiseError e).pending = s.pending := rfl
@[simp] theorem raiseError_lineOrders : (s.raiseError e).lineOrders = s.lineOrders := rfl
@[simp] theorem raiseError_trace : (s.raiseError e).trace = s.trace := rfl
@[simp] theorem raiseError_outcome : (s.raiseError e).outcome = .error e := rfl

@[simp] theorem putBus_links : (s.putBus b).links = s.links.set b.idx b.lnk := rfl
@[simp] theorem putBus_ctls : (s.putBus b).ctls = s.ctls := rfl
@[simp] theorem putBus_params : (s.putBus b).params = s.params := rfl
@[simp] theorem putBus_pending : (s.putBus b).pending = s.pending := rfl
@[simp] theorem putBus_lineOrders : (s.putBus b).lineOrders = b.lineOrders := rfl
@[simp] theorem putBus_trace : (s.putBus b).trace = b.trace := rfl
@[simp] theorem putBus_outcome : (s.putBus b).outcome = s.outcome := rfl

@[simp] theorem putDesk_links : (s.putDesk d).links = s.links.set d.bus.idx d.bus.lnk := rfl
@[simp] theorem putDesk_ctls : (s.putDesk d).ctls = s.ctls.set d.idx d.ctl := rfl
@[simp] theorem putDesk_params : (s.putDesk d).params = s.params := rfl
@[simp] theorem putDesk_pending : (s.putDesk d).pending = s.pending := rfl
@[simp] theorem putDesk_lineOrders : (s.putDesk d).lineOrders = d.bus.lineOrders := rfl
@[simp] theorem putDesk_trace : (s.putDesk d).trace = d.bus.trace := rfl
@[simp] theorem putDesk_outcome : (s.putDesk d).outcome = s.outcome := rfl

@[simp] theorem present_links : (s.present call).links = s.links := rfl
@[simp] theorem present_ctls : (s.present call).ctls = s.ctls := rfl
@[simp] theorem present_params : (s.present call).params = s.params := rfl
@[simp] theorem present_pending : (s.present call).pending = call :: s.pending := rfl
@[simp] theorem present_lineOrders : (s.present call).lineOrders = s.lineOrders := rfl
@[simp] theorem present_trace : (s.present call).trace = s.trace := rfl
@[simp] theorem present_outcome : (s.present call).outcome = s.outcome := rfl

theorem nextCall_none (h : s.pending = []) : s.nextCall = none := by simp [State.nextCall, h]

theorem nextCall_some {rest : List Instr} (h : s.pending = call :: rest) :
    s.nextCall = some (call, { s with pending := rest }) := by simp [State.nextCall, h]

theorem busAt_some {l : Nat} {k : Link} (h : s.links[l]? = some k) :
    s.busAt l = some { idx := l, lnk := k, lineOrders := s.lineOrders, trace := s.trace } := by
  simp [State.busAt, h]

theorem busAt_none {l : Nat} (h : s.links[l]? = none) : s.busAt l = none := by
  simp [State.busAt, h]

end State

section Ran
variable {σ τ : Type}

@[simp] theorem andThen_done (x : σ) (f : σ → Ran σ) : (Ran.done x).andThen f = f x := rfl
@[simp] theorem andThen_failed (x : σ) (e : ErrorKind) (f : σ → Ran σ) :
    (Ran.failed x e).andThen f = .failed x e := rfl
@[simp] theorem lift_done (f : σ → τ) (x : σ) : (Ran.done x).lift f = .done (f x) := rfl
@[simp] theorem lift_failed (f : σ → τ) (x : σ) (e : ErrorKind) :
    (Ran.failed x e).lift f = .failed (f x) e := rfl

/-- A sequence ends `done` only when both halves do. -/
theorem andThen_eq_done {r : Ran σ} {f : σ → Ran σ} {y : σ} :
    r.andThen f = .done y ↔ ∃ x, r = .done x ∧ f x = .done y := by
  cases r <;> simp

/-- A sequence ends with an error where one of its halves does. -/
theorem andThen_eq_failed {r : Ran σ} {f : σ → Ran σ} {y : σ} {e : ErrorKind} :
    r.andThen f = .failed y e ↔ r = .failed y e ∨ ∃ x, r = .done x ∧ f x = .failed y e := by
  cases r <;> simp

end Ran

end Sys2Proof.Machine
end

