-- ==== Sys2Proof/Laws/Ops.lean ====
section
/-! SUPPORT. One lemma for each shared link operation that says once everything it does to the link it
works on. The order of the events inside a group is the one free part. -/

namespace Sys2Proof.Machine

open Sys2Proof.Config

/-! ## Groups in any order -/

/-- Values per line with those of a group of lines replaced. -/
def overlay {α : Type} (ls : List Line) (f : Line → α) (p : Lines α) : Lines α :=
  Lines.of fun m => if m ∈ ls then f m else p.get m

@[simp] theorem overlay_get {α : Type} (ls : List Line) (f : Line → α) (p : Lines α) (m : Line) :
    (overlay ls f p).get m = if m ∈ ls then f m else p.get m := by
  simp [overlay]

/-- Writing lines one after another is one overlay, whatever the order. -/
theorem foldl_set_eq_overlay {α : Type} (ls : List Line) (f : Line → α) (p : Lines α) :
    ls.foldl (fun p l => p.set l (f l)) p = overlay ls f p := by
  induction ls generalizing p with
  | nil => exact Lines.get_ext fun m => by simp
  | cons l ls ih =>
    rw [List.foldl_cons, ih]
    refine Lines.get_ext fun m => ?_
    simp only [overlay_get, Lines.get_set, List.mem_cons]
    by_cases h : m ∈ ls <;> by_cases h' : m = l <;> simp [h, h']

theorem overlay_perm {α : Type} {ls ms : List Line} (h : ls.Perm ms) (f : Line → α) (p : Lines α) :
    overlay ls f p = overlay ms f p :=
  Lines.get_ext fun m => by simp [h.mem_iff]

theorem foldl_emitPin (ls : List Line) (f : Line → Level) (b : Bus) :
    ls.foldl (fun b l => b.emitPin l (f l)) b =
      { b with
        lnk := { b.lnk with pin := overlay ls (fun l => some (pinOf (f l))) b.lnk.pin }
        trace := b.trace ++ ls.map fun l => .pin b.idx l (f l) } := by
  rw [← foldl_set_eq_overlay]
  induction ls generalizing b with
  | nil => simp
  | cons l ls ih => rw [List.foldl_cons, ih]; simp [Bus.emitPin]

theorem foldl_emitRelease (ls : List Line) (b : Bus) :
    ls.foldl (fun b l => b.emitRelease l) b =
      { b with
        lnk := { b.lnk with pin := overlay ls (fun _ => some .Z) b.lnk.pin }
        trace := b.trace ++ ls.map fun l => .release b.idx l } := by
  rw [← foldl_set_eq_overlay]
  induction ls generalizing b with
  | nil => simp
  | cons l ls ih => rw [List.foldl_cons, ih]; simp [Bus.emitRelease]

/-- A group of writes: every line of the group gets its level, in some order. -/
theorem inAnyOrder_emitPin (ls : List Line) (f : Line → Level) (b : Bus) :
    b.inAnyOrder ls (fun l => Bus.emitPin l (f l)) =
      { b with
        lnk := { b.lnk with pin := overlay ls (fun l => some (pinOf (f l))) b.lnk.pin }
        lineOrders := b.lineOrders.tail
        trace := b.trace ++ (permute (b.lineOrders.headD 0) ls).map fun l => .pin b.idx l (f l) } := by
  simp [Bus.inAnyOrder, foldl_emitPin, overlay_perm (permute_perm _ ls)]

/-- A group of releases: every line of the group becomes `Z`, in some order. -/
theorem inAnyOrder_emitRelease (ls : List Line) (b : Bus) :
    b.inAnyOrder ls Bus.emitRelease =
      { b with
        lnk := { b.lnk with pin := overlay ls (fun _ => some .Z) b.lnk.pin }
        lineOrders := b.lineOrders.tail
        trace := b.trace ++ (permute (b.lineOrders.headD 0) ls).map fun l => .release b.idx l } := by
  simp [Bus.inAnyOrder, foldl_emitRelease, overlay_perm (permute_perm _ ls)]

/-! ## The micro-operations (R113 to R115) -/

/-- The events of one enable pulse (R115). -/
def pulseEvents (link : Nat) : List Event :=
  [.pin link .e .L, .pin link .e .H, .wait .pulse, .pin link .e .L]

/-- `EnablePulse` leaves `E` low and nothing else changed. -/
theorem enablePulse_eq (b : Bus) :
    b.enablePulse =
      { b with
        lnk := { b.lnk with pin := b.lnk.pin.set .e (some .L) }
        trace := b.trace ++ pulseEvents b.idx } := by
  simp [Bus.enablePulse, Bus.emitPin, Bus.emitWait, pulseEvents, pinOf, Lines.set]

theorem writeData8_eq (v : Byte) (b : Bus) :
    b.writeData8 v =
      { b with
        lnk := { b.lnk with pin := overlay dataLines (fun l => some (pinOf (byteLevel v l))) b.lnk.pin }
        lineOrders := b.lineOrders.tail
        trace := b.trace ++
          (permute (b.lineOrders.headD 0) dataLines).map fun l => .pin b.idx l (byteLevel v l) } :=
  inAnyOrder_emitPin _ _ _

theorem writeNibble_eq (n : Nibble) (b : Bus) :
    b.writeNibble n =
      { b with
        lnk := { b.lnk with pin := overlay nibbleLines (fun l => some (pinOf (nibbleLevel n l))) b.lnk.pin }
        lineOrders := b.lineOrders.tail
        trace := b.trace ++
          (permute (b.lineOrders.headD 0) nibbleLines).map fun l => .pin b.idx l (nibbleLevel n l) } :=
  inAnyOrder_emitPin _ _ _

/-! ## Send (R112) -/

/-- The events of one `Send`, the groups in the orders given. -/
def sendEvents (link : Nat) (k : Link) (orders : List Nat) (isData : Bool) (v : Byte) : List Event :=
  (.pin link .rs (lvl isData) :: if k.assigned.rw then [.pin link .rw rwWriteLevel] else []) ++
  match k.mode with
  | .eightBit =>
    ((permute (orders.headD 0) dataLines).map fun l => .pin link l (byteLevel v l)) ++ pulseEvents link
  | .fourBit =>
    ((permute (orders.headD 0) nibbleLines).map fun l => .pin link l (nibbleLevel (highNibble v) l)) ++
    pulseEvents link ++
    ((permute (orders.tail.headD 0) nibbleLines).map fun l => .pin link l (nibbleLevel (lowNibble v) l)) ++
    pulseEvents link

/-- A `Send` on a released link fails at once and does nothing (D11). -/
theorem send_released {b : Bus} (h : b.lnk.released = true) (v : Byte) (r bl : Bool) :
    b.send v r bl = .failed b .disposedError := by
  simp [Bus.send, h]

/-- A `Send` on a link that is not released: its events, its last levels, and nothing else. -/
theorem send_done {b : Bus} (h : b.lnk.released = false) (v : Byte) (r bl : Bool) :
    b.send v r bl = .done
      { b with
        lnk := { b.lnk with pin := pinsAfter b.lnk r v }
        lineOrders := b.lineOrders.drop (pulses b.lnk.mode)
        trace := b.trace ++ sendEvents b.idx b.lnk b.lineOrders r v } := by
  rcases b with ⟨idx, ⟨mode, asg, rel, pin⟩, orders, tr⟩
  simp only at h
  subst h
  simp only [Bus.send, Bool.false_eq_true, if_false, Bus.sendCycles]
  have step : (if (Bus.emitPin .rs (lvl r) ⟨idx, ⟨mode, asg, false, pin⟩, orders, tr⟩).lnk.assigned.rw = true
      then (Bus.emitPin .rs (lvl r) ⟨idx, ⟨mode, asg, false, pin⟩, orders, tr⟩).emitPin .rw rwWriteLevel
      else Bus.emitPin .rs (lvl r) ⟨idx, ⟨mode, asg, false, pin⟩, orders, tr⟩) =
      ⟨idx, ⟨mode, asg, false, if asg.rw then (pin.set .rs (some (pinOf (lvl r)))).set .rw
        (some (pinOf rwWriteLevel)) else pin.set .rs (some (pinOf (lvl r)))⟩, orders,
        tr ++ (.pin idx .rs (lvl r) :: if asg.rw then [.pin idx .rw rwWriteLevel] else [])⟩ := by
    cases h : asg.rw <;> simp [Bus.emitPin, h]
  rw [step]
  cases mode with
  | eightBit =>
    simp only [writeData8_eq, enablePulse_eq, sendEvents, pulses, List.append_assoc, List.drop_one]
    congr 3
    refine Lines.get_ext fun m => ?_
    cases hrw : asg.rw <;> cases m <;>
      simp [pinsAfter, Lines.get_set, dataLines, hrw]
  | fourBit =>
    simp only [writeNibble_eq, enablePulse_eq, sendEvents, pulses, List.append_assoc]
    congr 3
    · refine Lines.get_ext fun m => ?_
      cases hrw : asg.rw <;> cases m <;>
        simp [pinsAfter, Lines.get_set, nibbleLines, hrw]
    · cases orders <;> simp

/-! ## Release (R116) -/

/-- `Release` on a released link does nothing. -/
theorem release_again {b : Bus} (h : b.lnk.released = true) : b.release = b := by
  simp [Bus.release, h]

/-- The first `Release`: every assigned line released once, in some order. -/
theorem release_first {b : Bus} (h : b.lnk.released = false) :
    b.release =
      { b with
        lnk := { b.lnk with
          released := true
          pin := overlay (assignedLines b.lnk.assigned) (fun _ => some .Z) b.lnk.pin }
        lineOrders := b.lineOrders.tail
        trace := b.trace ++ (permute (b.lineOrders.headD 0) (assignedLines b.lnk.assigned)).map
          fun l => .release b.idx l } := by
  simp [Bus.release, h, inAnyOrder_emitRelease]

@[simp] theorem mem_assignedLines {pins : Lines Bool} {l : Line} :
    l ∈ assignedLines pins ↔ pins.get l = true := by
  simp [assignedLines]

end Sys2Proof.Machine
end

