-- ==== Sys2Proof/Laws/Observer.lean ====
section
/-! SUPPORT. What the observers of 40_link_driver.md R117 and R118 read from the events of a `Send`, and how
the two trace levels split. -/

namespace Sys2Proof.Machine

open Sys2Proof.Config

/-! ## Trace levels -/

@[simp] theorem controllerTrace_append (a b : List Event) :
    controllerTrace (a ++ b) = controllerTrace a ++ controllerTrace b := List.filter_append ..

@[simp] theorem pinTrace_append (a b : List Event) : pinTrace (a ++ b) = pinTrace a ++ pinTrace b :=
  List.filter_append ..

@[simp] theorem xfersOf_append (a b : List Event) : xfersOf (a ++ b) = xfersOf a ++ xfersOf b :=
  List.filterMap_append ..

@[simp] theorem xfersOf_nil : xfersOf [] = [] := rfl

@[simp] theorem xfersOf_xfer (c : Nat) (v : Byte) (r bl : Bool) (tr : List Event) :
    xfersOf (.xfer c v r bl :: tr) = (r, v) :: xfersOf tr := rfl

@[simp] theorem xfersOf_wait (d : Delay) (tr : List Event) : xfersOf (.wait d :: tr) = xfersOf tr := rfl

@[simp] theorem controllerTrace_pins (l : Nat) (ls : List Line) (f : Line → Level) :
    controllerTrace (ls.map fun m => .pin l m (f m)) = [] := by
  induction ls <;> simp_all [controllerTrace]

@[simp] theorem controllerTrace_pulse (l : Nat) : controllerTrace (pulseEvents l) = [] := rfl

@[simp] theorem controllerTrace_send (l : Nat) (k : Link) (o : List Nat) (r : Bool) (v : Byte) :
    controllerTrace (sendEvents l k o r v) = [] := by
  cases h : k.assigned.rw <;> cases hm : k.mode <;>
    simp [sendEvents, h, hm] <;> simp [controllerTrace, pulseEvents]

@[simp] theorem lineEvents_append (l : Nat) (a b : List Event) :
    lineEvents l (a ++ b) = lineEvents l a ++ lineEvents l b := List.filter_append ..

/-- The events of one `Send` are those R112 lists. -/
theorem isSend_sendEvents (l : Nat) (k : Link) (o : List Nat) (r : Bool) (v : Byte) :
    IsSend l k r v (sendEvents l k o r v) := by
  have nibble : ∀ (ls : List Line) (n : Nibble) (x : Line → Nat), ls.Perm nibbleLines →
      (∀ m ∈ nibbleLines, nibbleLevel n m = lvl (v.getLsbD (x m))) →
      (ls.map fun m => Event.pin l m (nibbleLevel n m)) = ls.map fun m => .pin l m (lvl (v.getLsbD (x m))) :=
    fun ls n x hp h => List.map_congr_left fun m hm => by rw [h m (hp.subset hm)]
  refine ⟨_, rfl, ?_⟩
  cases hm : k.mode
  · refine ⟨_, _, permute_perm (o.headD 0) nibbleLines, permute_perm (o.tail.headD 0) nibbleLines, ?_⟩
    rw [← nibble _ (highNibble v) busBit (permute_perm ..) (by
        simp [nibbleLines, nibbleLevel, highNibble, busBit]),
      ← nibble _ (lowNibble v) (fun m => busBit m - 4) (permute_perm ..) (by
        simp [nibbleLines, nibbleLevel, lowNibble, busBit])]
    simp only [sendEvents, hm, List.append_assoc]
    rfl
  · refine ⟨_, permute_perm (o.headD 0) dataLines, ?_⟩
    simp only [sendEvents, hm, List.append_assoc]
    rfl

theorem lineEvents_pins_other {l l' : Nat} (h : l ≠ l') (ls : List Line) (f : Line → Level) :
    lineEvents l' (ls.map fun m => .pin l m (f m)) = [] := by
  simpa [lineEvents, List.filter_eq_nil_iff] using fun _ _ => h

/-- One `Send` touches the lines of its own link only. -/
theorem lineEvents_send_other {l l' : Nat} (h : l ≠ l') (k : Link) (o : List Nat) (r : Bool) (v : Byte) :
    lineEvents l' (sendEvents l k o r v) = [] := by
  have hb : (l == l') = false := by simpa using h
  cases hw : k.assigned.rw <;> cases hm : k.mode <;>
    simp [lineEvents, sendEvents, hw, hm, pulseEvents, hb, List.filter_eq_nil_iff]

@[simp] theorem minDuration_append (a b : List Event) :
    minDuration (a ++ b) = minDuration a + minDuration b := by simp [minDuration]

theorem minDuration_pins (l : Nat) (ls : List Line) (f : Line → Level) :
    minDuration (ls.map fun m => .pin l m (f m)) = 0 := by
  induction ls with
  | nil => rfl
  | cons m ls ih => simpa [minDuration, Event.minDuration] using ih

theorem minDuration_pulse (l : Nat) : minDuration (pulseEvents l) = duration .pulse := by
  simp [minDuration, pulseEvents, Event.minDuration]

/-- The minimum duration of one `Send` (R119): one enable-high hold per pulse. -/
theorem minDuration_send (l : Nat) (k : Link) (o : List Nat) (r : Bool) (v : Byte) :
    minDuration (sendEvents l k o r v) = pulses k.mode * duration .pulse := by
  cases h : k.assigned.rw <;> cases hm : k.mode <;>
    simp only [sendEvents, h, hm, minDuration_append, minDuration_pins, minDuration_pulse, pulses] <;>
    simp [minDuration, Event.minDuration] <;> ring

/-! ## Cycles (R117) -/

section Cycles
variable (link : Nat) (asg : Lines Bool) (lv : Lines PinState)

/-- Writes to lines other than `E` end no cycle. -/
theorem cyclesFrom_pins (ls : List Line) (f : Line → Level) (he : Line.e ∉ ls) (rest : List Event) :
    cyclesFrom link asg lv ((ls.map fun m => .pin link m (f m)) ++ rest) =
      cyclesFrom link asg (overlay ls (fun m => pinOf (f m)) lv) rest := by
  rw [← foldl_set_eq_overlay]
  induction ls generalizing lv with
  | nil => simp
  | cons m ls ih =>
    have hm : m ≠ .e := fun h => he (by simp [h])
    simpa [cyclesFrom, hm] using ih (lv.set m (pinOf (f m))) (fun h => he (by simp [h]))

/-- An enable pulse that starts with `E` not high is one cycle, and leaves `E` low. -/
theorem cyclesFrom_pulse (he : lv.e ≠ .H) (rest : List Event) :
    cyclesFrom link asg lv (pulseEvents link ++ rest) =
      sample asg (lv.set .e .H) :: cyclesFrom link asg (lv.set .e .L) rest := by
  simp [pulseEvents, cyclesFrom, he, Lines.set, pinOf]

end Cycles

@[simp] theorem sample_high (asg : Lines Bool) (lv : Lines PinState) (v : PinState) {m : Line}
    (h : m ≠ .e) : Cycle.high (sample asg (lv.set .e v)) m = (asg.get m && lv.get m == .H) := by
  cases ha : asg.get m <;>
    simp [Cycle.high, sample, Lines.get_set, h, ha]

@[simp] theorem pinOf_lvl_high (b : Bool) : (pinOf (lvl b) == .H) = b := by cases b <;> rfl

/-- The eight bits of a byte, most significant first. -/
theorem byte_of_bits (v : Byte) :
    (BitVec.ofBool (v.getLsbD 7) ++ BitVec.ofBool (v.getLsbD 6) ++ BitVec.ofBool (v.getLsbD 5) ++
      BitVec.ofBool (v.getLsbD 4) ++ BitVec.ofBool (v.getLsbD 3) ++ BitVec.ofBool (v.getLsbD 2) ++
      BitVec.ofBool (v.getLsbD 1) ++ BitVec.ofBool (v.getLsbD 0) : Byte) = v := by
  revert v; decide

/-- The four bits of a nibble, most significant first. -/
theorem nibble_of_bits (n : Nibble) :
    (BitVec.ofBool (n.getLsbD 3) ++ BitVec.ofBool (n.getLsbD 2) ++ BitVec.ofBool (n.getLsbD 1) ++
      BitVec.ofBool (n.getLsbD 0) : Nibble) = n := by
  revert n; decide

theorem legalPins_rs {m : Mode} {p : Lines Bool} (h : legalPins m p = true) : p.get .rs = true := by
  simp [legalPins] at h; exact h.1.1

theorem legalPins_e {m : Mode} {p : Lines Bool} (h : legalPins m p = true) : p.get .e = true := by
  simp [legalPins] at h; exact h.1.2

theorem legalPins_data {p : Lines Bool} (h : legalPins .eightBit p = true) {l : Line}
    (hl : l ∈ dataLines) : p.get l = true := by
  simp only [legalPins, Bool.and_eq_true, List.all_eq_true] at h; exact h.2 l hl

theorem legalPins_nibble {m : Mode} {p : Lines Bool} (h : legalPins m p = true) {l : Line}
    (hl : l ∈ nibbleLines) : p.get l = true := by
  cases m with
  | eightBit => exact legalPins_data h (by revert hl; cases l <;> decide)
  | fourBit => simp only [legalPins, Bool.and_eq_true, List.all_eq_true] at h; exact h.2 l hl

/-- The byte a cycle carries when its data lines hold the byte's levels. -/
theorem cycle_byte_of_levels {asg : Lines Bool} {lv : Lines PinState} {v : Byte} {e : PinState}
    (ha : ∀ l ∈ dataLines, asg.get l = true) (hv : ∀ l ∈ dataLines, lv.get l = pinOf (byteLevel v l)) :
    Cycle.byte (sample asg (lv.set .e e)) = v := by
  have bit : ∀ l ∈ dataLines, Cycle.high (sample asg (lv.set .e e)) l = v.getLsbD (busBit l) :=
    fun l hl => by
      rw [sample_high _ _ _ (by rintro rfl; simp [dataLines] at hl), ha l hl, hv l hl, Bool.true_and]
      exact pinOf_lvl_high _
  simp only [Cycle.byte]
  rw [bit .d7 (by decide), bit .d6 (by decide), bit .d5 (by decide), bit .d4 (by decide),
    bit .d3 (by decide), bit .d2 (by decide), bit .d1 (by decide), bit .d0 (by decide)]
  exact byte_of_bits v

/-- The nibble a cycle carries when its data lines hold the nibble's levels. -/
theorem cycle_nibble_of_levels {asg : Lines Bool} {lv : Lines PinState} {n : Nibble} {e : PinState}
    (ha : ∀ l ∈ nibbleLines, asg.get l = true)
    (hv : ∀ l ∈ nibbleLines, lv.get l = pinOf (nibbleLevel n l)) :
    Cycle.nibble (sample asg (lv.set .e e)) = n := by
  have bit : ∀ l ∈ nibbleLines, Cycle.high (sample asg (lv.set .e e)) l = n.getLsbD (busBit l - 4) :=
    fun l hl => by
      rw [sample_high _ _ _ (by rintro rfl; simp [nibbleLines] at hl), ha l hl, hv l hl, Bool.true_and]
      exact pinOf_lvl_high _
  simp only [Cycle.nibble]
  rw [bit .d7 (by decide), bit .d6 (by decide), bit .d5 (by decide), bit .d4 (by decide)]
  exact nibble_of_bits n

/-- What a stretch of a trace shows the bus observer of a link: from any levels with `E` not high it reads
exactly `xs`, whatever follows, and leaves `E` not high. -/
def Shows (link : Nat) (k : Link) (tr : List Event) (xs : List (Bool × Byte)) : Prop :=
  ∀ lv : Lines PinState, lv.e ≠ .H → ∃ lv' : Lines PinState, lv'.e ≠ .H ∧ ∃ cs : List Cycle,
    (∀ rest, cyclesFrom link k.assigned lv (tr ++ rest) = cs ++ cyclesFrom link k.assigned lv' rest) ∧
    ∀ more, transfers k.mode (cs ++ more) = xs ++ transfers k.mode more

theorem Shows.nil (link : Nat) (k : Link) : Shows link k [] [] :=
  fun lv h => ⟨lv, h, [], fun _ => rfl, fun _ => rfl⟩

theorem Shows.append {link : Nat} {k : Link} {a b : List Event} {xs ys : List (Bool × Byte)}
    (ha : Shows link k a xs) (hb : Shows link k b ys) : Shows link k (a ++ b) (xs ++ ys) := by
  intro lv h
  obtain ⟨lv₁, h₁, cs, hc, ht⟩ := ha lv h
  obtain ⟨lv₂, h₂, ds, hd, hu⟩ := hb lv₁ h₁
  exact ⟨lv₂, h₂, cs ++ ds, fun rest => by simp [hc, hd], fun more => by simp [ht, hu]⟩

/-- A wait shows nothing. -/
theorem Shows.wait (link : Nat) (k : Link) (d : Delay) : Shows link k [.wait d] [] :=
  fun lv h => ⟨lv, h, [], fun _ => by simp [cyclesFrom], fun _ => rfl⟩

/-- A transfer record shows nothing. -/
theorem Shows.xfer (link : Nat) (k : Link) (c : Nat) (v : Byte) (r bl : Bool) :
    Shows link k [.xfer c v r bl] [] :=
  fun lv h => ⟨lv, h, [], fun _ => by simp [cyclesFrom], fun _ => rfl⟩

/-- Only the assignment and the mode of a link matter to the observer. -/
theorem Shows.congr {link : Nat} {k k' : Link} {tr : List Event} {xs : List (Bool × Byte)}
    (ha : k'.assigned = k.assigned) (hm : k'.mode = k.mode) (h : Shows link k tr xs) :
    Shows link k' tr xs := by simpa [Shows, ha, hm] using h

/-- Seen from the start, the observer reads exactly what the stretch shows. -/
theorem Shows.transfers_eq {link : Nat} {k : Link} {tr : List Event} {xs : List (Bool × Byte)}
    (h : Shows link k tr xs) : transfers k.mode (cycles link k.assigned tr) = xs := by
  obtain ⟨lv, _, cs, hc, ht⟩ := h (Lines.of fun _ => .U) (by simp [Lines.of])
  have h₁ := hc []
  have h₂ := ht []
  simp only [List.append_nil, cyclesFrom] at h₁ h₂
  rw [cycles, h₁, h₂]
  cases k.mode <;> simp [transfers, pairNibbles]

/-- One `Send` shows exactly its register-select flag and its byte (R118). -/
theorem shows_send {k : Link} (hk : legalPins k.mode k.assigned = true) (link : Nat) (o : List Nat)
    (r : Bool) (v : Byte) : Shows link k (sendEvents link k o r v) [(r, v)] := by
  intro lv hlv
  have hrs := legalPins_rs hk
  -- the levels once RS and RW are written
  obtain ⟨lv₁, he₁, hrs₁, hstart⟩ : ∃ lv₁ : Lines PinState, lv₁.e ≠ .H ∧ lv₁.get .rs = pinOf (lvl r) ∧
      ∀ rest, cyclesFrom link k.assigned lv ((.pin link .rs (lvl r) ::
        if k.assigned.rw then [.pin link .rw rwWriteLevel] else []) ++ rest) =
        cyclesFrom link k.assigned lv₁ rest := by
    cases h : k.assigned.rw
    · exact ⟨lv.set .rs (pinOf (lvl r)), by simpa [Lines.set] using hlv, by simp, fun rest => by
        simp [cyclesFrom]⟩
    · exact ⟨(lv.set .rs (pinOf (lvl r))).set .rw (pinOf rwWriteLevel), by simpa [Lines.set] using hlv,
        by simp [Lines.get_set], fun rest => by simp [cyclesFrom]⟩
  have over_e : ∀ (ls : List Line) (f : Line → PinState) (x : Lines PinState), Line.e ∉ ls →
      (overlay ls f x).e = x.e := fun ls f x h => by
    show (overlay ls f x).get .e = x.get .e
    rw [overlay_get, if_neg h]
  cases hm : k.mode with
  | eightBit =>
    rw [hm] at hk
    let lv₂ := overlay (permute (o.headD 0) dataLines) (fun l => pinOf (byteLevel v l)) lv₁
    have he₂ : lv₂.e ≠ .H := by
      rw [over_e _ _ _ (by simp [dataLines])]; exact he₁
    refine ⟨lv₂.set .e .L, by simp [Lines.set], [sample k.assigned (lv₂.set .e .H)], fun rest => ?_,
      fun more => ?_⟩
    · simp only [sendEvents, hm, List.append_assoc]
      rw [hstart, cyclesFrom_pins _ _ _ _ _ (by simp [dataLines]), cyclesFrom_pulse _ _ _ he₂]
      rfl
    · have hb : Cycle.byte (sample k.assigned (lv₂.set .e .H)) = v :=
        cycle_byte_of_levels (fun l hl => legalPins_data hk hl) (fun l hl => by simp [lv₂, hl])
      have hr : Cycle.high (sample k.assigned (lv₂.set .e .H)) .rs = r := by
        simp [hrs, lv₂, dataLines, hrs₁]
      simp [transfers, hb, hr]
  | fourBit =>
    let lv₂ := overlay (permute (o.headD 0) nibbleLines)
      (fun l => pinOf (nibbleLevel (highNibble v) l)) lv₁
    let lv₃ := lv₂.set .e .L
    let lv₄ := overlay (permute (o.tail.headD 0) nibbleLines)
      (fun l => pinOf (nibbleLevel (lowNibble v) l)) lv₃
    have he₂ : lv₂.e ≠ .H := by
      rw [over_e _ _ _ (by simp [nibbleLines])]; exact he₁
    have he₄ : lv₄.e ≠ .H := by
      rw [over_e _ _ _ (by simp [nibbleLines])]; simp [lv₃, Lines.set]
    refine ⟨lv₄.set .e .L, by simp [Lines.set],
      [sample k.assigned (lv₂.set .e .H), sample k.assigned (lv₄.set .e .H)], fun rest => ?_,
      fun more => ?_⟩
    · simp only [sendEvents, hm, List.append_assoc]
      rw [hstart, cyclesFrom_pins _ _ _ _ _ (by simp [nibbleLines]), cyclesFrom_pulse _ _ _ he₂,
        cyclesFrom_pins _ _ _ _ _ (by simp [nibbleLines]), cyclesFrom_pulse _ _ _ he₄]
      rfl
    · have hh : Cycle.nibble (sample k.assigned (lv₂.set .e .H)) = highNibble v :=
        cycle_nibble_of_levels (fun l hl => legalPins_nibble hk hl) (fun l hl => by simp [lv₂, hl])
      have hl : Cycle.nibble (sample k.assigned (lv₄.set .e .H)) = lowNibble v :=
        cycle_nibble_of_levels (fun l hl => legalPins_nibble hk hl) (fun l hl => by simp [lv₄, hl])
      have hr : Cycle.high (sample k.assigned (lv₂.set .e .H)) .rs = r := by
        simp [hrs, lv₂, nibbleLines, hrs₁]
      simp [transfers, pairNibbles, hh, hl, hr, high_append_low]

end Sys2Proof.Machine
end

