-- ==== Sys2Proof/Laws/Desk.lean ====
section
/-! SUPPORT. One lemma for each shared controller operation that says once everything it does: the record it
leaves, the events it emits and what they put on the link. Operations are composed by `Desk.Runs.andThen`. -/

namespace Sys2Proof.Machine

open Sys2Proof.Config

/-- Only the last `Send` decides the levels of the lines a `Send` writes. -/
theorem pinsAfter_pinsAfter (k : Link) (r r' : Bool) (v v' : Byte) :
    pinsAfter { k with pin := pinsAfter k r v } r' v' = pinsAfter k r' v' := by
  refine Lines.get_ext fun m => ?_
  cases h : k.assigned.rw <;> cases hm : k.mode <;> cases m <;> simp [pinsAfter, h, hm]

theorem pinsAfterAll_concat (k : Link) (xs : List (Bool × Byte)) (x : Bool × Byte) :
    pinsAfterAll k (xs ++ [x]) = pinsAfter k x.1 x.2 := by simp [pinsAfterAll]

theorem pinsAfterAll_append (k : Link) (xs ys : List (Bool × Byte)) :
    pinsAfterAll { k with pin := pinsAfterAll k xs } ys = pinsAfterAll k (xs ++ ys) := by
  cases ys using List.reverseRecOn with
  | nil => simp [pinsAfterAll]
  | append_singleton ys y =>
    rw [← List.append_assoc, pinsAfterAll_concat, pinsAfterAll_concat]
    cases xs using List.reverseRecOn with
    | nil => simp [pinsAfterAll]
    | append_singleton xs x => rw [pinsAfterAll_concat, pinsAfter_pinsAfter]

@[simp] theorem pinsAfterAll_nil (k : Link) : pinsAfterAll k [] = k.pin := rfl

/-! ## Events at the pin level -/

/-- The events a controller emits itself (R19). -/
def Event.ofController : Event → Bool
  | .xfer _ _ _ _ => true
  | .wait d => d != .pulse
  | .pin _ _ _ => false
  | .release _ _ => false

/-- The events of a controller with those its link adds: after each transfer the events of one `Send`, the
groups in the orders given. -/
def expand (link : Nat) (k : Link) : List Nat → List Event → List Event
  | _, [] => []
  | o, .xfer c v r bl :: es =>
    .xfer c v r bl :: (sendEvents link k o r v ++ expand link k (o.drop (pulses k.mode)) es)
  | o, e :: es => e :: expand link k o es

theorem expand_append (link : Nat) (k : Link) (o : List Nat) (xs ys : List Event) :
    expand link k o (xs ++ ys) = expand link k o xs ++
      expand link k (o.drop ((xfersOf xs).length * pulses k.mode)) ys := by
  induction xs generalizing o with
  | nil => simp [expand]
  | cons e es ih =>
    cases e <;> simp only [expand, List.cons_append, ih, List.append_assoc]
    case xfer => simp [List.drop_drop, Nat.add_mul, Nat.add_comm]
    all_goals rfl

theorem expand_pin (link : Nat) (k : Link) (p : Lines (Option PinState)) (o : List Nat)
    (evs : List Event) : expand link { k with pin := p } o evs = expand link k o evs := by
  induction evs generalizing o with
  | nil => rfl
  | cons e es ih =>
    cases e <;> simp only [expand, ih]
    rfl

/-- The controller level of the expanded events is the controller's own. -/
theorem controllerTrace_expand (link : Nat) (k : Link) (o : List Nat) {evs : List Event}
    (h : ∀ e ∈ evs, e.ofController = true) : controllerTrace (expand link k o evs) = evs := by
  induction evs generalizing o with
  | nil => rfl
  | cons e es ih =>
    have he := h e (by simp)
    have ih := fun o => ih o fun x hx => h x (by simp [hx])
    cases e <;> simp only [expand, Event.ofController, Bool.false_eq_true] at he ⊢
    case xfer c v r bl =>
      rw [← List.singleton_append, controllerTrace_append, controllerTrace_append, controllerTrace_send,
        ih]
      rfl
    case wait d =>
      rw [← List.singleton_append, controllerTrace_append, ih]
      simp [controllerTrace, he]

/-- The expanded events are the controller's own with one whole `Send` directly after each transfer. -/
theorem withSends_expand (link : Nat) (k : Link) (o : List Nat) (evs : List Event) :
    WithSends link k evs (expand link k o evs) := by
  induction evs generalizing o with
  | nil => rfl
  | cons e es ih =>
    cases e
    case xfer => exact ⟨_, _, rfl, isSend_sendEvents .., ih _⟩
    all_goals exact ⟨_, rfl, ih _⟩

/-- A controller touches no line itself. -/
theorem lineEvents_own (l : Nat) {evs : List Event} (h : ∀ e ∈ evs, e.ofController = true) :
    lineEvents l evs = [] := by
  refine List.filter_eq_nil_iff.2 fun e he => ?_
  have := h e he
  cases e <;> simp_all [Event.ofController]

/-- The expanded events touch the lines of their own link only. -/
theorem lineEvents_expand_other {l l' : Nat} (hne : l ≠ l') (k : Link) (o : List Nat) {evs : List Event}
    (h : ∀ e ∈ evs, e.ofController = true) : lineEvents l' (expand l k o evs) = [] := by
  induction evs generalizing o with
  | nil => rfl
  | cons e es ih =>
    have he := h e (by simp)
    have ih := fun o => ih o fun x hx => h x (by simp [hx])
    cases e <;> simp only [expand, Event.ofController, Bool.false_eq_true] at he ⊢
    case xfer c v r bl =>
      rw [← List.singleton_append, lineEvents_append, lineEvents_append, lineEvents_send_other hne, ih]
      rfl
    case wait d =>
      rw [← List.singleton_append, lineEvents_append, ih]
      rfl

/-- The bus observer reads from the expanded events exactly the transfers of the controller (R118). -/
theorem shows_expand (link : Nat) {k : Link} (hk : legalPins k.mode k.assigned = true) (o : List Nat)
    {evs : List Event} (h : ∀ e ∈ evs, e.ofController = true) :
    Shows link k (expand link k o evs) (xfersOf evs) := by
  induction evs generalizing o with
  | nil => exact .nil _ _
  | cons e es ih =>
    have he := h e (by simp)
    have ih := fun o => ih o fun x hx => h x (by simp [hx])
    cases e <;> simp only [expand, Event.ofController, Bool.false_eq_true] at he ⊢
    case xfer c v r bl =>
      exact (Shows.xfer link k c v r bl).append ((shows_send hk link o r v).append (ih _))
    case wait d => exact (Shows.wait link k d).append (ih _)

theorem minDuration_expand (link : Nat) (k : Link) (o : List Nat) (evs : List Event) :
    minDuration (expand link k o evs) = minDuration evs +
      (xfersOf evs).length * (pulses k.mode * duration .pulse) := by
  have cons : ∀ (e : Event) (l : List Event), minDuration (e :: l) = e.minDuration + minDuration l :=
    fun e l => by simp [minDuration]
  induction evs generalizing o with
  | nil => simp [expand, minDuration]
  | cons e es ih =>
    cases e <;> simp only [expand, cons, minDuration_append, ih]
    case xfer c v r bl =>
      rw [minDuration_send, xfersOf_xfer, List.length_cons]
      push_cast
      ring
    all_goals
      rw [← add_assoc]
      rfl

/-! ## Stretches of an operation -/

/-- A desk whose link is not released. -/
structure Desk.Up (d : Desk) : Prop where
  notReleased : d.bus.lnk.released = false

/-- Everything a completed stretch of a controller operation does beside the controller's own record:
`evs` are its controller-level events. -/
structure Desk.Did (d d' : Desk) (evs : List Event) : Prop where
  own : ∀ e ∈ evs, e.ofController = true
  idx : d'.idx = d.idx
  busIdx : d'.bus.idx = d.bus.idx
  lnk : d'.bus.lnk = { d.bus.lnk with pin := pinsAfterAll d.bus.lnk (xfersOf evs) }
  orders : d'.bus.lineOrders =
    d.bus.lineOrders.drop ((xfersOf evs).length * pulses d.bus.lnk.mode)
  trace : d'.bus.trace = d.bus.trace ++ expand d.bus.idx d.bus.lnk d.bus.lineOrders evs

theorem Desk.Did.refl (d : Desk) : d.Did d [] where
  own := by simp
  idx := rfl
  busIdx := rfl
  lnk := rfl
  orders := by simp
  trace := by simp [expand]

theorem Desk.Did.trans {a b c : Desk} {xs ys : List Event} (h : a.Did b xs) (g : b.Did c ys) :
    a.Did c (xs ++ ys) where
  own := by
    intro e he
    rcases List.mem_append.1 he with he | he
    · exact h.own e he
    · exact g.own e he
  idx := g.idx.trans h.idx
  busIdx := g.busIdx.trans h.busIdx
  lnk := by rw [g.lnk, h.lnk, pinsAfterAll_append, xfersOf_append]
  orders := by
    rw [g.orders, h.orders, h.lnk, List.drop_drop, xfersOf_append, List.length_append, Nat.add_mul]
  trace := by
    rw [g.trace, h.trace, h.busIdx, h.lnk, h.orders, expand_append, List.append_assoc,
      expand_pin _ a.bus.lnk (pinsAfterAll a.bus.lnk (xfersOf xs))]

theorem Desk.Did.up {a b : Desk} {xs : List Event} (h : a.Did b xs) (ha : a.Up) : b.Up where
  notReleased := by rw [h.lnk]; exact ha.notReleased

/-- A write to the cached fields alone. -/
theorem Desk.Did.mapCtl (d : Desk) (f : Ctl → Ctl) : d.Did (d.mapCtl f) [] where
  own := by simp
  idx := rfl
  busIdx := rfl
  lnk := rfl
  orders := by simp
  trace := by simp [expand]

/-- A sequence of micro-steps that completes, leaving the controller as `k` and having emitted `evs`. -/
def Desk.Runs (d : Desk) (r : Ran Desk) (k : Ctl) (evs : List Event) : Prop :=
  ∃ d', r = .done d' ∧ d'.ctl = k ∧ d.Did d' evs

theorem Desk.Runs.andThen {d : Desk} {r : Ran Desk} {f : Desk → Ran Desk} {k k' : Ctl}
    {xs ys : List Event} (h : d.Runs r k xs)
    (g : ∀ d', d'.ctl = k → d.Did d' xs → d'.Runs (f d') k' ys) :
    d.Runs (r.andThen f) k' (xs ++ ys) := by
  obtain ⟨d₁, rfl, hk, hd⟩ := h
  obtain ⟨d₂, he, hk', hd'⟩ := g d₁ hk hd
  exact ⟨d₂, he, hk', hd.trans hd'⟩

/-- The same, seen from before a write to the cached fields. -/
theorem Desk.Runs.after_mapCtl {d : Desk} {f : Ctl → Ctl} {r : Ran Desk} {k : Ctl} {evs : List Event}
    (h : (d.mapCtl f).Runs r k evs) : d.Runs r k evs := by
  obtain ⟨d', he, hk, hd⟩ := h
  exact ⟨d', he, hk, (Desk.Did.mapCtl d f).trans hd⟩

theorem runs_done (d : Desk) : d.Runs (.done d) d.ctl [] := ⟨d, rfl, rfl, .refl d⟩

/-- A wait emits its one event. -/
theorem runs_wait (d : Desk) (t : Delay) (ht : t ≠ .pulse) : d.Runs (d.wait t) d.ctl [.wait t] := by
  exact ⟨_, rfl, rfl, ⟨by simpa [Event.ofController] using ht, rfl, rfl, rfl, by simp, rfl⟩⟩

/-- A transfer on a link that is not released: one `Xfer` event, and the byte on the link (R131, R118). -/
theorem runs_transfer {d : Desk} (h : d.Up) (v : Byte) (r : Bool) :
    d.Runs (d.transfer v r) d.ctl [.xfer d.idx v r d.ctl.backlight] := by
  have hs := send_done (b := (d.emitXfer v r).bus) (by simpa using h.notReleased) v r d.ctl.backlight
  have he : d.transfer v r = .done { d with bus :=
      { d.bus with
        lnk := { d.bus.lnk with pin := pinsAfter d.bus.lnk r v }
        lineOrders := d.bus.lineOrders.drop (pulses d.bus.lnk.mode)
        trace := (d.bus.trace ++ [.xfer d.idx v r d.ctl.backlight]) ++
          sendEvents d.bus.idx d.bus.lnk d.bus.lineOrders r v } } := by
    rw [Desk.transfer]
    simp only [emitXfer_ctl]
    rw [hs]
    rfl
  exact ⟨_, he, rfl, by simp [Event.ofController], rfl, rfl, by simp [pinsAfterAll], by simp,
    by simp [expand]⟩

/-- A transfer on a released link: the event is recorded and nothing else happens (D23). -/
theorem transfer_released {d : Desk} (h : d.bus.lnk.released = true) (v : Byte) (r : Bool) :
    d.transfer v r = .failed (d.emitXfer v r) .disposedError := by
  rw [Desk.transfer, send_released (by simpa using h)]
  rfl

theorem runs_sendCommand {d : Desk} (h : d.Up) (v : Byte) :
    d.Runs (d.sendCommand v) d.ctl [.xfer d.idx v false d.ctl.backlight] := runs_transfer h v false

theorem runs_sendData {d : Desk} (h : d.Up) (v : Byte) :
    d.Runs (d.sendData v) d.ctl [.xfer d.idx v true d.ctl.backlight] := runs_transfer h v true

/-- A buffer goes out byte by byte, in order (R170). -/
theorem runs_sendAll {d : Desk} (h : d.Up) (vs : List Byte) :
    d.Runs (d.sendAll vs) d.ctl (vs.map fun v => .xfer d.idx v true d.ctl.backlight) := by
  induction vs generalizing d with
  | nil => exact runs_done d
  | cons v vs ih =>
    refine (runs_sendData h v).andThen (ys := vs.map _) fun d' hk hd => ?_
    have := ih (hd.up h)
    rwa [hk, hd.idx] at this

theorem runs_pushDisplayControl {d : Desk} (h : d.Up) :
    d.Runs d.pushDisplayControl d.ctl [.xfer d.idx d.ctl.displayByte false d.ctl.backlight] :=
  runs_sendCommand h _

theorem runs_clear {d : Desk} (h : d.Up) :
    d.Runs d.clear d.ctl [.xfer d.idx 0x01#8 false d.ctl.backlight, .wait .clear] := by
  refine (runs_sendCommand h cmd.clearDisplay).andThen (ys := [.wait .clear]) fun d' hk _ => ?_
  have := runs_wait d' .clear (by decide)
  rwa [hk] at this

/-! ## Begin -/

/-- Begin's handshake in `FourBit` mode (R135). -/
theorem runs_handshake4 {d : Desk} (h : d.Up) :
    d.Runs d.handshake4 d.ctl
      [.xfer d.idx 0x03#8 false d.ctl.backlight, .wait .hsLong,
        .xfer d.idx 0x03#8 false d.ctl.backlight, .wait .hsLong,
        .xfer d.idx 0x03#8 false d.ctl.backlight, .wait .hs4Short,
        .xfer d.idx 0x02#8 false d.ctl.backlight] := by
  have send : ∀ (v : Byte) {x : Desk} {xs : List Event}, x.ctl = d.ctl → d.Did x xs →
      x.Runs (x.sendCommand v) d.ctl [.xfer d.idx v false d.ctl.backlight] := fun v x xs hk hd => by
    have := runs_sendCommand (hd.up h) v
    rwa [hk, hd.idx] at this
  have wait : ∀ (t : Delay), t ≠ .pulse → ∀ {x : Desk}, x.ctl = d.ctl →
      x.Runs (x.wait t) d.ctl [.wait t] := fun t ht x hk => by
    have := runs_wait x t ht
    rwa [hk] at this
  exact ((((((runs_sendCommand h 0x03#8).andThen fun _ hk _ => wait .hsLong (by decide) hk).andThen
    fun _ hk hd => send 0x03#8 hk hd).andThen fun _ hk _ => wait .hsLong (by decide) hk).andThen
    fun _ hk hd => send 0x03#8 hk hd).andThen fun _ hk _ => wait .hs4Short (by decide) hk).andThen
    fun _ hk hd => send 0x02#8 hk hd

theorem runs_sendFunctionSet {d : Desk} (h : d.Up) :
    d.Runs d.sendFunctionSet d.ctl
      [.xfer d.idx (functionSetByte d.ctl.displayFunction) false d.ctl.backlight] :=
  runs_sendCommand h _

/-- Begin's handshake in `EightBit` mode (R136). -/
theorem runs_handshake8 {d : Desk} (h : d.Up) :
    d.Runs d.handshake8 d.ctl
      [.xfer d.idx (functionSetByte d.ctl.displayFunction) false d.ctl.backlight, .wait .hsLong,
        .xfer d.idx (functionSetByte d.ctl.displayFunction) false d.ctl.backlight, .wait .hs8Short,
        .xfer d.idx (functionSetByte d.ctl.displayFunction) false d.ctl.backlight] := by
  have send : ∀ {x : Desk} {xs : List Event}, x.ctl = d.ctl → d.Did x xs →
      x.Runs x.sendFunctionSet d.ctl
        [.xfer d.idx (functionSetByte d.ctl.displayFunction) false d.ctl.backlight] := fun hk hd => by
    have := runs_sendFunctionSet (hd.up h)
    rwa [hk, hd.idx] at this
  have wait : ∀ (t : Delay), t ≠ .pulse → ∀ {x : Desk}, x.ctl = d.ctl →
      x.Runs (x.wait t) d.ctl [.wait t] := fun t ht x hk => by
    have := runs_wait x t ht
    rwa [hk] at this
  exact ((((runs_sendFunctionSet h).andThen fun _ hk _ => wait .hsLong (by decide) hk).andThen
    fun _ hk hd => send hk hd).andThen fun _ hk _ => wait .hs8Short (by decide) hk).andThen
    fun _ hk hd => send hk hd

/-- The controller-level trace of Begin, by mode (R132). -/
def beginTrace (fourBit : Bool) (c : Nat) (bl : Bool) (fs em : Byte) : List Event :=
  if fourBit then beginTrace4 c bl fs em else beginTrace8 c bl fs em

/-- Begin on a link that can send (R132). -/
theorem runs_begin {d : Desk} (h : d.Up) (columns rows : Nat) (ltr font : Bool) :
    d.Runs (d.begin columns rows ltr font)
      (ctlAfterBegin d.ctl d.bus.lnk.fourBitMode columns rows ltr font)
      (beginTrace d.bus.lnk.fourBitMode d.idx d.ctl.backlight
        (functionSetByte (displayFunctionFlags d.bus.lnk.fourBitMode rows font))
        (entryModeByte ltr false)) := by
  -- step 1 writes the cached geometry
  generalize hg : d.beginGeometry columns rows font = g
  have hgd : d.Did g [] := by rw [← hg]; exact .mapCtl _ _
  have hgu := hgd.up h
  have hgi : g.idx = d.idx := hgd.idx
  have hgb : g.ctl.backlight = d.ctl.backlight := by rw [← hg]; rfl
  have hgf : g.ctl.displayFunction = displayFunctionFlags d.bus.lnk.fourBitMode rows font := by
    rw [← hg]; rfl
  have hgm : ∀ {x : Desk} {xs : List Event}, g.Did x xs →
      x.bus.lnk.fourBitMode = d.bus.lnk.fourBitMode := fun hd => by
    rw [hd.lnk, ← hg]; rfl
  -- steps 2 to 4
  have s4 : g.Runs (((g.wait .warmup).andThen Desk.handshake).andThen Desk.sendFunctionSet) g.ctl
      ((if d.bus.lnk.fourBitMode then
        (beginTrace4 d.idx d.ctl.backlight
          (functionSetByte (displayFunctionFlags d.bus.lnk.fourBitMode rows font)) 0#8).take 9
        else (beginTrace8 d.idx d.ctl.backlight
          (functionSetByte (displayFunctionFlags d.bus.lnk.fourBitMode rows font)) 0#8).take 7)) := by
    have fs : ∀ {x : Desk} {xs : List Event}, x.ctl = g.ctl → g.Did x xs →
        x.Runs x.sendFunctionSet g.ctl [.xfer d.idx
          (functionSetByte (displayFunctionFlags d.bus.lnk.fourBitMode rows font)) false
          d.ctl.backlight] := fun hk hd => by
      have := runs_sendFunctionSet (hd.up hgu)
      rwa [hk, hd.idx, hgi, hgf, hgb] at this
    cases hf : d.bus.lnk.fourBitMode
    · have hs : ∀ {x : Desk} {xs : List Event}, x.ctl = g.ctl → g.Did x xs →
          x.Runs x.handshake g.ctl ((((beginTrace8 d.idx d.ctl.backlight
            (functionSetByte (displayFunctionFlags d.bus.lnk.fourBitMode rows font)) 0#8).take 6)).tail) :=
        fun {x xs} hk hd => by
          have := runs_handshake8 (hd.up hgu)
          rw [hk, hd.idx, hgi, hgf, hgb] at this
          have he : x.handshake = x.handshake8 := by rw [Desk.handshake, hgm hd, hf]; rfl
          rw [he]
          exact this
      rw [← hf]
      have := ((runs_wait g .warmup (by decide)).andThen fun _ hk hd => hs hk hd).andThen
        fun _ hk hd => fs hk hd
      simpa [hf, beginTrace8] using this
    · have hs : ∀ {x : Desk} {xs : List Event}, x.ctl = g.ctl → g.Did x xs →
          x.Runs x.handshake g.ctl ((((beginTrace4 d.idx d.ctl.backlight
            (functionSetByte (displayFunctionFlags d.bus.lnk.fourBitMode rows font)) 0#8).take 8)).tail) :=
        fun {x xs} hk hd => by
          have := runs_handshake4 (hd.up hgu)
          rw [hk, hd.idx, hgi, hgb] at this
          have he : x.handshake = x.handshake4 := by rw [Desk.handshake, hgm hd, hf]; rfl
          rw [he]
          exact this
      rw [← hf]
      have := ((runs_wait g .warmup (by decide)).andThen fun _ hk hd => hs hk hd).andThen
        fun _ hk hd => fs hk hd
      simpa [hf, beginTrace4] using this
  -- step 5
  let k5 : Ctl := { g.ctl with visible := true, showCursor := false, blinkCursor := false,
                               backlight := true }
  have s5 : ∀ {x : Desk} {xs : List Event}, x.ctl = g.ctl → g.Did x xs →
      x.Runs x.controlReset k5 [.xfer d.idx 0x0C#8 false true] := fun {x xs} hk hd => by
    refine Desk.Runs.after_mapCtl (f := fun c =>
      { c with visible := true, showCursor := false, blinkCursor := false, backlight := true }) ?_
    have := runs_pushDisplayControl ((Desk.Did.mapCtl x fun c =>
      { c with visible := true, showCursor := false, blinkCursor := false,
               backlight := true }).up (hd.up hgu))
    simp only [mapCtl_ctl, mapCtl_idx, hk, hd.idx, hgi] at this
    have hb : displayControlByte true false false = 0x0C#8 := by decide
    rw [Ctl.displayByte, hb] at this
    exact this
  -- step 6
  have s6 : ∀ {x : Desk} {xs : List Event}, x.ctl = k5 → g.Did x xs →
      x.Runs x.clear k5 [.xfer d.idx 0x01#8 false true, .wait .clear] := fun hk hd => by
    have := runs_clear (hd.up hgu)
    rwa [hk, hd.idx, hgi] at this
  -- step 7
  let k7 : Ctl := { k5 with leftToRight := ltr, shiftOnWrite := false }
  have s7 : ∀ {x : Desk} {xs : List Event}, x.ctl = k5 → g.Did x xs →
      x.Runs (x.entryMode ltr) k7 [.xfer d.idx (entryModeByte ltr false) false true] :=
    fun {x xs} hk hd => by
      refine Desk.Runs.after_mapCtl (f := fun c => { c with leftToRight := ltr, shiftOnWrite := false }) ?_
      have := runs_sendCommand ((Desk.Did.mapCtl x fun c =>
        { c with leftToRight := ltr, shiftOnWrite := false }).up (hd.up hgu)) (entryModeByte ltr false)
      simp only [mapCtl_ctl, mapCtl_idx, hk, hd.idx, hgi] at this
      exact this
  have s8 : ∀ {x : Desk}, x.ctl = k7 → x.Runs x.becomeReady { k7 with phase := .ready } [] :=
    fun {x} hk => by
      refine Desk.Runs.after_mapCtl (f := fun c => { c with phase := .ready }) ?_
      have := runs_done (x.mapCtl fun c => { c with phase := .ready })
      rwa [mapCtl_ctl, hk] at this
  have all := (((s4.andThen fun _ hk hd => s5 hk hd).andThen fun _ hk hd => s6 hk hd).andThen
    fun _ hk hd => s7 hk hd).andThen fun _ hk _ => s8 hk
  have hk : ({ k7 with phase := .ready } : Ctl) =
      ctlAfterBegin d.ctl d.bus.lnk.fourBitMode columns rows ltr font := by
    simp only [k7, k5, ← hg]; rfl
  rw [hk] at all
  have hrun : d.begin columns rows ltr font = (((((((g.wait .warmup).andThen Desk.handshake).andThen
      Desk.sendFunctionSet).andThen Desk.controlReset).andThen Desk.clear).andThen
      (Desk.entryMode ltr)).andThen Desk.becomeReady) := by rw [← hg]; rfl
  rw [hrun]
  obtain ⟨d', he, hk', hd'⟩ := all
  refine ⟨d', he, hk', ?_⟩
  have := hgd.trans hd'
  cases hf : d.bus.lnk.fourBitMode <;>
    simpa [hf, beginTrace, beginTrace4, beginTrace8] using this

/-- Begin on a released link: geometry and flags are written, the warm-up is made, and the first transfer
fails (R132, D22, D35). -/
theorem begin_released {d : Desk} (h : d.bus.lnk.released = true) (columns rows : Nat) (ltr font : Bool) :
    d.begin columns rows ltr font = .failed
      { d with
        bus := { d.bus with trace := d.bus.trace ++ [.wait .warmup, .xfer d.idx
          (if d.bus.lnk.fourBitMode then 0x03#8
            else functionSetByte (displayFunctionFlags d.bus.lnk.fourBitMode rows font))
          false d.ctl.backlight] }
        ctl := { d.ctl with
          numCols := columns
          numRows := rows
          displayFunction := displayFunctionFlags d.bus.lnk.fourBitMode rows font } } .disposedError := by
  have hx : ∀ (x : Desk) (v : Byte), x.bus.lnk = d.bus.lnk →
      x.sendCommand v = .failed (x.emitXfer v false) .disposedError := fun x v hl =>
    transfer_released (by rw [hl]; exact h) v false
  let g : Desk := { bus := (d.beginGeometry columns rows font).bus.emitWait .warmup, idx := d.idx,
                    ctl := (d.beginGeometry columns rows font).ctl }
  have hgl : g.bus.lnk = d.bus.lnk := rfl
  have hw : (d.beginGeometry columns rows font).wait .warmup = .done g := rfl
  simp only [Desk.begin, hw, andThen_done, Desk.handshake, hgl]
  cases hf : d.bus.lnk.fourBitMode
  · simp only [Bool.false_eq_true, if_false, Desk.handshake8, Desk.sendFunctionSet, hx g _ hgl,
      andThen_failed]
    simp [g, Desk.emitXfer, Desk.beginGeometry, Desk.mapCtl, Bus.emitWait, hf]
  · simp only [if_true, Desk.handshake4, hx g _ hgl, andThen_failed]
    simp [g, Desk.emitXfer, Desk.beginGeometry, Desk.mapCtl, Bus.emitWait, hf, cmd]

end Sys2Proof.Machine
end

