-- ==== Sys2Proof/Laws/Exec.lean ====
section
/-! SUPPORT. How an operation starts and ends: the answer of a whole link or controller operation from what
its body does. -/

namespace Sys2Proof.Machine

open Sys2Proof.Config

/-- Setting a place of a list to what stands there. -/
theorem list_set_self {α : Type} {xs : List α} {n : Nat} {a : α} (h : xs[n]? = some a) :
    xs.set n a = xs := by
  obtain ⟨hn, rfl⟩ := List.getElem?_eq_some_iff.1 h
  exact List.set_getElem_self hn

/-- The view a link operation starts with. -/
def State.busOf (s : State) (l : Nat) (k : Link) : Bus :=
  { idx := l, lnk := k, lineOrders := s.lineOrders, trace := s.trace }

/-- The view a controller operation starts with. -/
def State.deskOf (s : State) (c : Nat) (k : Ctl) (lk : Link) : Desk :=
  { bus := s.busOf k.link lk, idx := c, ctl := k }

section Views
variable (s : State) (l c : Nat) (k : Ctl) (lk : Link)

@[simp] theorem busOf_idx : (s.busOf l lk).idx = l := rfl
@[simp] theorem busOf_lnk : (s.busOf l lk).lnk = lk := rfl
@[simp] theorem busOf_lineOrders : (s.busOf l lk).lineOrders = s.lineOrders := rfl
@[simp] theorem busOf_trace : (s.busOf l lk).trace = s.trace := rfl
@[simp] theorem deskOf_bus : (s.deskOf c k lk).bus = s.busOf k.link lk := rfl
@[simp] theorem deskOf_idx : (s.deskOf c k lk).idx = c := rfl
@[simp] theorem deskOf_ctl : (s.deskOf c k lk).ctl = k := rfl

end Views

section Starts
variable {s : State} {l c : Nat} {k : Ctl} {lk : Link}

theorem onLink_eq (h : s.links[l]? = some lk) (op : Bus → Answer) :
    s.onLink l op = op (s.busOf l lk) := by
  rw [State.onLink, busAt_some (h := h)]; rfl

theorem onLink_none (h : s.links[l]? = none) (op : Bus → Answer) :
    s.onLink l op = .refused .noSuchLink := by
  rw [State.onLink, busAt_none (h := h)]

theorem onCtl_eq (hc : s.ctls[c]? = some k) (hl : s.links[k.link]? = some lk) (op : Desk → Answer) :
    s.onCtl c op = op (s.deskOf c k lk) := by
  rw [State.onCtl, hc]
  simp only [busAt_some (h := hl)]
  rfl

theorem onReady_eq (hc : s.ctls[c]? = some k) (hl : s.links[k.link]? = some lk) (hp : k.phase = .ready)
    (op : Desk → Answer) : s.onReady c op = op (s.deskOf c k lk) := by
  rw [State.onReady, onCtl_eq hc hl]
  simp [hp]

theorem onReady_uninitialized (hc : s.ctls[c]? = some k) (hl : s.links[k.link]? = some lk)
    (hp : k.phase = .uninitialized) (op : Desk → Answer) : s.onReady c op = .refused .notReady := by
  rw [State.onReady, onCtl_eq hc hl]
  simp [hp]

/-- A link operation answers a next state only for a link that exists. -/
theorem onLink_next {t : State} {op : Bus → Answer} (h : s.onLink l op = .next t) :
    ∃ lk, s.links[l]? = some lk ∧ op (s.busOf l lk) = .next t := by
  cases hl : s.links[l]? with
  | none => rw [onLink_none hl] at h; cases h
  | some lk => exact ⟨lk, rfl, by rwa [onLink_eq hl] at h⟩

/-- A controller operation answers a next state only for a controller and a link that exist. -/
theorem onCtl_next {t : State} {op : Desk → Answer} (h : s.onCtl c op = .next t) :
    ∃ k lk, s.ctls[c]? = some k ∧ s.links[k.link]? = some lk ∧ op (s.deskOf c k lk) = .next t := by
  cases hc : s.ctls[c]? with
  | none => rw [State.onCtl, hc] at h; cases h
  | some k =>
    cases hl : s.links[k.link]? with
    | none => rw [State.onCtl, hc] at h; simp only [busAt_none (h := hl)] at h; cases h
    | some lk => exact ⟨k, lk, rfl, hl, by rwa [onCtl_eq hc hl] at h⟩

/-- A host operation with the precondition of R193 answers a next state only in the phase `Ready`. -/
theorem onReady_next {t : State} {op : Desk → Answer} (h : s.onReady c op = .next t) :
    ∃ k lk, s.ctls[c]? = some k ∧ s.links[k.link]? = some lk ∧ k.phase = .ready ∧
      op (s.deskOf c k lk) = .next t := by
  obtain ⟨k, lk, hc, hl, h⟩ := onCtl_next h
  cases hp : k.phase with
  | uninitialized => simp [hp] at h
  | ready => exact ⟨k, lk, hc, hl, hp, by simpa [hp] using h⟩

theorem State.CtlUp.desk (h : s.CtlUp c k lk) : (s.deskOf c k lk).Up := ⟨h.2.2.1⟩

/-- The views of an operation put back unchanged are the state. -/
theorem putDesk_deskOf (hc : s.ctls[c]? = some k) (hl : s.links[k.link]? = some lk) :
    s.putDesk (s.deskOf c k lk) = s := by
  simp [State.putDesk, State.putBus, State.deskOf, State.busOf, list_set_self hc, list_set_self hl]

theorem putBus_busOf (hl : s.links[l]? = some lk) : s.putBus (s.busOf l lk) = s := by
  simp [State.putBus, State.busOf, list_set_self hl]

/-- The four setters as one operation of the property (R151 to R154). -/
theorem exec_setter (p : Property) (c : Nat) (b : Bool) (s : State) :
    exec (setter p c b) s =
      s.runReady c (Desk.setFlag (·.property p) (fun k b => k.withProperty p b) b) := by
  cases p <;> rfl

end Starts

/-- The state a completed controller operation leaves: record `k'`, controller-level events `evs`. -/
def State.afterCtl (s : State) (c : Nat) (k' : Ctl) (l : Nat) (lk : Link) (evs : List Event)
    (o : OpOutcome) : State :=
  { s with
    links := s.links.set l { lk with pin := pinsAfterAll lk (xfersOf evs) }
    ctls := s.ctls.set c k'
    lineOrders := s.lineOrders.drop ((xfersOf evs).length * pulses lk.mode)
    trace := s.trace ++ expand l lk s.lineOrders evs
    outcome := o }

/-- A completed controller operation (R20): its answer, and everything it leaves. -/
theorem endDesk_eq {s : State} {c : Nat} {k k' : Ctl} {lk : Link} {r : Ran Desk} {evs : List Event}
    (o : OpOutcome) (h : (s.deskOf c k lk).Runs r k' evs) :
    s.endDesk o r = .next (s.afterCtl c k' k.link lk evs o) ∧
      ∀ e ∈ evs, e.ofController = true := by
  obtain ⟨d, rfl, rfl, hd⟩ := h
  refine ⟨?_, hd.own⟩
  simp only [State.endDesk, State.putDesk, State.putBus, State.answer, State.afterCtl, hd.idx, hd.busIdx,
    hd.lnk, hd.orders, hd.trace]
  rfl

theorem afterCtl_sent {s : State} {c : Nat} {k' : Ctl} {lk : Link} {evs : List Event} {o : OpOutcome}
    (hlg : legalPins lk.mode lk.assigned = true) (he : ∀ e ∈ evs, e.ofController = true) :
    CtlSent s (s.afterCtl c k' k'.link lk evs o) c k' lk evs :=
  ⟨rfl, rfl, ⟨_, rfl, controllerTrace_expand _ _ _ he, (shows_expand _ hlg _ he).transfers_eq,
    withSends_expand ..⟩, rfl, rfl, rfl⟩

theorem endDesk_runs {s : State} {c : Nat} {k k' : Ctl} {lk : Link} {r : Ran Desk} {evs : List Event}
    (o : OpOutcome) (hlg : legalPins lk.mode lk.assigned = true)
    (h : (s.deskOf c k lk).Runs r k' evs) (hl : k'.link = k.link) :
    ∃ t, s.endDesk o r = .next t ∧ t.outcome = o ∧ CtlSent s t c k' lk evs := by
  obtain ⟨he, ho⟩ := endDesk_eq o h
  exact ⟨_, he, rfl, hl ▸ afterCtl_sent hlg ho⟩

/-- The least time a completed controller operation takes (R229). -/
theorem endDesk_runs_minDuration {s t : State} {c : Nat} {k k' : Ctl} {lk : Link} {r : Ran Desk}
    {evs tr : List Event} {o : OpOutcome} (h : (s.deskOf c k lk).Runs r k' evs)
    (he : s.endDesk o r = .next t) (ht : t.trace = s.trace ++ tr) :
    minDuration tr = minDuration evs + (xfersOf evs).length * (pulses lk.mode * duration .pulse) := by
  rw [(endDesk_eq o h).1] at he
  cases he
  rw [← List.append_cancel_left ht, minDuration_expand]

/-- A controller operation cut short at a transfer on a released link (R196). -/
theorem endDesk_failed {s : State} {c : Nat} {k k' : Ctl} {lk : Link} {o : OpOutcome} {evs : List Event}
    (hl : s.links[k.link]? = some lk) :
    s.endDesk o (.failed { bus := { s.busOf k.link lk with trace := s.trace ++ evs }, idx := c, ctl := k' }
      .disposedError) = .next (disposed s c k' evs) := by
  simp [State.endDesk, disposed, State.putDesk, State.putBus, State.busOf, list_set_self hl,
    State.raiseError]

/-- A completed `Send` on a link (R112). -/
theorem runSend_up {s : State} {l : Nat} {k : Link} (h : s.LinkUp l k) (v : Byte) (r bl : Bool) :
    ∃ t, s.runSend l v r bl = .next t ∧ t.outcome = .ok ∧ LinkSent s t l k [(r, v)] := by
  refine ⟨_, by rw [State.runSend, onLink_eq h.1, send_done (by simpa using h.2.1)]; rfl, rfl, ?_⟩
  refine ⟨by simp [pinsAfterAll], ⟨sendEvents l k s.lineOrders r v, rfl, controllerTrace_send .., ?_⟩,
    by simp, rfl, rfl, rfl⟩
  exact ⟨(shows_send h.2.2 l s.lineOrders r v).transfers_eq, _, [], (List.append_nil _).symm,
    isSend_sendEvents .., rfl⟩

/-- A `Send` on a released link (R112, D11). -/
theorem runSend_down {s : State} {l : Nat} {k : Link} (h : s.links[l]? = some k) (hr : k.released = true)
    (v : Byte) (r bl : Bool) : s.runSend l v r bl = .next { s with outcome := .error .disposedError } := by
  rw [State.runSend, onLink_eq h, send_released (by simpa using hr)]
  simp [State.endBus, State.putBus, State.busOf, list_set_self h, State.raiseError]

/-- A controller's single transfer on a released link. -/
theorem endDesk_transfer_down {s : State} {c : Nat} {k : Ctl} {lk : Link} {o : OpOutcome}
    (hl : s.links[k.link]? = some lk) (hr : lk.released = true) (v : Byte) (r : Bool)
    (f : Desk → Ran Desk) :
    s.endDesk o (((s.deskOf c k lk).transfer v r).andThen f) =
      .next (disposed s c k [.xfer c v r k.backlight]) := by
  rw [transfer_released (by simpa using hr), andThen_failed, ← endDesk_failed (o := o) hl]
  rfl

theorem ran_andThen_done {σ : Type} (r : Ran σ) : r.andThen .done = r := by cases r <;> rfl

end Sys2Proof.Machine
end

