-- ==== Sys2Proof/Laws/Plan.lean ====
section
/-! SUPPORT. What every controller operation does, said once as data: the record it leaves and the events it
emits on a link that is not released, and where it stops on a released one. Claims over all operations
go through the three theorems of this file instead of unfolding a meaning. -/

namespace Sys2Proof.Machine

open Sys2Proof.Config

/-- The record and the events of a setter (R151 to R154). -/
def setPlan (p : Property) (c : Nat) (b : Bool) (k : Ctl) : Ctl × List Event :=
  if k.property p = b then (k, [])
  else (k.withProperty p b,
    [.xfer c (k.withProperty p b).displayByte false (k.withProperty p b).backlight])

/-- A plan with the precondition of R193. -/
def Ctl.whenReady (k : Ctl) (x : Ctl × List Event) : Option (Ctl × List Event) :=
  match k.phase with
  | .ready => some x
  | .uninitialized => none

/-- A command with the cached backlight (R131). -/
def Ctl.command (k : Ctl) (c : Nat) (v : Byte) : Event := .xfer c v false k.backlight

/-- The transfers of a list of data bytes (R170). -/
def Ctl.dataBytes (k : Ctl) (c : Nat) (vs : List Byte) : List Event :=
  vs.map fun v => .xfer c v true k.backlight

/-- What an operation of an existing controller leaves and emits on a link that is not released; `none`
where it is refused, and for operations of a link and `Construct`. -/
def plan (k : Ctl) (lk : Link) : Instr → Option (Ctl × List Event)
  | .sendCommand c v => some (k, [k.command c v])
  | .sendData c v => some (k, [.xfer c v true k.backlight])
  | .pushDisplayControl c => some (k, [k.command c k.displayByte])
  | .beginOp c cols rows ltr font =>
    if rowsLegal rows then
      some (ctlAfterBegin k lk.fourBitMode cols rows ltr font,
        beginTrace lk.fourBitMode c k.backlight
          (functionSetByte (displayFunctionFlags lk.fourBitMode rows font)) (entryModeByte ltr false))
    else none
  | .setVisible c b => k.whenReady (setPlan .visible c b k)
  | .setShowCursor c b => k.whenReady (setPlan .showCursor c b k)
  | .setBlinkCursor c b => k.whenReady (setPlan .blinkCursor c b k)
  | .setBacklight c b => k.whenReady (setPlan .backlight c b k)
  | .getProperty _ _ => k.whenReady (k, [])
  | .clear c => k.whenReady (k, [k.command c cmd.clearDisplay, .wait .clear])
  | .home c => k.whenReady (k, [k.command c cmd.returnHome, .wait .home])
  | .setCursorPosition c col row => k.whenReady (k, [k.command c (ddramByte k.numRows col row)])
  | .writeBytes c buf => k.whenReady (k, k.dataBytes c buf)
  | .writeText c text => k.whenReady (k, k.dataBytes c (encodeText k.encode text))
  | .createChar c slot bm off =>
    if bitmapLegal bm off then
      k.whenReady (k, k.command c (cgramByte slot) :: k.dataBytes c (glyphBytes bm off))
    else none
  | .scrollDisplayLeft c => k.whenReady (k, [k.command c (cursorShiftByte true false)])
  | .scrollDisplayRight c => k.whenReady (k, [k.command c (cursorShiftByte true true)])
  | .moveCursor c right => k.whenReady (k, [k.command c (cursorShiftByte false right)])
  | .clearDisplay _ | .returnHome _ | .entryModeSet _ _ _ | .displayControl _ _ _ _
  | .cursorShift _ _ _ | .functionSet _ _ _ _ | .setCgramAddr _ _ | .setDdramAddr _ _ | .data _ _
  | .hsProbe _ | .hsCommit4 _ | .linkConstruct _ _ | .fourBitMode _ | .send _ _ _ _ | .release _
  | .writeData8 _ _ | .writeNibble _ _ | .enablePulse _ | .construct _ => none

/-- The record a controller operation leaves when its first transfer fails: Begin has written its geometry
(D22), a setter its flag (D23), all others nothing. -/
def cutCtl (k : Ctl) (lk : Link) : Instr → Ctl
  | .beginOp _ cols rows _ font =>
    { k with
      numCols := cols, numRows := rows,
      displayFunction := displayFunctionFlags lk.fourBitMode rows font }
  | .setVisible _ b => k.withProperty .visible b
  | .setShowCursor _ b => k.withProperty .showCursor b
  | .setBlinkCursor _ b => k.withProperty .blinkCursor b
  | .setBacklight _ b => k.withProperty .backlight b
  | _ => k

/-- The events up to and with the first transfer; `none` where there is no transfer. -/
def cutEvents : List Event → Option (List Event)
  | [] => none
  | .xfer c v r bl :: _ => some [.xfer c v r bl]
  | e :: es => (cutEvents es).map (e :: ·)

/-- The answer of a controller operation that ends `ok` (R20). -/
def okOutcome (k : Ctl) : Instr → OpOutcome
  | .getProperty _ p => .okBool (k.property p)
  | _ => .ok

section Plan
variable {s : State} {c : Nat} {k : Ctl} {lk : Link}

theorem whenReady_some {x y : Ctl × List Event} (h : k.whenReady x = some y) :
    k.phase = .ready ∧ x = y := by
  cases hp : k.phase <;> simp_all [Ctl.whenReady]

/-- The body of a setter on a link that is not released. -/
theorem runs_setFlag {d : Desk} (h : d.Up) (p : Property) (b : Bool) :
    d.Runs (d.setFlag (·.property p) (fun k b => k.withProperty p b) b)
      (setPlan p d.idx b d.ctl).1 (setPlan p d.idx b d.ctl).2 := by
  by_cases hb : d.ctl.property p = b
  · simpa [Desk.setFlag, setPlan, hb] using runs_done d
  · simp only [Desk.setFlag, setPlan, hb, beq_iff_eq, if_false]
    refine Desk.Runs.after_mapCtl (f := fun c => c.withProperty p b) ?_
    exact runs_pushDisplayControl ((Desk.Did.mapCtl d _).up h)

/-- CreateChar's transfers on a link that is not released (R173). -/
theorem runs_glyph {d : Desk} (h : d.Up) (slot : Nat) (vs : List Byte) :
    d.Runs ((d.sendCommand (cgramByte slot)).andThen (Desk.sendAll vs)) d.ctl
      (d.ctl.command d.idx (cgramByte slot) :: d.ctl.dataBytes d.idx vs) :=
  (runs_sendCommand h (cgramByte slot)).andThen (ys := d.ctl.dataBytes d.idx vs) fun d' hk hd => by
    have := runs_sendAll (hd.up h) vs
    rwa [hk, hd.idx] at this

/-- A transfer and a wait, on a link that is not released. -/
theorem runs_sendThenWait {d : Desk} (h : d.Up) (v : Byte) (w : Delay) (hw : w ≠ .pulse) :
    d.Runs ((d.sendCommand v).andThen (Desk.wait w)) d.ctl [d.ctl.command d.idx v, .wait w] :=
  (runs_sendCommand h v).andThen (ys := [.wait w]) fun d' hk _ => by
    have := runs_wait d' w hw
    rwa [hk] at this

/-- An operation of a controller on a link that is not released does exactly its plan. -/
theorem exec_plan {i : Instr} {k' : Ctl} {evs : List Event} (hi : ctlOf s i = some c)
    (hc : s.ctls[c]? = some k) (hl : s.links[k.link]? = some lk) (hr : lk.released = false)
    (hp : plan k lk i = some (k', evs)) :
    exec i s = .next (s.afterCtl c k' k.link lk evs (okOutcome k i)) := by
  have hu : (s.deskOf c k lk).Up := ⟨hr⟩
  have ready : ∀ {op : Desk → Ran Desk} {x : Ctl × List Event}, k.whenReady x = some (k', evs) →
      (s.deskOf c k lk).Runs (op (s.deskOf c k lk)) x.1 x.2 →
      s.runReady c op = .next (s.afterCtl c k' k.link lk evs .ok) :=
    fun h hrun => by
      obtain ⟨hph, rfl⟩ := whenReady_some h
      rw [State.runReady, onReady_eq hc hl hph]
      exact (endDesk_eq .ok hrun).1
  cases i <;> simp only [plan, ctlOf, Option.some.injEq, reduceCtorEq, Prod.mk.injEq] at hp hi
  all_goals subst hi
  case sendCommand v =>
    obtain ⟨rfl, rfl⟩ := hp
    simp only [exec, execSendCommand, onCtl_eq hc hl]
    exact (endDesk_eq .ok (runs_sendCommand hu v)).1
  case sendData v =>
    obtain ⟨rfl, rfl⟩ := hp
    simp only [exec, execSendData, onCtl_eq hc hl]
    exact (endDesk_eq .ok (runs_sendData hu v)).1
  case pushDisplayControl =>
    obtain ⟨rfl, rfl⟩ := hp
    simp only [exec, execPushDisplayControl, onCtl_eq hc hl]
    exact (endDesk_eq .ok (runs_pushDisplayControl hu)).1
  case beginOp cols rows ltr font =>
    split at hp
    · simp only [Option.some.injEq, Prod.mk.injEq] at hp
      obtain ⟨rfl, rfl⟩ := hp
      simp only [exec, execBegin, onCtl_eq hc hl, *, if_true]
      exact (endDesk_eq .ok (runs_begin hu cols rows ltr font)).1
    · simp at hp
  case setVisible b => exact ready hp (runs_setFlag hu .visible b)
  case setShowCursor b => exact ready hp (runs_setFlag hu .showCursor b)
  case setBlinkCursor b => exact ready hp (runs_setFlag hu .blinkCursor b)
  case setBacklight b => exact ready hp (runs_setFlag hu .backlight b)
  case getProperty p =>
    obtain ⟨hph, he⟩ := whenReady_some hp
    cases he
    simp only [exec, execGetProperty, onReady_eq hc hl hph]
    simp [State.afterCtl, list_set_self hc, list_set_self hl, expand, State.answer, okOutcome]
  case clear => exact ready hp (runs_sendThenWait hu cmd.clearDisplay .clear (by decide))
  case home =>
    exact ready (op := fun d => (d.sendCommand cmd.returnHome).andThen (Desk.wait .home)) hp
      (runs_sendThenWait hu cmd.returnHome .home (by decide))
  case setCursorPosition col row => exact ready (op := fun d => d.sendCommand (ddramByte d.ctl.numRows col row)) hp (runs_sendCommand hu _)
  case writeBytes buf => exact ready hp (runs_sendAll hu _)
  case writeText text =>
    exact ready (op := fun d => d.sendAll (encodeText d.ctl.encode text)) hp (runs_sendAll hu _)
  case createChar slot bm off =>
    split at hp
    · obtain ⟨hph, he⟩ := whenReady_some hp
      cases he
      simp only [exec, execCreateChar, onReady_eq hc hl hph, *, if_true]
      exact (endDesk_eq .ok (runs_glyph hu slot _)).1
    · simp at hp
  case scrollDisplayLeft => exact ready hp (runs_sendCommand hu _)
  case scrollDisplayRight => exact ready hp (runs_sendCommand hu _)
  case moveCursor right => exact ready hp (runs_sendCommand hu _)

/-- An operation of a controller on a released link: up to its first transfer, which fails; complete where
it has none. -/
theorem exec_plan_released {i : Instr} {k' : Ctl} {evs : List Event} (hi : ctlOf s i = some c)
    (hc : s.ctls[c]? = some k) (hl : s.links[k.link]? = some lk) (hr : lk.released = true)
    (hp : plan k lk i = some (k', evs)) :
    exec i s = .next (match cutEvents evs with
      | some cut => disposed s c (cutCtl k lk i) cut
      | none => { s with outcome := okOutcome k i }) := by
  have quiet : s.endDesk .ok (.done (s.deskOf c k lk)) = .next { s with outcome := .ok } := by
    simp [State.endDesk, putDesk_deskOf hc hl, State.answer]
  have one : ∀ (v : Byte) (r : Bool), s.endDesk .ok ((s.deskOf c k lk).transfer v r) =
      .next (disposed s c k [.xfer c v r k.backlight]) := fun v r => by
    rw [transfer_released (by simpa using hr), ← endDesk_failed (o := .ok) hl]; rfl
  have all : ∀ vs, s.endDesk .ok ((s.deskOf c k lk).sendAll vs) =
      .next (match cutEvents (k.dataBytes c vs) with
        | some cut => disposed s c k cut
        | none => { s with outcome := .ok }) := fun vs => by
    cases vs with
    | nil => exact quiet
    | cons v vs => exact endDesk_transfer_down hl hr v true _
  have set : ∀ (p : Property) (b : Bool), k.phase = .ready → exec (setter p c b) s =
      .next (match cutEvents (setPlan p c b k).2 with
        | some cut => disposed s c (k.withProperty p b) cut
        | none => { s with outcome := .ok }) := fun p b hph => by
    rw [exec_setter, State.runReady, onReady_eq hc hl hph]
    by_cases hb : k.property p = b
    · simpa [Desk.setFlag, setPlan, hb, cutEvents] using quiet
    · simp only [Desk.setFlag, setPlan, deskOf_ctl, hb, beq_iff_eq, if_false, cutEvents,
        Desk.pushDisplayControl, Desk.sendCommand]
      rw [transfer_released (by simpa using hr)]
      exact endDesk_failed hl
  cases i <;> simp only [plan, ctlOf, Option.some.injEq, reduceCtorEq, Prod.mk.injEq] at hp hi
  all_goals subst hi
  case sendCommand v =>
    obtain ⟨rfl, rfl⟩ := hp
    simp only [exec, execSendCommand, onCtl_eq hc hl]
    exact one v false
  case sendData v =>
    obtain ⟨rfl, rfl⟩ := hp
    simp only [exec, execSendData, onCtl_eq hc hl]
    exact one v true
  case pushDisplayControl =>
    obtain ⟨rfl, rfl⟩ := hp
    simp only [exec, execPushDisplayControl, onCtl_eq hc hl]
    exact one _ false
  case beginOp ctl cols rows ltr font =>
    split at hp
    · simp only [Option.some.injEq, Prod.mk.injEq] at hp
      obtain ⟨rfl, rfl⟩ := hp
      simp only [exec, execBegin, onCtl_eq hc hl, *, if_true]
      rw [begin_released (by simpa using hr)]
      simp only [deskOf_bus, busOf_lnk]
      have hcut : cutEvents (beginTrace lk.fourBitMode ctl k.backlight
          (functionSetByte (displayFunctionFlags lk.fourBitMode rows font)) (entryModeByte ltr false)) =
          some [.wait .warmup, .xfer ctl (if lk.fourBitMode then 0x03#8
            else functionSetByte (displayFunctionFlags lk.fourBitMode rows font)) false k.backlight] := by
        cases lk.fourBitMode <;> rfl
      rw [hcut]
      exact endDesk_failed hl
    · simp at hp
  case setVisible b =>
    obtain ⟨hph, he⟩ := whenReady_some hp
    have := set .visible b hph; rw [he] at this; exact this
  case setShowCursor b =>
    obtain ⟨hph, he⟩ := whenReady_some hp
    have := set .showCursor b hph; rw [he] at this; exact this
  case setBlinkCursor b =>
    obtain ⟨hph, he⟩ := whenReady_some hp
    have := set .blinkCursor b hph; rw [he] at this; exact this
  case setBacklight b =>
    obtain ⟨hph, he⟩ := whenReady_some hp
    have := set .backlight b hph; rw [he] at this; exact this
  case getProperty p =>
    obtain ⟨hph, he⟩ := whenReady_some hp
    cases he
    simp only [exec, execGetProperty, onReady_eq hc hl hph]
    rfl
  case createChar slot bm off =>
    split at hp
    · obtain ⟨hph, he⟩ := whenReady_some hp
      cases he
      simp only [exec, execCreateChar, onReady_eq hc hl hph, *, if_true]
      exact endDesk_transfer_down hl hr _ _ _
    · simp at hp
  all_goals
    obtain ⟨hph, he⟩ := whenReady_some hp
    cases he
  case clear =>
    simp only [exec, execClear, State.runReady, onReady_eq hc hl hph]
    exact endDesk_transfer_down hl hr _ _ _
  case home =>
    simp only [exec, execHome, State.runReady, onReady_eq hc hl hph]
    exact endDesk_transfer_down hl hr _ _ _
  case setCursorPosition col row =>
    simp only [exec, execSetCursorPosition, State.runReady, onReady_eq hc hl hph]
    exact one _ false
  case writeBytes buf =>
    simp only [exec, execWriteBytes, State.runReady, onReady_eq hc hl hph]
    exact all _
  case writeText text =>
    simp only [exec, execWriteText, State.runReady, onReady_eq hc hl hph]
    exact all _
  case scrollDisplayLeft =>
    simp only [exec, execScrollDisplayLeft, State.runReady, onReady_eq hc hl hph]
    exact one _ false
  case scrollDisplayRight =>
    simp only [exec, execScrollDisplayRight, State.runReady, onReady_eq hc hl hph]
    exact one _ false
  case moveCursor right =>
    simp only [exec, execMoveCursor, State.runReady, onReady_eq hc hl hph]
    exact one _ false

/-- Where an operation of a controller stops, when it has no plan (R193, R132, R173). -/
def stopOf (k : Ctl) : Instr → Refusal
  | .beginOp _ _ _ _ _ => .rowsOutOfRange
  | .createChar _ _ _ _ =>
    match k.phase with
    | .ready => .bitmapTooShort
    | .uninitialized => .notReady
  | _ => .notReady

/-- An operation of a controller without a plan is refused. -/
theorem exec_no_plan {i : Instr} (hi : ctlOf s i = some c) (hc : s.ctls[c]? = some k)
    (hl : s.links[k.link]? = some lk) (hp : plan k lk i = none) : exec i s = .refused (stopOf k i) := by
  have ready : ∀ {op : Desk → Answer} {x}, k.whenReady x = none → s.onReady c op = .refused .notReady :=
    fun {op x} h => by
      cases hph : k.phase with
      | ready => simp [Ctl.whenReady, hph] at h
      | uninitialized => exact onReady_uninitialized hc hl hph op
  cases i <;> simp only [plan, ctlOf, Option.some.injEq, reduceCtorEq] at hp hi
  case construct => subst hi; simp at hc
  all_goals subst hi
  case beginOp =>
    split at hp
    · cases hp
    · simp only [exec, execBegin, onCtl_eq hc hl, *, Bool.false_eq_true, if_false, stopOf]
  case createChar =>
    simp only [exec, execCreateChar, stopOf]
    cases hph : k.phase with
    | uninitialized => exact onReady_uninitialized hc hl hph _
    | ready =>
      rw [onReady_eq hc hl hph]
      split at hp
      · simp [Ctl.whenReady, hph] at hp
      · simp only [*, Bool.false_eq_true, if_false]
  all_goals
    simp only [exec, execSetVisible, execSetShowCursor, execSetBlinkCursor, execSetBacklight,
      execGetProperty, execClear, execHome, execSetCursorPosition, execWriteBytes, execWriteText,
      execScrollDisplayLeft, execScrollDisplayRight, execMoveCursor, State.runReady]
    exact ready hp

/-- An operation of a controller that was never constructed. -/
theorem exec_no_ctl {i : Instr} (hi : ctlOf s i = some c) (hn : ∀ l, i ≠ .construct l)
    (hc : s.ctls[c]? = none) : exec i s = .refused .noSuchController := by
  cases i <;> simp only [ctlOf, Option.some.injEq, reduceCtorEq] at hi
  case construct l => exact absurd rfl (hn l)
  all_goals
    subst hi
    simp only [exec, execSendCommand, execSendData, execPushDisplayControl, execBegin, execSetVisible,
      execSetShowCursor, execSetBlinkCursor, execSetBacklight, execGetProperty, execClear, execHome,
      execSetCursorPosition, execWriteBytes, execWriteText, execCreateChar, execScrollDisplayLeft,
      execScrollDisplayRight, execMoveCursor, State.runReady, State.onReady, State.onCtl, hc]

/-- An operation of a controller whose link is not in the state. -/
theorem exec_no_link {i : Instr} (hi : ctlOf s i = some c) (hc : s.ctls[c]? = some k)
    (hl : s.links[k.link]? = none) : exec i s = .fault .danglingLink := by
  cases i <;> simp only [ctlOf, Option.some.injEq, reduceCtorEq] at hi
  case construct => subst hi; simp at hc
  all_goals
    subst hi
    simp only [exec, execSendCommand, execSendData, execPushDisplayControl, execBegin, execSetVisible,
      execSetShowCursor, execSetBlinkCursor, execSetBacklight, execGetProperty, execClear, execHome,
      execSetCursorPosition, execWriteBytes, execWriteText, execCreateChar, execScrollDisplayLeft,
      execScrollDisplayRight, execMoveCursor, State.runReady, State.onReady, State.onCtl, hc,
      busAt_none (h := hl)]

/-- An operation of a controller that answers a next state has a plan. -/
theorem plan_of_next {i : Instr} {t : State} (hi : ctlOf s i = some c) (hn : ∀ l, i ≠ .construct l)
    (h : exec i s = .next t) :
    ∃ k lk, s.ctls[c]? = some k ∧ s.links[k.link]? = some lk ∧ ∃ x, plan k lk i = some x := by
  cases hc : s.ctls[c]? with
  | none => rw [exec_no_ctl hi hn hc] at h; cases h
  | some k =>
    cases hl : s.links[k.link]? with
    | none => rw [exec_no_link hi hc hl] at h; cases h
    | some lk =>
      cases hp : plan k lk i with
      | none => rw [exec_no_plan hi hc hl hp] at h; cases h
      | some x => exact ⟨k, lk, rfl, hl, x, hp⟩

end Plan

end Sys2Proof.Machine
end

