-- ==== Sys2Proof/Laws/Links.lean ====
section
/-! SUPPORT. What every link operation and `Construct` do, said once, and that the links keep their form. -/

namespace Sys2Proof.Machine

open Sys2Proof.Config

/-- Everything an operation of a link does when it answers a next state: link number `l` becomes `k'`, `tr`
is new in the trace, and an error has done nothing. -/
structure LinkRan (i : Instr) (s t : State) (l : Nat) (k k' : Link) (tr : List Event) : Prop where
  links : t.links = s.links.set l k'
  trace : t.trace = s.trace ++ tr
  ctls : t.ctls = s.ctls
  params : t.params = s.params
  pending : t.pending = s.pending
  mode : k'.mode = k.mode
  assigned : k'.assigned = k.assigned
  released : k'.released = k.released ∨ (k'.released = true ∧ i = .release l)
  form : k.WF → k'.WF
  noXfer : controllerTrace tr = []
  elsewhere : ∀ l' ≠ l, lineEvents l' tr = []
  outcome : t.outcome = .ok ∨ (∃ b, t.outcome = .okBool b) ∨
    (t.outcome = .error .disposedError ∧ k.released = true ∧ t = { s with outcome := t.outcome } ∧
      (∀ l, i ≠ .release l) ∧ (∀ l, i ≠ .fourBitMode l))

section Form
variable {k : Link}

/-- Writing a line of the group to a level keeps the form of a link that is not released. -/
theorem Link.WF.overlay (h : k.WF) (hr : k.released = false) (ls : List Line) (f : Line → Level)
    (hd : ∀ l ∈ ls, k.assigned.get l = true) (he : Line.e ∈ ls → f .e = .L)
    (hw : Line.rw ∈ ls → f .rw = rwWriteLevel)
    (hm : k.mode = .fourBit → ∀ l ∈ [Line.d0, .d1, .d2, .d3], l ∉ ls) :
    ({ k with pin := Machine.overlay ls (fun l => some (pinOf (f l))) k.pin } : Link).WF where
  legal := h.legal
  pins l := by
    have := h.pins l
    simp only [pinExists, overlay_get] at this ⊢
    by_cases hl : l ∈ ls
    · simp only [hl, if_true]
      cases f l <;> simp [pinOf, hd l hl, hr]
    · simpa [hl] using this
  enableLow := by
    show (Machine.overlay ls _ k.pin).get .e ≠ _
    simp only [overlay_get]
    by_cases hl : Line.e ∈ ls
    · simp [hl, he hl, pinOf]
    · simpa [hl] using h.enableLow
  rwWrites v hv := by
    simp only [overlay_get] at hv
    by_cases hl : Line.rw ∈ ls
    · simp only [hl, if_true, hw hl] at hv
      cases v <;> simp_all [pinOf, rwWriteLevel]
    · exact h.rwWrites v (by simpa [hl] using hv)
  lowLinesUnwritten hf l hl := by
    simp only [overlay_get, hm hf l hl, if_false]
    exact h.lowLinesUnwritten hf l hl

/-- The lines one `Send` writes. -/
def sentLines (k : Link) : List Line :=
  (if k.assigned.rw then [.rs, .e, .rw] else [.rs, .e]) ++
    match k.mode with
    | .eightBit => dataLines
    | .fourBit => nibbleLines

/-- The level one `Send` leaves on each line it writes. -/
def sentLevel (k : Link) (r : Bool) (v : Byte) : Line → Level
  | .rs => lvl r
  | .e => .L
  | .rw => rwWriteLevel
  | l =>
    match k.mode with
    | .eightBit => byteLevel v l
    | .fourBit => nibbleLevel (lowNibble v) l

theorem pinsAfter_eq_overlay (k : Link) (r : Bool) (v : Byte) :
    Machine.pinsAfter k r v =
      Machine.overlay (sentLines k) (fun l => some (pinOf (sentLevel k r v l))) k.pin := by
  refine Lines.get_ext fun m => ?_
  cases hw : k.assigned.rw <;> cases hm : k.mode <;> cases m <;>
    simp [Machine.pinsAfter, sentLines, sentLevel, hw, hm, dataLines, nibbleLines, pinOf]

/-- A `Send` keeps the form of its link. -/
theorem Link.WF.pinsAfter (h : k.WF) (hr : k.released = false) (r : Bool) (v : Byte) :
    ({ k with pin := Machine.pinsAfter k r v } : Link).WF := by
  have hl := h.legal
  rw [pinsAfter_eq_overlay]
  refine h.overlay hr _ _ (fun l hm => ?_) (fun _ => rfl) (fun _ => rfl) fun hf l hm => ?_
  · simp only [sentLines, List.mem_append] at hm
    rcases hm with hm | hm
    · split at hm <;> simp only [List.mem_cons, List.not_mem_nil, or_false] at hm
      · rcases hm with rfl | rfl | rfl
        · exact legalPins_rs hl
        · exact legalPins_e hl
        · assumption
      · rcases hm with rfl | rfl
        · exact legalPins_rs hl
        · exact legalPins_e hl
    · cases hm' : k.mode with
      | eightBit => rw [hm'] at hl hm; exact legalPins_data hl hm
      | fourBit => rw [hm'] at hm; exact legalPins_nibble hl hm
  · revert hm
    cases hw : k.assigned.rw <;> cases l <;> simp [sentLines, hf, hw, nibbleLines]

/-- So does any list of them. -/
theorem Link.WF.pinsAfterAll (h : k.WF) (hr : k.released = false) (xs : List (Bool × Byte)) :
    ({ k with pin := Machine.pinsAfterAll k xs } : Link).WF := by
  unfold Machine.pinsAfterAll
  split
  · exact h
  · exact h.pinsAfter hr _ _

/-- A new link has the form. -/
theorem Link.WF.fresh {mode : Mode} {pins : Lines Bool} (h : legalPins mode pins = true) :
    (Link.fresh mode pins).WF := by
  have hp : ∀ l, (Link.fresh mode pins).pin.get l = if pins.get l then some .U else none := fun l => by
    simp [Link.fresh, freshPins]
  have he := hp .e
  have hw := hp .rw
  refine ⟨h, fun l => ?_, ?_, fun v hv => ?_, fun _ l _ => ?_⟩
  · have := hp l
    simp only [pinExists, this]
    cases hl : pins.get l <;> simp [Link.fresh, hl]
  · show (Link.fresh mode pins).pin.get .e ≠ _
    rw [hp]; split <;> simp
  · rw [hp] at hv; cases v <;> split at hv <;> simp_all [pinOf]
  · rw [hp]; split <;> simp

/-- `Release` keeps the form. -/
theorem Link.WF.release (h : k.WF) (hr : k.released = false) :
    ({ k with
        released := true
        pin := Machine.overlay (assignedLines k.assigned) (fun _ => some .Z) k.pin } : Link).WF := by
  have hp : ∀ l, (Machine.overlay (assignedLines k.assigned) (fun _ => some PinState.Z) k.pin).get l =
      if k.assigned.get l then some .Z else none := fun l => by
    have := h.pins l
    simp only [overlay_get, mem_assignedLines]
    split
    · rfl
    · simp only [pinExists] at this
      cases hg : k.pin.get l with
      | none => rfl
      | some x => cases x <;> simp_all
  refine ⟨h.legal, fun l => ?_, ?_, fun v hv => ?_, fun _ l _ => ?_⟩
  · simp only [pinExists, hp l]
    cases k.assigned.get l <;> simp
  · show (Machine.overlay (assignedLines k.assigned) (fun _ => some PinState.Z) k.pin).get .e ≠ _
    rw [hp]; split <;> simp
  · rw [hp] at hv; cases v <;> split at hv <;> simp_all [pinOf]
  · rw [hp]; split <;> simp

end Form

section Runs
variable {s t : State} {l : Nat}

theorem runSend_ran {i : Instr} {v : Byte} {r bl : Bool} (hi : ∀ l, i ≠ .release l)
    (hi' : ∀ l, i ≠ .fourBitMode l) (h : s.runSend l v r bl = .next t) :
    ∃ k k' tr, s.links[l]? = some k ∧ LinkRan i s t l k k' tr := by
  obtain ⟨k, hk, h⟩ := onLink_next h
  cases hr : k.released with
  | true =>
    have := runSend_down hk hr v r bl
    rw [State.runSend, onLink_eq hk, h] at this
    cases this
    exact ⟨k, k, [], hk, (list_set_self hk).symm, by simp, rfl, rfl, rfl, rfl, rfl, .inl rfl, id, rfl,
      fun _ _ => rfl, .inr (.inr ⟨rfl, hr, rfl, hi, hi'⟩)⟩
  | false =>
    rw [send_done (by simpa using hr)] at h
    cases h
    exact ⟨k, _, _, hk, rfl, rfl, rfl, rfl, rfl, rfl, rfl, .inl rfl, fun hw => hw.pinsAfter hr r v,
      controllerTrace_send .., fun _ hne => lineEvents_send_other hne.symm .., .inl rfl⟩

theorem runMicro_ran {i : Instr} {ls : List Line} {op : Bus → Bus}
    (hop : ∀ k, s.links[l]? = some k → ls.all k.drives = true → ∃ k' tr orders,
      op (s.busOf l k) = { idx := l, lnk := k', lineOrders := orders, trace := s.trace ++ tr } ∧
      k'.mode = k.mode ∧ k'.assigned = k.assigned ∧ k'.released = k.released ∧ (k.WF → k'.WF) ∧
      controllerTrace tr = [] ∧ ∀ l' ≠ l, lineEvents l' tr = [])
    (h : s.runMicro l ls op = .next t) :
    ∃ k k' tr, s.links[l]? = some k ∧ LinkRan i s t l k k' tr := by
  obtain ⟨k, hk, h⟩ := onLink_next h
  split at h
  · obtain ⟨k', tr, orders, ho, hm, ha, hr, hf, hc, hl⟩ := hop k hk ‹_›
    rw [ho] at h
    cases h
    exact ⟨k, k', tr, hk, rfl, rfl, rfl, rfl, rfl, hm, ha, .inl hr, hf, hc, hl, .inl rfl⟩
  · cases h

theorem drives_iff {k : Link} {m : Line} : k.drives m = true ↔ k.assigned.get m = true ∧
    k.released = false ∧ ¬ (k.mode = .fourBit ∧ (m = .d0 ∨ m = .d1 ∨ m = .d2 ∨ m = .d3)) := by
  simp only [Link.drives, Bool.and_eq_true, Bool.not_eq_true', Bool.and_eq_false_iff,
    beq_eq_false_iff_ne, Bool.or_eq_false_iff, and_assoc]
  tauto

/-- A group of writes keeps the form when the link drives the group and the group has no `E` or `RW`. -/
theorem form_group {k : Link} {ls : List Line} (hd : ls.all k.drives = true) (he : Line.e ∉ ls)
    (hw : Line.rw ∉ ls) (hne : ls ≠ []) (f : Line → Level) (h : k.WF) :
    ({ k with pin := Machine.overlay ls (fun l => some (pinOf (f l))) k.pin } : Link).WF := by
  have hd' := List.all_eq_true.1 hd
  obtain ⟨a, as, rfl⟩ := List.exists_cons_of_ne_nil hne
  refine h.overlay (drives_iff.1 (hd' a (by simp))).2.1 _ _ (fun m hm => (drives_iff.1 (hd' m hm)).1)
    (fun h => absurd h he) (fun h => absurd h hw) fun hf m hm hmem => ?_
  exact (drives_iff.1 (hd' m hmem)).2.2 ⟨hf, by simpa using hm⟩

/-- Every operation of an existing link, said once. -/
theorem link_ran {i : Instr} (hc : ctlOf s i = none) (hn : ∀ m p, i ≠ .linkConstruct m p)
    (h : exec i s = .next t) :
    ∃ l k k' tr, linkOf s i = some l ∧ s.links[l]? = some k ∧ LinkRan i s t l k k' tr := by
  have send : ∀ {l : Nat} {v : Byte} {r bl : Bool}, linkOf s i = some l → (∀ l, i ≠ .release l) →
      (∀ l, i ≠ .fourBitMode l) → s.runSend l v r bl = .next t →
      ∃ l k k' tr, linkOf s i = some l ∧ s.links[l]? = some k ∧ LinkRan i s t l k k' tr :=
    fun {l _ _ _} hl hi hi' h => by
      obtain ⟨k, k', tr, hk, hh⟩ := runSend_ran hi hi' h
      exact ⟨l, k, k', tr, hl, hk, hh⟩
  cases i <;> simp only [ctlOf, reduceCtorEq] at hc
  case linkConstruct m p => exact absurd rfl (hn m p)
  case fourBitMode l =>
    simp only [exec, execFourBitMode] at h
    obtain ⟨k, hk, h⟩ := onLink_next h
    cases h
    exact ⟨l, k, k, [], rfl, hk, (list_set_self hk).symm, by simp, rfl, rfl, rfl, rfl, rfl, .inl rfl, id,
      rfl, fun _ _ => rfl, .inr (.inl ⟨_, rfl⟩)⟩
  case release l =>
    simp only [exec, execRelease] at h
    obtain ⟨k, hk, h⟩ := onLink_next h
    cases hr : k.released with
    | true =>
      rw [release_again (by simpa using hr)] at h
      cases h
      exact ⟨l, k, k, [], rfl, hk, rfl, by simp [State.busOf], rfl, rfl, rfl, rfl, rfl, .inl rfl, id,
        rfl, fun _ _ => rfl, .inl rfl⟩
    | false =>
      rw [release_first (by simpa using hr)] at h
      cases h
      refine ⟨l, k, _, _, rfl, hk, rfl, rfl, rfl, rfl, rfl, rfl, rfl, .inr ⟨rfl, rfl⟩,
        fun hw => hw.release hr, ?_, fun l' hne => ?_, .inl rfl⟩
      · simp [controllerTrace, List.filter_eq_nil_iff]
      · simpa [lineEvents, List.filter_eq_nil_iff] using fun _ _ => hne.symm
  case writeData8 l v =>
    simp only [exec, execWriteData8] at h
    obtain ⟨k, k', tr, hk, hh⟩ := runMicro_ran (i := .writeData8 l v) (fun k hk hd => by
      rw [writeData8_eq]
      exact ⟨_, _, _, rfl, rfl, rfl, rfl, form_group hd (by decide) (by decide) (by decide) _,
        controllerTrace_pins .., fun _ hne => lineEvents_pins_other hne.symm ..⟩) h
    exact ⟨l, k, k', tr, rfl, hk, hh⟩
  case writeNibble l n =>
    simp only [exec, execWriteNibble] at h
    obtain ⟨k, k', tr, hk, hh⟩ := runMicro_ran (i := .writeNibble l n) (fun k hk hd => by
      rw [writeNibble_eq]
      exact ⟨_, _, _, rfl, rfl, rfl, rfl, form_group hd (by decide) (by decide) (by decide) _,
        controllerTrace_pins .., fun _ hne => lineEvents_pins_other hne.symm ..⟩) h
    exact ⟨l, k, k', tr, rfl, hk, hh⟩
  case enablePulse l =>
    simp only [exec, execEnablePulse] at h
    obtain ⟨k, k', tr, hk, hh⟩ := runMicro_ran (i := .enablePulse l) (fun k hk hd => by
      have hd' := drives_iff.1 ((List.all_eq_true.1 hd) .e (by simp))
      rw [enablePulse_eq]
      refine ⟨_, _, _, rfl, rfl, rfl, rfl, fun hw => ?_, rfl, fun l' hne => ?_⟩
      swap
      · simpa [lineEvents, pulseEvents] using hne.symm
      have := hw.overlay hd'.2.1 [.e] (fun _ => .L) (by simpa using hd'.1) (fun _ => rfl) (by simp)
        (by simp)
      have he : Machine.overlay [.e] (fun _ => some (pinOf .L)) k.pin = k.pin.set .e (some .L) :=
        Lines.get_ext fun m => by simp [Lines.get_set, pinOf]
      rwa [he] at this) h
    exact ⟨l, k, k', tr, rfl, hk, hh⟩
  all_goals exact send rfl (by simp) (by simp) h

/-- Every operation of an existing controller, said once. -/
theorem ctl_ran {i : Instr} {c : Nat} (hi : ctlOf s i = some c) (hn : ∀ l, i ≠ .construct l)
    (h : exec i s = .next t) :
    ∃ k lk k' evs, s.ctls[c]? = some k ∧ s.links[k.link]? = some lk ∧ plan k lk i = some (k', evs) ∧
      ((lk.released = false ∧ t = s.afterCtl c k' k.link lk evs (okOutcome k i)) ∨
      (lk.released = true ∧ ∃ cut, cutEvents evs = some cut ∧ t = disposed s c (cutCtl k lk i) cut) ∨
      (lk.released = true ∧ cutEvents evs = none ∧ t = { s with outcome := okOutcome k i })) := by
  obtain ⟨k, lk, hc, hl, ⟨k', evs⟩, hp⟩ := plan_of_next hi hn h
  refine ⟨k, lk, k', evs, hc, hl, hp, ?_⟩
  cases hr : lk.released with
  | false =>
    rw [exec_plan hi hc hl hr hp] at h
    cases h
    exact .inl ⟨rfl, rfl⟩
  | true =>
    rw [exec_plan_released hi hc hl hr hp] at h
    cases h
    cases hcut : cutEvents evs with
    | some cut => exact .inr (.inl ⟨rfl, cut, rfl, rfl⟩)
    | none => exact .inr (.inr ⟨rfl, rfl, rfl⟩)

/-- The record a new controller has when its implicit Begin has ended (R130). -/
def builtCtl (s : State) (l : Nat) (lk : Link) : Ctl :=
  ctlAfterBegin (Ctl.fresh s.params s.ctls.length l) lk.fourBitMode s.params.defaultCols
    s.params.defaultRows true false

/-- The record a new controller has when its implicit Begin fails at its first transfer (D35). -/
def cutBuiltCtl (s : State) (l : Nat) (lk : Link) : Ctl :=
  cutCtl (Ctl.fresh s.params s.ctls.length l) lk
    (.beginOp s.ctls.length s.params.defaultCols s.params.defaultRows true false)

/-- The function-set byte of the implicit Begin (R89, R94). -/
def builtFunctionSet (s : State) (lk : Link) : Byte :=
  functionSetByte (displayFunctionFlags lk.fourBitMode s.params.defaultRows false)

/-- The state `Construct` runs its Begin in: the controller exists already (R130). -/
def State.withFresh (s : State) (l : Nat) : State :=
  { s with ctls := s.ctls ++ [Ctl.fresh s.params s.ctls.length l] }

@[simp] theorem withFresh_links (s : State) (l : Nat) : (s.withFresh l).links = s.links := rfl
@[simp] theorem withFresh_ctls (s : State) (l : Nat) :
    (s.withFresh l).ctls = s.ctls ++ [Ctl.fresh s.params s.ctls.length l] := rfl
@[simp] theorem withFresh_params (s : State) (l : Nat) : (s.withFresh l).params = s.params := rfl
@[simp] theorem withFresh_pending (s : State) (l : Nat) : (s.withFresh l).pending = s.pending := rfl
@[simp] theorem withFresh_lineOrders (s : State) (l : Nat) :
    (s.withFresh l).lineOrders = s.lineOrders := rfl
@[simp] theorem withFresh_trace (s : State) (l : Nat) : (s.withFresh l).trace = s.trace := rfl

/-- `Construct` on a link that is not released (R130). -/
theorem exec_construct {l : Nat} {lk : Link} (hl : s.links[l]? = some lk) (hr : lk.released = false) :
    exec (.construct l) s = .next ((s.withFresh l).afterCtl s.ctls.length (builtCtl s l lk) l lk
      (beginTrace lk.fourBitMode s.ctls.length s.params.backlightReset (builtFunctionSet s lk)
        (entryModeByte true false)) (.okCtl s.ctls.length)) := by
  simp only [exec, execConstruct, onLink_eq hl]
  exact (endDesk_eq (s := s.withFresh l) (.okCtl s.ctls.length)
    (runs_begin (d := (s.withFresh l).deskOf s.ctls.length (Ctl.fresh s.params s.ctls.length l) lk) ⟨hr⟩
      s.params.defaultCols s.params.defaultRows true false)).1

/-- `Construct` on a released link (R130, D35). -/
theorem exec_construct_released {l : Nat} {lk : Link} (hl : s.links[l]? = some lk)
    (hr : lk.released = true) :
    exec (.construct l) s = .next (disposed (s.withFresh l) s.ctls.length (cutBuiltCtl s l lk)
      [.wait .warmup, .xfer s.ctls.length (if lk.fourBitMode then 0x03#8 else builtFunctionSet s lk)
        false s.params.backlightReset]) := by
  have hd : (⟨s.busOf l lk, s.ctls.length, Ctl.fresh s.params s.ctls.length l⟩ : Desk) =
      (s.withFresh l).deskOf s.ctls.length (Ctl.fresh s.params s.ctls.length l) lk := rfl
  simp only [exec, execConstruct, onLink_eq hl]
  rw [hd, begin_released (by simpa using hr)]
  exact endDesk_failed (s := s.withFresh l) (c := s.ctls.length)
    (k := Ctl.fresh s.params s.ctls.length l) (k' := cutBuiltCtl s l lk) (o := .okCtl s.ctls.length) hl

/-- What `Construct` leaves, on either kind of link (R130, D35). -/
theorem construct_ran {l : Nat} (h : exec (.construct l) s = .next t) :
    ∃ lk, s.links[l]? = some lk ∧
      ((lk.released = false ∧ t = (s.withFresh l).afterCtl s.ctls.length (builtCtl s l lk) l lk
        (beginTrace lk.fourBitMode s.ctls.length s.params.backlightReset (builtFunctionSet s lk)
          (entryModeByte true false)) (.okCtl s.ctls.length)) ∨
      (lk.released = true ∧ t = disposed (s.withFresh l) s.ctls.length (cutBuiltCtl s l lk)
        [.wait .warmup, .xfer s.ctls.length (if lk.fourBitMode then 0x03#8 else builtFunctionSet s lk)
          false s.params.backlightReset])) := by
  have h' := h
  simp only [exec, execConstruct] at h'
  obtain ⟨lk, hl, -⟩ := onLink_next h'
  refine ⟨lk, hl, ?_⟩
  cases hr : lk.released with
  | false =>
    rw [exec_construct hl hr] at h
    cases h
    exact .inl ⟨rfl, rfl⟩
  | true =>
    rw [exec_construct_released hl hr] at h
    cases h
    exact .inr ⟨rfl, rfl⟩

end Runs

end Sys2Proof.Machine
end

