-- ==== Sys2Proof/Laws/PerInstr.lean ====
section
/-! SUPPORT. A family of statements about the operations as syntax, one lemma for each. -/

namespace Sys2Proof

/-- The same bus encoding on another link. -/
def Instr.relink (l : Nat) : Instr → Instr
  | .clearDisplay _ => .clearDisplay l
  | .returnHome _ => .returnHome l
  | .entryModeSet _ i s => .entryModeSet l i s
  | .displayControl _ d c b => .displayControl l d c b
  | .cursorShift _ m r => .cursorShift l m r
  | .functionSet _ w n f => .functionSet l w n f
  | .setCgramAddr _ s => .setCgramAddr l s
  | .setDdramAddr _ a => .setDdramAddr l a
  | .data _ d => .data l d
  | .hsProbe _ => .hsProbe l
  | .hsCommit4 _ => .hsCommit4 l
  | .send _ v d b => .send l v d b
  | i => i

/-- Which row a word is does not depend on the link. -/
theorem decodeBus_relink (w : BitVec 9) (l : Nat) : decodeBus w l = (decodeBus w 0).relink l := by
  simp only [decodeBus, apply_ite (Instr.relink l)]
  rfl

theorem decodeBus_of_zero {w : BitVec 9} {i : Instr} (h : decodeBus w 0 = i) (l : Nat) :
    decodeBus w l = i.relink l := by rw [decodeBus_relink, h]

theorem decodeBus_setCgramAddr (s : BitVec 3) (l : Nat) :
    decodeBus (0b001#3 ++ s ++ 0b000#3) l = .setCgramAddr l s :=
  decodeBus_of_zero (i := .setCgramAddr 0 s) (by revert s; decide) l

theorem decodeBus_setDdramAddr (a : BitVec 7) (l : Nat) :
    decodeBus (0b01#2 ++ a) l = .setDdramAddr l a :=
  decodeBus_of_zero (i := .setDdramAddr 0 a) (by revert a; decide) l

theorem decodeBus_data (d : Byte) (l : Nat) : decodeBus (0b1#1 ++ d) l = .data l d :=
  decodeBus_of_zero (i := .data 0 d) (by revert d; decide) l

/-- Everything a transfer word can decode to: the bus encoding whose word it is, or, where no row covers
it, a direct `Send` of it. -/
theorem decodeBus_cases (w : BitVec 9) (l : Nat) :
    (busWord (decodeBus w l) = some w ∧ encode (decodeBus w l) = putBusOp (decodeBus w l) l) ∨
    ((∀ r ∈ busRows, r.covers w = false) ∧ decodeBus w l = .send l (w.extractLsb' 0 8) false false) := by
  have h : ∀ w : BitVec 9, (busWord (decodeBus w 0) = some w ∧
      encode (decodeBus w 0) = putBusOp (decodeBus w 0) 0) ∨
      ((∀ r ∈ busRows, r.covers w = false) ∧ decodeBus w 0 = .send 0 (w.extractLsb' 0 8) false false) := by
    decide
  rw [decodeBus_relink]
  rcases h w with ⟨h1, h2⟩ | ⟨h1, h2⟩
  · left
    generalize decodeBus w 0 = i at h1 h2
    cases i <;> simp only [busWord, reduceCtorEq, Option.some.injEq] at h1 <;> subst h1 <;>
      exact ⟨rfl, rfl⟩
  · exact .inr ⟨h1, by rw [h2]; rfl⟩

namespace Laws.RoundTrip

/-- Reading an operation's record gives the operation back, and leaves what follows the record. -/
def Statement (i : Instr) : Prop := ∀ r, decodeFront (encode i ++ r) = .ok (i.asDecoded, r)

/-- For a bus encoding it is enough that its word decodes to it. -/
theorem of_busWord {i : Instr} {w : BitVec 9} {l : Nat} (he : encode i = putBusOp i l)
    (hw : busWord i = some w) (hd : decodeBus w l = i.asDecoded) : Statement i := fun r => by
  rw [he, putBusOp, hw, Option.getD_some, decodeFront_putBus, hd]

theorem clearDisplay (l : Nat) : Statement (.clearDisplay l) :=
  of_busWord rfl rfl (decodeBus_of_zero (i := .clearDisplay 0) (by decide) l)
theorem returnHome (l : Nat) : Statement (.returnHome l) :=
  of_busWord rfl rfl (decodeBus_of_zero (i := .returnHome 0) (by decide) l)
theorem entryModeSet (l : Nat) (left shift : Bool) : Statement (.entryModeSet l left shift) :=
  of_busWord rfl rfl (decodeBus_of_zero (i := .entryModeSet 0 left shift)
    (by revert left shift; decide) l)
theorem displayControl (l : Nat) (d c b : Bool) : Statement (.displayControl l d c b) :=
  of_busWord rfl rfl (decodeBus_of_zero (i := .displayControl 0 d c b) (by revert d c b; decide) l)
theorem cursorShift (l : Nat) (m r : Bool) : Statement (.cursorShift l m r) :=
  of_busWord rfl rfl (decodeBus_of_zero (i := .cursorShift 0 m r) (by revert m r; decide) l)
theorem functionSet (l : Nat) (w n f : Bool) : Statement (.functionSet l w n f) :=
  of_busWord rfl rfl (decodeBus_of_zero (i := .functionSet 0 w n f) (by revert w n f; decide) l)
theorem setCgramAddr (l : Nat) (s : BitVec 3) : Statement (.setCgramAddr l s) :=
  of_busWord rfl rfl (decodeBus_setCgramAddr s l)
theorem setDdramAddr (l : Nat) (a : BitVec 7) : Statement (.setDdramAddr l a) :=
  of_busWord rfl rfl (decodeBus_setDdramAddr a l)
theorem data (l : Nat) (d : Byte) : Statement (.data l d) := of_busWord rfl rfl (decodeBus_data d l)
theorem hsProbe (l : Nat) : Statement (.hsProbe l) :=
  of_busWord rfl rfl (decodeBus_of_zero (i := .hsProbe 0) (by decide) l)
theorem hsCommit4 (l : Nat) : Statement (.hsCommit4 l) :=
  of_busWord rfl rfl (decodeBus_of_zero (i := .returnHome 0) (by decide) l)

theorem linkConstruct (m : Mode) (p : Lines Bool) : Statement (.linkConstruct m p) := fun r => by
  simp [encode, decodeFront, getLinkOp, Instr.asDecoded]
theorem fourBitMode (l : Nat) : Statement (.fourBitMode l) := fun r => by
  simp [encode, decodeFront, getLinkOp, Instr.asDecoded]
theorem send (l : Nat) (v : Byte) (d b : Bool) : Statement (.send l v d b) := fun r => by
  simp [encode, decodeFront, getLinkOp, Instr.asDecoded]
theorem release (l : Nat) : Statement (.release l) := fun r => by
  simp [encode, decodeFront, getLinkOp, Instr.asDecoded]

theorem writeData8 (l : Nat) (v : Byte) : Statement (.writeData8 l v) := fun r => by
  simp [encode, decodeFront, getMicroOp, Instr.asDecoded]
theorem writeNibble (l : Nat) (n : Nibble) : Statement (.writeNibble l n) := fun r => by
  simp only [encode, decodeFront, getMicroOp, Instr.asDecoded, List.cons_append, List.append_assoc,
    getByte_cons, ok_bind, BitVec.toNat_ofNat, getNat_putNat, List.nil_append, getNibble_cons,
    Nat.reducePow, Nat.reduceMod]
theorem enablePulse (l : Nat) : Statement (.enablePulse l) := fun r => by
  simp [encode, decodeFront, getMicroOp, Instr.asDecoded]
theorem sendCommand (c : Nat) (v : Byte) : Statement (.sendCommand c v) := fun r => by
  simp [encode, decodeFront, getMicroOp, Instr.asDecoded]
theorem sendData (c : Nat) (v : Byte) : Statement (.sendData c v) := fun r => by
  simp [encode, decodeFront, getMicroOp, Instr.asDecoded]
theorem pushDisplayControl (c : Nat) : Statement (.pushDisplayControl c) := fun r => by
  simp [encode, decodeFront, getMicroOp, Instr.asDecoded]

theorem construct (l : Nat) : Statement (.construct l) := fun r => by
  simp [encode, decodeFront, getHostOp, Instr.asDecoded]
theorem beginOp (c cols rows : Nat) (ltr font : Bool) : Statement (.beginOp c cols rows ltr font) :=
  fun r => by simp [encode, decodeFront, getHostOp, Instr.asDecoded]
theorem setVisible (c : Nat) (b : Bool) : Statement (.setVisible c b) := fun r => by
  simp [encode, decodeFront, getHostOp, Instr.asDecoded]
theorem setShowCursor (c : Nat) (b : Bool) : Statement (.setShowCursor c b) := fun r => by
  simp [encode, decodeFront, getHostOp, Instr.asDecoded]
theorem setBlinkCursor (c : Nat) (b : Bool) : Statement (.setBlinkCursor c b) := fun r => by
  simp [encode, decodeFront, getHostOp, Instr.asDecoded]
theorem setBacklight (c : Nat) (b : Bool) : Statement (.setBacklight c b) := fun r => by
  simp [encode, decodeFront, getHostOp, Instr.asDecoded]
theorem getProperty (c : Nat) (p : Property) : Statement (.getProperty c p) := fun r => by
  simp [encode, decodeFront, getHostOp, Instr.asDecoded]
theorem clear (c : Nat) : Statement (.clear c) := fun r => by
  simp [encode, decodeFront, getHostOp, Instr.asDecoded]
theorem home (c : Nat) : Statement (.home c) := fun r => by
  simp [encode, decodeFront, getHostOp, Instr.asDecoded]
theorem setCursorPosition (c col row : Nat) : Statement (.setCursorPosition c col row) := fun r => by
  simp [encode, decodeFront, getHostOp, Instr.asDecoded]
theorem writeBytes (c : Nat) (buf : List Byte) : Statement (.writeBytes c buf) := fun r => by
  simp [encode, decodeFront, getHostOp, Instr.asDecoded]
theorem writeText (c : Nat) (t : Text) : Statement (.writeText c t) := fun r => by
  simp [encode, decodeFront, getHostOp, Instr.asDecoded]
theorem createChar (c slot : Nat) (bm : List Byte) (off : Nat) : Statement (.createChar c slot bm off) :=
  fun r => by simp [encode, decodeFront, getHostOp, Instr.asDecoded]
theorem scrollDisplayLeft (c : Nat) : Statement (.scrollDisplayLeft c) := fun r => by
  simp [encode, decodeFront, getHostOp, Instr.asDecoded]
theorem scrollDisplayRight (c : Nat) : Statement (.scrollDisplayRight c) := fun r => by
  simp [encode, decodeFront, getHostOp, Instr.asDecoded]
theorem moveCursor (c : Nat) (right : Bool) : Statement (.moveCursor c right) := fun r => by
  simp [encode, decodeFront, getHostOp, Instr.asDecoded]

end Laws.RoundTrip

end Sys2Proof
end

