-- ==== Sys2Proof/Laws/Whole.lean ====
section
/-! SUPPORT. Claims about every operation at once: the cases a next state of `exec` can come from, what it
does to each controller and each link that was there before, and where the events of a plan come from. -/

namespace Sys2Proof.Machine

open Sys2Proof.Config

/-! ## Events -/

theorem mem_controllerTrace {tr : List Event} {e : Event} :
    e ∈ controllerTrace tr ↔ e ∈ tr ∧ e.ofController = true := by
  simp only [controllerTrace, List.mem_filter]
  cases e <;> rfl

/-- The transfers of a trace are those of its controller level. -/
@[simp] theorem xfersOf_controllerTrace (tr : List Event) : xfersOf (controllerTrace tr) = xfersOf tr := by
  simp only [xfersOf, controllerTrace, List.filterMap_filter]
  congr 1
  funext e
  cases e <;> simp

/-- Every event of a plan is the controller's own. -/
theorem plan_ofController {k k' : Ctl} {lk : Link} {i : Instr} {evs : List Event}
    (h : plan k lk i = some (k', evs)) : ∀ e ∈ evs, e.ofController = true := by
  have set : ∀ p c b x, k.whenReady (setPlan p c b k) = some x → ∀ e ∈ x.2, e.ofController = true :=
    fun p c b x hx => by
      obtain ⟨_, rfl⟩ := whenReady_some hx
      simp only [setPlan]
      split <;> simp [Event.ofController]
  cases i <;> simp only [plan, Option.some.injEq, reduceCtorEq, Prod.mk.injEq] at h
  case beginOp =>
    split at h
    · simp only [Option.some.injEq, Prod.mk.injEq] at h
      rw [← h.2]
      cases lk.fourBitMode <;> simp [beginTrace, beginTrace4, beginTrace8, Event.ofController]
    · cases h
  case setVisible => exact set _ _ _ _ h
  case setShowCursor => exact set _ _ _ _ h
  case setBlinkCursor => exact set _ _ _ _ h
  case setBacklight => exact set _ _ _ _ h
  case sendCommand => rw [← h.2]; simp [Ctl.command, Event.ofController]
  case sendData => rw [← h.2]; simp [Event.ofController]
  case pushDisplayControl => rw [← h.2]; simp [Ctl.command, Event.ofController]
  case createChar =>
    split at h
    · obtain ⟨_, he⟩ := whenReady_some h
      cases he
      simp [Ctl.command, Ctl.dataBytes, Event.ofController]
    · cases h
  all_goals
    obtain ⟨_, he⟩ := whenReady_some h
    cases he
    simp [Ctl.command, Ctl.dataBytes, Event.ofController]

/-- A cut keeps events of the plan only. -/
theorem mem_of_cutEvents {evs cut : List Event} (h : cutEvents evs = some cut) : ∀ e ∈ cut, e ∈ evs := by
  induction evs generalizing cut with
  | nil => simp [cutEvents] at h
  | cons a as ih =>
    cases a <;> simp only [cutEvents, Option.map_eq_some_iff, Option.some.injEq] at h
    case xfer => subst h; simp
    all_goals
      obtain ⟨as', ha, rfl⟩ := h
      intro e he
      rcases List.mem_cons.1 he with rfl | he
      · simp
      · exact List.mem_cons_of_mem _ (ih ha e he)

/-! ## Records -/

theorem okOutcome_ne_error (k : Ctl) (i : Instr) (e : ErrorKind) : okOutcome k i ≠ .error e := by
  cases i <;> simp [okOutcome]

section Disposed
variable (s : State) (c : Nat) (k : Ctl) (evs : List Event)

@[simp] theorem disposed_outcome : (disposed s c k evs).outcome = .error .disposedError := rfl
@[simp] theorem disposed_links : (disposed s c k evs).links = s.links := rfl
@[simp] theorem disposed_ctls : (disposed s c k evs).ctls = s.ctls.set c k := rfl
@[simp] theorem disposed_trace : (disposed s c k evs).trace = s.trace ++ evs := rfl
@[simp] theorem disposed_params : (disposed s c k evs).params = s.params := rfl
@[simp] theorem disposed_pending : (disposed s c k evs).pending = s.pending := rfl
@[simp] theorem disposed_lineOrders : (disposed s c k evs).lineOrders = s.lineOrders := rfl

end Disposed

section Property
variable (k : Ctl) (p : Property) (b : Bool)

@[simp] theorem withProperty_phase : (k.withProperty p b).phase = k.phase := by cases p <;> rfl
@[simp] theorem withProperty_link : (k.withProperty p b).link = k.link := by cases p <;> rfl
@[simp] theorem withProperty_encode : (k.withProperty p b).encode = k.encode := by cases p <;> rfl
@[simp] theorem withProperty_displayFunction :
    (k.withProperty p b).displayFunction = k.displayFunction := by cases p <;> rfl
@[simp] theorem withProperty_numCols : (k.withProperty p b).numCols = k.numCols := by cases p <;> rfl
@[simp] theorem withProperty_numRows : (k.withProperty p b).numRows = k.numRows := by cases p <;> rfl
@[simp] theorem withProperty_leftToRight :
    (k.withProperty p b).leftToRight = k.leftToRight := by cases p <;> rfl
@[simp] theorem withProperty_shiftOnWrite :
    (k.withProperty p b).shiftOnWrite = k.shiftOnWrite := by cases p <;> rfl

@[simp] theorem withProperty_property (q : Property) :
    (k.withProperty p b).property q = if q = p then b else k.property q := by
  cases p <;> cases q <;> rfl

end Property

@[simp] theorem ctlOf_setter (s : State) (p : Property) (c : Nat) (b : Bool) :
    ctlOf s (setter p c b) = some c := by cases p <;> rfl

@[simp] theorem plan_setter (k : Ctl) (lk : Link) (p : Property) (c : Nat) (b : Bool) :
    plan k lk (setter p c b) = k.whenReady (setPlan p c b k) := by cases p <;> rfl

@[simp] theorem cutCtl_setter (k : Ctl) (lk : Link) (p : Property) (c : Nat) (b : Bool) :
    cutCtl k lk (setter p c b) = k.withProperty p b := by cases p <;> rfl

/-- The record an operation leaves: Begin's, an unchanged one, or one with a changed flag. -/
theorem plan_ctl {k k' : Ctl} {lk : Link} {i : Instr} {evs : List Event}
    (h : plan k lk i = some (k', evs)) :
    (∃ c cols rows ltr font, i = .beginOp c cols rows ltr font ∧ rowsLegal rows = true ∧
      k' = ctlAfterBegin k lk.fourBitMode cols rows ltr font) ∨
    k' = k ∨ ∃ p c b, i = setter p c b ∧ k.property p ≠ b ∧ k' = k.withProperty p b := by
  have set : ∀ p c b, k.whenReady (setPlan p c b k) = some (k', evs) →
      k' = k ∨ (k.property p ≠ b ∧ k' = k.withProperty p b) := fun p c b h => by
    obtain ⟨_, he⟩ := whenReady_some h
    simp only [setPlan] at he
    split at he <;> cases he
    · exact .inl rfl
    · exact .inr ⟨‹_›, rfl⟩
  cases i <;> simp only [plan, Option.some.injEq, reduceCtorEq, Prod.mk.injEq] at h
  case beginOp c cols rows ltr font =>
    split at h
    · simp only [Option.some.injEq, Prod.mk.injEq] at h
      exact .inl ⟨_, _, _, _, _, rfl, ‹_›, h.1.symm⟩
    · cases h
  case setVisible c b => exact .inr ((set _ _ _ h).imp_right fun h => ⟨.visible, c, b, rfl, h⟩)
  case setShowCursor c b => exact .inr ((set _ _ _ h).imp_right fun h => ⟨.showCursor, c, b, rfl, h⟩)
  case setBlinkCursor c b => exact .inr ((set _ _ _ h).imp_right fun h => ⟨.blinkCursor, c, b, rfl, h⟩)
  case setBacklight c b => exact .inr ((set _ _ _ h).imp_right fun h => ⟨.backlight, c, b, rfl, h⟩)
  case sendCommand | sendData | pushDisplayControl => exact .inr (.inl h.1.symm)
  case createChar =>
    split at h
    · obtain ⟨_, he⟩ := whenReady_some h
      cases he
      exact .inr (.inl rfl)
    · cases h
  all_goals
    obtain ⟨_, he⟩ := whenReady_some h
    cases he
    exact .inr (.inl rfl)

/-- The record an operation cut short leaves: Begin's geometry, an unchanged one, or one with a changed
flag. -/
theorem cut_ctl {k k' : Ctl} {lk : Link} {i : Instr} {evs cut : List Event}
    (h : plan k lk i = some (k', evs)) (hc : cutEvents evs = some cut) :
    (∃ c cols rows ltr font, i = .beginOp c cols rows ltr font ∧ rowsLegal rows = true ∧
      cutCtl k lk i = { k with
        numCols := cols, numRows := rows,
        displayFunction := displayFunctionFlags lk.fourBitMode rows font }) ∨
    cutCtl k lk i = k ∨
    ∃ p c b, i = setter p c b ∧ k.property p ≠ b ∧ cutCtl k lk i = k.withProperty p b := by
  have set : ∀ p c b, k.whenReady (setPlan p c b k) = some (k', evs) → k.property p ≠ b :=
    fun p c b h => by
      obtain ⟨_, he⟩ := whenReady_some h
      simp only [setPlan] at he
      split at he <;> cases he
      · simp [cutEvents] at hc
      · assumption
  cases i <;> simp only [plan, reduceCtorEq] at h
  case beginOp c cols rows ltr font =>
    split at h
    · exact .inl ⟨_, _, _, _, _, rfl, ‹_›, rfl⟩
    · cases h
  case setVisible c b => exact .inr (.inr ⟨.visible, c, b, rfl, set _ _ _ h, rfl⟩)
  case setShowCursor c b => exact .inr (.inr ⟨.showCursor, c, b, rfl, set _ _ _ h, rfl⟩)
  case setBlinkCursor c b => exact .inr (.inr ⟨.blinkCursor, c, b, rfl, set _ _ _ h, rfl⟩)
  case setBacklight c b => exact .inr (.inr ⟨.backlight, c, b, rfl, set _ _ _ h, rfl⟩)
  all_goals exact .inr (.inl rfl)

/-! ## All operations -/

section Whole
variable {i : Instr} {s t : State}

/-- Where a next state can come from: `LinkConstruct`, an operation of a link, `Construct`, or an operation of
a controller. -/
theorem exec_next_cases (h : exec i s = .next t) :
    (∃ m p, i = .linkConstruct m p ∧
      ((legalPins m p = true ∧ t = { s with
          links := s.links ++ [Link.fresh m p], outcome := .okLink s.links.length }) ∨
        (legalPins m p = false ∧ t = { s with outcome := .error .configurationError }))) ∨
    (∃ l k k' tr, ctlOf s i = none ∧ linkOf s i = some l ∧ s.links[l]? = some k ∧
      LinkRan i s t l k k' tr) ∨
    (∃ l, i = .construct l) ∨
    ∃ c, ctlOf s i = some c ∧ ∀ l, i ≠ .construct l := by
  by_cases hm : ∃ m p, i = .linkConstruct m p
  · obtain ⟨m, p, rfl⟩ := hm
    refine .inl ⟨m, p, rfl, ?_⟩
    simp only [exec, execLinkConstruct] at h
    cases hl : legalPins m p <;> rw [hl] at h <;> cases h
    · exact .inr ⟨rfl, rfl⟩
    · exact .inl ⟨rfl, rfl⟩
  by_cases hc : ∃ l, i = .construct l
  · exact .inr (.inr (.inl hc))
  cases hi : ctlOf s i with
  | none =>
    obtain ⟨l, k, k', tr, h1, h2, h3⟩ := link_ran hi (fun m p e => hm ⟨m, p, e⟩) h
    exact .inr (.inl ⟨l, k, k', tr, rfl, h1, h2, h3⟩)
  | some c => exact .inr (.inr (.inr ⟨c, rfl, fun l e => hc ⟨l, e⟩⟩))

/-- An operation of a controller works on that controller's link (R37). -/
theorem linkOf_of_ctlOf {c : Nat} {k : Ctl} (hi : ctlOf s i = some c) (hc : s.ctls[c]? = some k) :
    linkOf s i = some k.link := by
  cases i <;> simp only [ctlOf, Option.some.injEq, reduceCtorEq] at hi
  case construct => subst hi; simp at hc
  all_goals subst hi; simp [linkOf, hc]

/-- What an operation does to a controller that was there before: nothing, or its own plan. -/
theorem ctl_after {c : Nat} {k : Ctl} (h : exec i s = .next t) (hk : s.ctls[c]? = some k) :
    t.ctls[c]? = some k ∨
    ∃ lk k' evs, ctlOf s i = some c ∧ s.links[k.link]? = some lk ∧ plan k lk i = some (k', evs) ∧
      ((t.ctls[c]? = some k' ∧ t.outcome = okOutcome k i) ∨
        ∃ cut, cutEvents evs = some cut ∧ t.ctls[c]? = some (cutCtl k lk i)) := by
  have hlt : c < s.ctls.length := (List.getElem?_eq_some_iff.1 hk).1
  have old : ∀ x y : Ctl, ((s.ctls ++ [x]).set s.ctls.length y)[c]? = some k := fun x y => by
    rw [List.getElem?_set_ne (by omega), List.getElem?_append_left hlt]
    exact hk
  rcases exec_next_cases h with ⟨m, p, rfl, ⟨-, rfl⟩ | ⟨-, rfl⟩⟩ | ⟨_, _, _, _, -, -, -, hr⟩ | ⟨l, rfl⟩ |
    ⟨c', hc, hn⟩
  · exact .inl hk
  · exact .inl hk
  · exact .inl (by rw [hr.ctls]; exact hk)
  · obtain ⟨lk, -, ⟨-, rfl⟩ | ⟨-, rfl⟩⟩ := construct_ran h
    · exact .inl (old _ _)
    · exact .inl (old _ _)
  · obtain ⟨k₁, lk, k', evs, h1, h2, hp, h3⟩ := ctl_ran hc hn h
    by_cases hcc : c' = c
    · subst hcc
      rw [hk] at h1
      cases h1
      rcases h3 with ⟨-, rfl⟩ | ⟨-, cut, hcut, rfl⟩ | ⟨-, -, rfl⟩
      · exact .inr ⟨lk, k', evs, hc, h2, hp, .inl ⟨by simp [State.afterCtl, hlt], rfl⟩⟩
      · exact .inr ⟨lk, k', evs, hc, h2, hp, .inr ⟨cut, hcut, by simp [hlt]⟩⟩
      · exact .inl hk
    · rcases h3 with ⟨-, rfl⟩ | ⟨-, cut, -, rfl⟩ | ⟨-, -, rfl⟩
      · exact .inl (by rw [State.afterCtl, List.getElem?_set_ne hcc]; exact hk)
      · exact .inl (by rw [disposed_ctls, List.getElem?_set_ne hcc]; exact hk)
      · exact .inl hk

/-- What an operation does to a link that was there before. -/
theorem link_after {l : Nat} {k : Link} (h : exec i s = .next t) (hk : s.links[l]? = some k) :
    t.links[l]? = some k ∨ (linkOf s i = some l ∧ ∃ k', t.links[l]? = some k' ∧ k'.mode = k.mode ∧
      k'.assigned = k.assigned ∧
      (k'.released = k.released ∨ (k'.released = true ∧ i = .release l)) ∧ (k.WF → k'.WF)) := by
  have hlt : l < s.links.length := (List.getElem?_eq_some_iff.1 hk).1
  have sent : ∀ l₁ lk xs, t.links = s.links.set l₁ { lk with pin := pinsAfterAll lk xs } →
      s.links[l₁]? = some lk → lk.released = false → linkOf s i = some l₁ →
      t.links[l]? = some k ∨ (linkOf s i = some l ∧ ∃ k', t.links[l]? = some k' ∧ k'.mode = k.mode ∧
        k'.assigned = k.assigned ∧
        (k'.released = k.released ∨ (k'.released = true ∧ i = .release l)) ∧ (k.WF → k'.WF)) :=
    fun l₁ lk xs ht hlk hr hl => by
      rw [ht]
      by_cases hcc : l₁ = l
      · subst hcc
        rw [hk] at hlk
        cases hlk
        exact .inr ⟨hl, { k with pin := pinsAfterAll k xs }, by simp [hlt], rfl, rfl, .inl rfl,
          fun hw => hw.pinsAfterAll hr _⟩
      · exact .inl (by rw [List.getElem?_set_ne hcc]; exact hk)
  rcases exec_next_cases h with ⟨m, p, rfl, ⟨-, rfl⟩ | ⟨-, rfl⟩⟩ | ⟨l₁, k₁, k₁', _, -, hl, hk₁, hr⟩ |
    ⟨l₁, rfl⟩ | ⟨c, hc, hn⟩
  · exact .inl (by rw [List.getElem?_append_left hlt]; exact hk)
  · exact .inl hk
  · by_cases hcc : l₁ = l
    · subst hcc
      rw [hk] at hk₁
      cases hk₁
      exact .inr ⟨hl, _, by rw [hr.links]; simp [hlt], hr.mode, hr.assigned, hr.released, hr.form⟩
    · exact .inl (by rw [hr.links, List.getElem?_set_ne hcc]; exact hk)
  · obtain ⟨lk, hl, ⟨hr, rfl⟩ | ⟨-, rfl⟩⟩ := construct_ran h
    · exact sent l₁ lk _ rfl hl hr rfl
    · exact .inl hk
  · obtain ⟨k₁, lk, k', evs, h1, h2, -, ⟨hr, rfl⟩ | ⟨-, cut, -, rfl⟩ | ⟨-, -, rfl⟩⟩ := ctl_ran hc hn h
    · exact sent _ _ _ rfl h2 hr (linkOf_of_ctlOf hc h1)
    · exact .inl hk
    · exact .inl hk

/-- A run of `Send` calls on a link that is not released: the link's pins and the events on its lines are those
of the controller events that carry the same transfers (R118). -/
theorem execAll_sends {l : Nat} {k : Link} {evs : List Event} (h : ∀ e ∈ evs, e.ofController = true)
    {s : State} (hk : s.links[l]? = some k) (hr : k.released = false) :
    ∃ u, execAll ((xfersOf evs).map fun x => .send l x.2 x.1 true) s = .next u ∧
      u.links[l]? = some { k with pin := pinsAfterAll k (xfersOf evs) } ∧
      lineEvents l u.trace = lineEvents l (s.trace ++ expand l k s.lineOrders evs) := by
  induction evs generalizing k s with
  | nil => exact ⟨s, rfl, hk, by simp [expand]⟩
  | cons e es ih =>
    have he := h e (by simp)
    have hes : ∀ x ∈ es, x.ofController = true := fun x hx => h x (by simp [hx])
    have hlt : l < s.links.length := (List.getElem?_eq_some_iff.1 hk).1
    cases e <;> simp only [Event.ofController, Bool.false_eq_true] at he
    case wait d =>
      obtain ⟨u, h1, h2, h3⟩ := ih hes hk hr
      exact ⟨u, h1, h2, by rw [h3]; simp [expand, lineEvents]⟩
    case xfer c v r bl =>
      have hs : exec (.send l v r true) s = .next ((s.putBus { s.busOf l k with
          lnk := { k with pin := pinsAfter k r v }
          lineOrders := s.lineOrders.drop (pulses k.mode)
          trace := s.trace ++ sendEvents l k s.lineOrders r v }).answer .ok) := by
        simp only [exec, execSend, State.runSend, onLink_eq hk]
        rw [send_done (by simpa using hr)]
        rfl
      generalize hu : (s.putBus { s.busOf l k with
        lnk := { k with pin := pinsAfter k r v }
        lineOrders := s.lineOrders.drop (pulses k.mode)
        trace := s.trace ++ sendEvents l k s.lineOrders r v }).answer .ok = u₁ at hs
      have hk₁ : u₁.links[l]? = some { k with pin := pinsAfter k r v } := by rw [← hu]; simp [hlt]
      obtain ⟨u, h1, h2, h3⟩ := ih hes hk₁ hr
      refine ⟨u, ?_, ?_, ?_⟩
      · simp only [xfersOf_xfer, List.map_cons, execAll, hs]
        exact h1
      · have := pinsAfterAll_append k [(r, v)] (xfersOf es)
        simpa [pinsAfterAll] using h2.trans (congrArg some (by
          simpa [pinsAfterAll] using congrArg (fun p => ({ k with pin := p } : Link)) this))
      · rw [h3, expand_pin, ← hu]
        simp [expand, lineEvents]

/-- A step that answers a next state did nothing, or ran an operation. -/
theorem step_next_cases (h : step s = .next t) :
    t = s ∨ ∃ i rest, hostCallable i = true ∧ exec i { s with pending := rest } = .next t := by
  unfold step at h
  split at h
  · cases h
    exact .inl rfl
  · rename_i hn
    unfold State.nextCall at hn
    split at hn <;> cases hn
    unfold runCall at h
    split at h
    · exact .inr ⟨_, _, ‹_›, h⟩
    · cases h

/-- A controller keeps its form where the fields the form speaks of are kept. -/
theorem Ctl.WF.of_eq {k k' : Ctl} {l l' : Link} (h : k.WF l) (h1 : k'.numRows = k.numRows)
    (h2 : k'.displayFunction = k.displayFunction) (h3 : k'.shiftOnWrite = k.shiftOnWrite)
    (hm : l'.mode = l.mode) : k'.WF l' := by
  refine ⟨by rw [h1]; exact h.rows, ?_, by rw [h3]; exact h.shift⟩
  obtain ⟨f, hf⟩ := h.flags
  exact ⟨f, by rw [h1, h2, hf, Link.fourBitMode, Link.fourBitMode, hm]⟩

end Whole

end Sys2Proof.Machine
end

