-- ==== Sys2Proof/Tests/Slice0.lean ====
section
/-! SUPPORT. Tests on fixed values, taken from spec/95_test_vectors.md, from the examples of the rules and from
the bit patterns of spec/opcode_table.json, never from the model; and a witness for the hypotheses of each
statement. -/

namespace Sys2Proof.Tests

open Sys2Proof.Machine Sys2Proof.Config

/-! ## Small states -/

/-- `{RS, E, D4, D5, D6, D7}` of V-C1. -/
def pins4 : Lines Bool := ⟨true, false, true, false, false, false, false, true, true, true, true⟩

/-- `{RS, E, D0..D7}` of V-C7. -/
def pins8 : Lines Bool := ⟨true, false, true, true, true, true, true, true, true, true, true⟩

/-- All 11 lines, V-C6. -/
def pinsAll : Lines Bool := ⟨true, true, true, true, true, true, true, true, true, true, true⟩

/-- A link as constructed. -/
def link4 : Link := Link.fresh .fourBit pins4

/-- A link of 8 data lines as constructed. -/
def link8 : Link := Link.fresh .eightBit pins8

/-- A link after `Release`. -/
def linkOff : Link := { link4 with released := true, pin := link4.pin.map fun p => p.map fun _ => .Z }

/-- A controller after `Begin(20, 4)` on link 0, a `FourBit` link (V-B1). -/
def ctl4 : Ctl where
  phase := .ready
  link := 0
  displayFunction := 0x08#8
  visible := true
  showCursor := false
  blinkCursor := false
  backlight := true
  leftToRight := true
  shiftOnWrite := false
  numCols := 20
  numRows := 4
  encode := .utf8

/-- A controller whose construction failed (V-B11). -/
def ctlOff : Ctl := { ctl4 with phase := .uninitialized, numCols := 16, numRows := 1, displayFunction := 0 }

/-- A state with one link and one controller. -/
def stateOf (k : Link) (c : Ctl) : State := { State.reset with links := [k], ctls := [c] }

/-- A controller ready on a 4-bit link. -/
def up : State := stateOf link4 ctl4

/-- A controller ready on an 8-bit link. -/
def up8 : State := stateOf link8 { ctl4 with displayFunction := 0x18#8 }

/-- A ready controller whose link was released. -/
def down : State := stateOf linkOff ctl4

/-- The trace an answer leaves; a mark no operation leaves where there is none. -/
def traceOf : Answer → List Event
  | .next s => s.trace
  | .fault _ | .refused _ => [.wait .pulse]

/-- The controller-level trace an answer leaves. -/
def ctlTrace (a : Answer) : List Event := controllerTrace (traceOf a)

/-- The transfers the bus observer reads on link 0 of an answer. -/
def seen (mode : Mode) (pins : Lines Bool) (a : Answer) : List (Bool × Byte) :=
  transfers mode (cycles 0 pins (traceOf a))

/-- The outcome an answer leaves. -/
def outcomeOf : Answer → OpOutcome
  | .next s => s.outcome
  | .fault _ | .refused _ => .none

/-- The controllers an answer leaves. -/
def ctlsOf : Answer → List Ctl
  | .next s => s.ctls
  | .fault _ | .refused _ => []

/-- The links an answer leaves. -/
def linksOf : Answer → List Link
  | .next s => s.links
  | .fault _ | .refused _ => []

/-- A command of controller 0 with the backlight on, as 95_test_vectors.md writes a bare byte. -/
def cm (v : Byte) : Event := .xfer 0 v false true

/-- A data write of controller 0 with the backlight on: `d:48` there. -/
def dt (v : Byte) : Event := .xfer 0 v true true

/-- `pulse` of 95_test_vectors.md on link 0. -/
def pulse : List Event := [.pin 0 .e .L, .pin 0 .e .H, .wait .pulse, .pin 0 .e .L]

/-! ## Well-formed operations (R132, R173) -/

theorem test_wf_rows_zero : (Instr.beginOp 0 16 0 true false).wellFormed = false := by decide
theorem test_wf_rows_five : (Instr.beginOp 0 16 5 true false).wellFormed = false := by decide
theorem test_wf_rows_legal : (Instr.beginOp 0 0 4 true false).wellFormed = true := by decide
/-- V-G4, V-G5. -/
theorem test_wf_bitmap_short :
    (Instr.createChar 0 0 [0, 1, 2, 3, 4, 5, 6] 0).wellFormed = false ∧
    (Instr.createChar 0 0 [0, 1, 2, 3, 4, 5, 6, 7] 1).wellFormed = false := by decide

/-! ## Decoding: words written from spec/opcode_table.json, a word for every row -/

/-- The BUS9 rows: the byte, the register-select bit, link 5. -/
theorem test_decode_bus :
    decode [0#8, 0b00000001#8, 0#8, 5#8] = .ok (.clearDisplay 5) ∧
    decode [0#8, 0b00000010#8, 0#8, 5#8] = .ok (.returnHome 5) ∧
    decode [0#8, 0b00000110#8, 0#8, 5#8] = .ok (.entryModeSet 5 true false) ∧
    decode [0#8, 0b00001011#8, 0#8, 5#8] = .ok (.displayControl 5 false true true) ∧
    decode [0#8, 0b00010100#8, 0#8, 5#8] = .ok (.cursorShift 5 false true) ∧
    decode [0#8, 0b00101000#8, 0#8, 5#8] = .ok (.functionSet 5 false true false) ∧
    decode [0#8, 0b01110000#8, 0#8, 5#8] = .ok (.setCgramAddr 5 6#3) ∧
    decode [0#8, 0b11010100#8, 0#8, 5#8] = .ok (.setDdramAddr 5 0x54#7) ∧
    decode [0#8, 0b01000001#8, 1#8, 5#8] = .ok (.data 5 0x41#8) ∧
    decode [0#8, 0b00000011#8, 0#8, 5#8] = .ok (.hsProbe 5) := by
  refine ⟨?_, ?_, ?_, ?_, ?_, ?_, ?_, ?_, ?_, ?_⟩ <;> rfl

/-- The HS_COMMIT4 row `000000010`: its word is RETURNHOME's (R93). -/
theorem test_decode_hsCommit4 :
    encode (.hsCommit4 5) = [0#8, 0b00000010#8, 0#8, 5#8] ∧
    decode (encode (.hsCommit4 5)) = .ok (.returnHome 5) := ⟨rfl, rfl⟩

/-- The LINKOP rows 00 to 11; a pin bit of 1 leaves its line unassigned (log 3). -/
theorem test_decode_link :
    decode [1#8, 0b00#8, 0#8, 0b01111010#8, 0b000#8] = .ok (.linkConstruct .fourBit pins4) ∧
    decode [1#8, 0b01#8, 5#8] = .ok (.fourBitMode 5) ∧
    decode [1#8, 0b10#8, 5#8, 0x28#8, 0#8, 1#8] = .ok (.send 5 0x28#8 false true) ∧
    decode [1#8, 0b11#8, 5#8] = .ok (.release 5) := ⟨rfl, rfl, rfl, rfl⟩

/-- The MICROOP rows 000 to 101. -/
theorem test_decode_micro :
    decode [2#8, 0b000#8, 5#8, 0x38#8] = .ok (.writeData8 5 0x38#8) ∧
    decode [2#8, 0b001#8, 5#8, 0x2#8] = .ok (.writeNibble 5 2#4) ∧
    decode [2#8, 0b010#8, 5#8] = .ok (.enablePulse 5) ∧
    decode [2#8, 0b011#8, 5#8, 0x0C#8] = .ok (.sendCommand 5 0x0C#8) ∧
    decode [2#8, 0b100#8, 5#8, 0x48#8] = .ok (.sendData 5 0x48#8) ∧
    decode [2#8, 0b101#8, 5#8] = .ok (.pushDisplayControl 5) := ⟨rfl, rfl, rfl, rfl, rfl, rfl⟩

/-- The HOSTOP rows 0000 to 0111. -/
theorem test_decode_host_low :
    decode [3#8, 0b0000#8, 5#8] = .ok (.construct 5) ∧
    decode [3#8, 0b0001#8, 5#8, 20#8, 4#8, 1#8, 0#8] = .ok (.beginOp 5 20 4 true false) ∧
    decode [3#8, 0b0010#8, 5#8, 0#8] = .ok (.setVisible 5 false) ∧
    decode [3#8, 0b0011#8, 5#8, 1#8] = .ok (.setShowCursor 5 true) ∧
    decode [3#8, 0b0100#8, 5#8, 1#8] = .ok (.setBlinkCursor 5 true) ∧
    decode [3#8, 0b0101#8, 5#8, 0#8] = .ok (.setBacklight 5 false) ∧
    decode [3#8, 0b0110#8, 5#8, 1#8] = .ok (.getProperty 5 .showCursor) ∧
    decode [3#8, 0b0111#8, 5#8] = .ok (.clear 5) := ⟨rfl, rfl, rfl, rfl, rfl, rfl, rfl, rfl⟩

/-- The HOSTOP rows 1000 to 1111; a Nat above 127 takes two bytes, least significant first (log 3). -/
theorem test_decode_host_high :
    decode [3#8, 0b1000#8, 5#8] = .ok (.home 5) ∧
    decode [3#8, 0b1001#8, 5#8, 0x80#8, 0x01#8, 3#8] = .ok (.setCursorPosition 5 128 3) ∧
    decode [3#8, 0b1010#8, 5#8, 2#8, 0x00#8, 0xFF#8] = .ok (.writeBytes 5 [0x00#8, 0xFF#8]) ∧
    decode [3#8, 0b1011#8, 5#8, 1#8, 0x48#8] = .ok (.writeText 5 ['H']) ∧
    decode [3#8, 0b1100#8, 5#8, 9#8, 1#8, 0xAA#8, 2#8] = .ok (.createChar 5 9 [0xAA#8] 2) ∧
    decode [3#8, 0b1101#8, 5#8] = .ok (.scrollDisplayLeft 5) ∧
    decode [3#8, 0b1110#8, 5#8] = .ok (.scrollDisplayRight 5) ∧
    decode [3#8, 0b1111#8, 5#8, 1#8] = .ok (.moveCursor 5 true) := ⟨rfl, rfl, rfl, rfl, rfl, rfl, rfl, rfl⟩

/-- The command bytes no row covers, those R99 lists first, last and between: each a direct `Send`. -/
theorem test_decode_uncovered :
    decode [0#8, 0x00#8, 0#8, 5#8] = .ok (.send 5 0x00#8 false false) ∧
    decode [0#8, 0x11#8, 0#8, 5#8] = .ok (.send 5 0x11#8 false false) ∧
    decode [0#8, 0x3F#8, 0#8, 5#8] = .ok (.send 5 0x3F#8 false false) ∧
    decode [0#8, 0x7F#8, 0#8, 5#8] = .ok (.send 5 0x7F#8 false false) := ⟨rfl, rfl, rfl, rfl⟩

/-- Rejected by name: a format and an index beyond the tables, a Bool of 2, a record cut short, a byte after
the last operand. -/
theorem test_decode_rejects :
    decode [4#8, 0#8] = .error .badFormat ∧
    decode [1#8, 4#8] = .error .badIndex ∧
    decode [3#8, 2#8, 0#8, 2#8] = .error .badOperand ∧
    decode [3#8, 9#8, 0#8, 1#8] = .error .truncated ∧
    decode [3#8, 7#8, 0#8, 1#8] = .error .trailingBytes := ⟨rfl, rfl, rfl, rfl, rfl⟩

/-- Table words as the table numbers them, at the table's own widths. -/
theorem test_table_words :
    decodeTableWord 16 0x001 = some (.clearDisplay 0) ∧
    decodeTableWord 9 0x148 = some (.data 0 0x48#8) ∧
    decodeTableWord 2 0b11 = some (.release 0) ∧
    decodeTableWord 3 0b101 = some (.pushDisplayControl 0) ∧
    decodeTableWord 8 0b1001 = some (.setCursorPosition 0 0 0) ∧
    decodeTableWord 8 16 = none := ⟨rfl, rfl, rfl, rfl, rfl, rfl⟩

/-! ## Link operations (95_test_vectors.md 2.1, 2.2) -/

/-- V-C1. -/
theorem test_linkConstruct_ok :
    outcomeOf (exec (.linkConstruct .fourBit pins4) State.reset) = .okLink 0 ∧
    (linksOf (exec (.linkConstruct .fourBit pins4) State.reset)).map (fun k => (k.mode, k.released, k.pin.rs,
      k.pin.rw, k.pin.d4, k.pin.d0)) = [(.fourBit, false, some .U, none, some .U, none)] ∧
    traceOf (exec (.linkConstruct .fourBit pins4) State.reset) = [] := by
  refine ⟨?_, ?_, ?_⟩ <;> rfl

/-- V-C2, V-C3, V-C4, V-C10. -/
theorem test_linkConstruct_missing :
    exec (.linkConstruct .eightBit pins4) State.reset =
      .next { State.reset with outcome := .error .configurationError } ∧
    outcomeOf (exec (.linkConstruct .fourBit { pins4 with d7 := false }) up) = .error .configurationError ∧
    outcomeOf (exec (.linkConstruct .fourBit { pins4 with rs := false }) up) = .error .configurationError ∧
    linksOf (exec (.linkConstruct .fourBit { pins4 with rs := false, d6 := false }) up) = [link4] := by
  refine ⟨?_, ?_, ?_, ?_⟩ <;> rfl

/-- V-M1, V-M2. -/
theorem test_fourBitMode :
    outcomeOf (exec (.fourBitMode 0) up) = .okBool true ∧
    outcomeOf (exec (.fourBitMode 0) down) = .okBool true ∧
    outcomeOf (exec (.fourBitMode 0) up8) = .okBool false := by
  refine ⟨?_, ?_, ?_⟩ <;> rfl

/-- V-L1, its data lines in ascending order. -/
theorem test_send_four :
    traceOf (exec (.send 0 0x28#8 false true) (stateOf (Link.fresh .fourBit pinsAll) ctl4)) =
      [.pin 0 .rs .L, .pin 0 .rw .L, .pin 0 .d4 .L, .pin 0 .d5 .H, .pin 0 .d6 .L, .pin 0 .d7 .L] ++ pulse ++
      [.pin 0 .d4 .L, .pin 0 .d5 .L, .pin 0 .d6 .L, .pin 0 .d7 .H] ++ pulse := by rfl

/-- V-L4, its data lines in ascending order, and V-L9. -/
theorem test_send_eight :
    traceOf (exec (.send 0 0x41#8 true true) up8) =
      [.pin 0 .rs .H, .pin 0 .d0 .H, .pin 0 .d1 .L, .pin 0 .d2 .L, .pin 0 .d3 .L, .pin 0 .d4 .L,
        .pin 0 .d5 .L, .pin 0 .d6 .H, .pin 0 .d7 .L] ++ pulse ∧
    exec (.send 0 0x01#8 false true) down = .next { down with outcome := .error .disposedError } := by
  refine ⟨?_, ?_⟩ <;> rfl

/-- V-R1, V-R2. -/
theorem test_release :
    traceOf (exec (.release 0) up) =
      [.release 0 .rs, .release 0 .e, .release 0 .d4, .release 0 .d5, .release 0 .d6, .release 0 .d7] ∧
    linksOf (exec (.release 0) up) = [linkOff] ∧
    exec (.release 0) down = .next { down with outcome := .ok } := by
  refine ⟨?_, ?_, ?_⟩ <;> rfl

/-! ## Micro-operations, the examples of their rules -/

/-- R113's example, and its refusal on a `FourBit` link (log 15). -/
theorem test_writeData8 :
    traceOf (exec (.writeData8 0 0x38#8) up8) =
      [.pin 0 .d0 .L, .pin 0 .d1 .L, .pin 0 .d2 .L, .pin 0 .d3 .H, .pin 0 .d4 .H, .pin 0 .d5 .H,
        .pin 0 .d6 .L, .pin 0 .d7 .L] ∧
    exec (.writeData8 0 0x38#8) up = .refused .lineNotDriven := by
  refine ⟨?_, ?_⟩ <;> rfl

/-- R114's two examples. -/
theorem test_writeNibble :
    traceOf (exec (.writeNibble 0 0x2#4) up) =
      [.pin 0 .d4 .L, .pin 0 .d5 .H, .pin 0 .d6 .L, .pin 0 .d7 .L] ∧
    traceOf (exec (.writeNibble 0 0x8#4) up) =
      [.pin 0 .d4 .L, .pin 0 .d5 .L, .pin 0 .d6 .L, .pin 0 .d7 .H] := by
  refine ⟨?_, ?_⟩ <;> rfl

/-- R115's example. -/
theorem test_enablePulse : traceOf (exec (.enablePulse 0) up) = pulse := by rfl

/-- R131's example. -/
theorem test_sendCommand :
    ctlTrace (exec (.sendCommand 0 0x0C#8) up) = [cm 0x0C#8] ∧
    seen .fourBit pins4 (exec (.sendCommand 0 0x0C#8) up) = [(false, 0x0C#8)] := by
  refine ⟨?_, ?_⟩ <;> rfl

theorem test_sendData :
    ctlTrace (exec (.sendData 0 0x48#8) up) = [dt 0x48#8] ∧
    seen .fourBit pins4 (exec (.sendData 0 0x48#8) up) = [(true, 0x48#8)] := by
  refine ⟨?_, ?_⟩ <;> rfl

/-- The table of 2.4: visible alone gives `0C`. -/
theorem test_pushDisplayControl : ctlTrace (exec (.pushDisplayControl 0) up) = [cm 0x0C#8] := by rfl

/-! ## Construct and Begin (2.3) -/

/-- V-B9. -/
theorem test_construct :
    ctlTrace (exec (.construct 0) { up with ctls := [] }) =
      [.wait .warmup, cm 0x03#8, .wait .hsLong, cm 0x03#8, .wait .hsLong, cm 0x03#8, .wait .hs4Short,
        cm 0x02#8, cm 0x20#8, cm 0x0C#8, cm 0x01#8, .wait .clear, cm 0x06#8] ∧
    ctlsOf (exec (.construct 0) { up with ctls := [] }) =
      [{ ctl4 with numCols := 16, numRows := 1, displayFunction := 0x00#8 }] := by
  refine ⟨?_, ?_⟩ <;> decide +kernel

/-- V-B11. -/
theorem test_construct_released :
    traceOf (exec (.construct 0) { down with ctls := [] }) = [.wait .warmup, cm 0x03#8] ∧
    outcomeOf (exec (.construct 0) { down with ctls := [] }) = .error .disposedError ∧
    (ctlsOf (exec (.construct 0) { down with ctls := [] })).map
      (fun k => (k.phase, k.numCols, k.numRows, k.displayFunction)) =
      [(.uninitialized, 16, 1, 0x00#8)] := by
  refine ⟨?_, ?_, ?_⟩ <;> rfl

/-- V-B1, V-B6. -/
theorem test_begin_four :
    ctlTrace (exec (.beginOp 0 20 4 true false) up) =
      [.wait .warmup, cm 0x03#8, .wait .hsLong, cm 0x03#8, .wait .hsLong, cm 0x03#8, .wait .hs4Short,
        cm 0x02#8, cm 0x28#8, cm 0x0C#8, cm 0x01#8, .wait .clear, cm 0x06#8] ∧
    ctlsOf (exec (.beginOp 0 20 4 true false) (stateOf link4 ctlOff)) = [ctl4] ∧
    exec (.beginOp 0 16 0 true false) up = .refused .rowsOutOfRange ∧
    exec (.beginOp 0 16 5 true false) down = .refused .rowsOutOfRange := by
  refine ⟨?_, ?_, ?_, ?_⟩ <;> first | decide +kernel | rfl

/-- V-B2. -/
theorem test_begin_eight :
    ctlTrace (exec (.beginOp 0 16 2 false false) up8) =
      [.wait .warmup, cm 0x38#8, .wait .hsLong, cm 0x38#8, .wait .hs8Short, cm 0x38#8, cm 0x38#8, cm 0x0C#8,
        cm 0x01#8, .wait .clear, cm 0x04#8] ∧
    ctlsOf (exec (.beginOp 0 16 2 false false) up8) =
      [{ ctl4 with numCols := 16, numRows := 2, displayFunction := 0x18#8, leftToRight := false }] := by
  refine ⟨?_, ?_⟩ <;> decide +kernel

/-! ## Properties (2.4) -/

/-- V-P2. -/
theorem test_setVisible :
    ctlTrace (exec (.setVisible 0 false) up) = [cm 0x08#8] ∧
    ctlsOf (exec (.setVisible 0 false) up) = [{ ctl4 with visible := false }] := by
  refine ⟨?_, ?_⟩ <;> rfl

/-- V-P3, V-P11. -/
theorem test_setShowCursor :
    ctlTrace (exec (.setShowCursor 0 true) up) = [cm 0x0E#8] ∧
    traceOf (exec (.setShowCursor 0 true) down) = [cm 0x0E#8] ∧
    ctlsOf (exec (.setShowCursor 0 true) down) = [{ ctl4 with showCursor := true }] := by
  refine ⟨?_, ?_, ?_⟩ <;> rfl

/-- V-P4, V-P5. -/
theorem test_setBlinkCursor :
    ctlTrace (exec (.setBlinkCursor 0 true) (stateOf link4 { ctl4 with showCursor := true })) = [cm 0x0F#8] ∧
    ctlTrace (exec (.setBlinkCursor 0 true) up) = [cm 0x0D#8] := by
  refine ⟨?_, ?_⟩ <;> rfl

/-- V-P7, V-P8. -/
theorem test_setBacklight :
    ctlTrace (exec (.setBacklight 0 false) up) = [.xfer 0 0x0C#8 false false] ∧
    traceOf (exec (.setBacklight 0 false) (stateOf link4 { ctl4 with backlight := false })) = [] := by
  refine ⟨?_, ?_⟩ <;> rfl

/-- V-P10, V-E2. -/
theorem test_getProperty :
    outcomeOf (exec (.getProperty 0 .showCursor) (stateOf link4 { ctl4 with showCursor := true })) =
      .okBool true ∧
    exec (.getProperty 0 .visible) (stateOf linkOff ctlOff) = .refused .notReady := by
  refine ⟨?_, ?_⟩ <;> rfl

/-! ## Clear, Home, SetCursorPosition (2.5) -/

/-- V-H1, V-H3. -/
theorem test_clear :
    ctlTrace (exec (.clear 0) up) = [cm 0x01#8, .wait .clear] ∧
    traceOf (exec (.clear 0) down) = [cm 0x01#8] := by
  refine ⟨?_, ?_⟩ <;> rfl

/-- V-H2. -/
theorem test_home : ctlTrace (exec (.home 0) up) = [cm 0x02#8, .wait .home] := by rfl

/-- V-A2 to V-A5, V-A9. -/
theorem test_setCursorPosition :
    ctlTrace (exec (.setCursorPosition 0 5 1) up) = [cm 0xC5#8] ∧
    ctlTrace (exec (.setCursorPosition 0 3 2) up) = [cm 0x97#8] ∧
    ctlTrace (exec (.setCursorPosition 0 19 3) up) = [cm 0xE7#8] ∧
    ctlTrace (exec (.setCursorPosition 0 0 7) up) = [cm 0xD4#8] ∧
    ctlTrace (exec (.setCursorPosition 0 43 3) up) = [cm 0xFF#8] := by
  refine ⟨?_, ?_, ?_, ?_, ?_⟩ <;> rfl

/-- V-A10, V-A11, V-A13. -/
theorem test_setCursorPosition_edges :
    ctlTrace (exec (.setCursorPosition 0 44 3) up) = [cm 0x80#8] ∧
    ctlTrace (exec (.setCursorPosition 0 0 3) (stateOf link4 { ctl4 with numRows := 2 })) = [cm 0xC0#8] ∧
    ctlTrace (exec (.setCursorPosition 0 7 1) (stateOf link4 { ctl4 with numRows := 1 })) = [cm 0x87#8] := by
  refine ⟨?_, ?_, ?_⟩ <;> rfl

/-! ## Writes and glyphs (2.6) -/

/-- V-W2, V-W1, V-W6. -/
theorem test_writeBytes :
    ctlTrace (exec (.writeBytes 0 [0x00#8, 0xFF#8]) up) = [dt 0x00#8, dt 0xFF#8] ∧
    exec (.writeBytes 0 []) down = .next { down with outcome := .ok } ∧
    traceOf (exec (.writeBytes 0 [0x41#8, 0x42#8, 0x43#8]) down) = [dt 0x41#8] := by
  refine ⟨?_, ?_, ?_⟩ <;> rfl

/-- V-W3, V-W4. -/
theorem test_writeText :
    ctlTrace (exec (.writeText 0 ['H', 'E', 'L', 'L', 'O']) up) =
      [dt 0x48#8, dt 0x45#8, dt 0x4C#8, dt 0x4C#8, dt 0x4F#8] ∧
    ctlTrace (exec (.writeText 0 ['é']) up) = [dt 0xC3#8, dt 0xA9#8] := by
  refine ⟨?_, ?_⟩ <;> rfl

/-- V-G1. -/
theorem test_createChar :
    ctlTrace (exec (.createChar 0 9 [0x00, 0x0A, 0x1F, 0x1F, 0x0E, 0x04, 0x00, 0x00] 0) up) =
      [cm 0x48#8, dt 0x00#8, dt 0x0A#8, dt 0x1F#8, dt 0x1F#8, dt 0x0E#8, dt 0x04#8, dt 0x00#8,
        dt 0x00#8] := by decide +kernel

/-- V-G2, V-G4. -/
theorem test_createChar_offset :
    ctlTrace (exec (.createChar 0 0 [0xAA, 0xBB, 0x00, 0x0A, 0x1F, 0x1F, 0x0E, 0x04, 0x00, 0x00] 2) up) =
      [cm 0x40#8, dt 0x00#8, dt 0x0A#8, dt 0x1F#8, dt 0x1F#8, dt 0x0E#8, dt 0x04#8, dt 0x00#8,
        dt 0x00#8] ∧
    exec (.createChar 0 0 [0, 1, 2, 3, 4, 5, 6] 0) up = .refused .bitmapTooShort := by
  refine ⟨?_, ?_⟩ <;> first | decide +kernel | rfl

/-! ## Shifts (2.7) -/

/-- V-S1. -/
theorem test_scrollDisplayLeft : ctlTrace (exec (.scrollDisplayLeft 0) up) = [cm 0x18#8] := by rfl
/-- V-S2. -/
theorem test_scrollDisplayRight : ctlTrace (exec (.scrollDisplayRight 0) up) = [cm 0x1C#8] := by rfl
/-- V-S3, V-S4. -/
theorem test_moveCursor :
    ctlTrace (exec (.moveCursor 0 true) up) = [cm 0x14#8] ∧
    ctlTrace (exec (.moveCursor 0 false) up) = [cm 0x10#8] := by
  refine ⟨?_, ?_⟩ <;> rfl

/-! ## The bus encodings: the transfer each puts on the link, the values of R84 to R93 -/

theorem test_bus_fixed :
    seen .eightBit pins8 (exec (.clearDisplay 0) up8) = [(false, 0x01#8)] ∧
    seen .fourBit pins4 (exec (.returnHome 0) up) = [(false, 0x02#8)] ∧
    seen .fourBit pins4 (exec (.hsProbe 0) up) = [(false, 0x03#8)] ∧
    seen .fourBit pins4 (exec (.hsCommit4 0) up) = [(false, 0x02#8)] ∧
    seen .eightBit pins8 (exec (.data 0 0x41#8) up8) = [(true, 0x41#8)] := by
  refine ⟨?_, ?_, ?_, ?_, ?_⟩ <;> rfl

theorem test_bus_composed :
    seen .eightBit pins8 (exec (.entryModeSet 0 true false) up8) = [(false, 0x06#8)] ∧
    seen .fourBit pins4 (exec (.displayControl 0 false true true) up) = [(false, 0x0B#8)] ∧
    seen .eightBit pins8 (exec (.cursorShift 0 true true) up8) = [(false, 0x1C#8)] ∧
    seen .eightBit pins8 (exec (.functionSet 0 true false true) up8) = [(false, 0x34#8)] ∧
    seen .fourBit pins4 (exec (.setCgramAddr 0 7#3) up) = [(false, 0x78#8)] ∧
    seen .eightBit pins8 (exec (.setDdramAddr 0 0x7F#7) up8) = [(false, 0xFF#8)] := by
  refine ⟨?_, ?_, ?_, ?_, ?_, ?_⟩ <;> rfl

/-! ## Steps -/

/-- The next call of the queue is what a step runs, and it is gone afterwards. -/
theorem test_step :
    step ({ up with pending := [.clear 0, .home 0] } : State) =
      exec (.clear 0) { up with pending := [.home 0] } ∧
    step State.reset = .next State.reset ∧
    step (State.reset.withFetchWord 2 0b00) =
      .next { State.reset with links := [Link.fresh .fourBit pinsAll], outcome := .okLink 0 } := by
  refine ⟨rfl, rfl, rfl⟩

/-- Whether an answer is a next state. -/
def isNext : Answer → Bool
  | .next _ => true
  | .fault _ | .refused _ => false

/-- The refusal of an answer. -/
def refusalOf : Answer → Option Refusal
  | .refused r => some r
  | .next _ | .fault _ => none

/-- From reset, the word of every BUS9, LINKOP and HOSTOP row of the opcode table, its fields zero, runs as the
next step, and so do the command bytes no row covers (R99); the word of a MICROOP row, which the host cannot call (R103), is refused. -/
theorem test_table_words_run :
    ([0x001, 0x002, 0x004, 0x008, 0x010, 0x020, 0x040, 0x080, 0x100, 0x003, 0x000, 0x011, 0x07F].all fun w =>
      isNext (step (State.reset.withFetchWord 16 w))) = true ∧
    ((List.range 4).all fun w => isNext (step (State.reset.withFetchWord 2 w))) = true ∧
    ((List.range 16).all fun w => isNext (step (State.reset.withFetchWord 8 w))) = true ∧
    ((List.range 6).map fun w => refusalOf (step (State.reset.withFetchWord 3 w))) =
      List.replicate 6 (some .notHostCallable) := by
  refine ⟨?_, ?_, ?_, ?_⟩ <;> decide +kernel

/-! ## Witnesses: a concrete state and operands that meet the hypotheses of each statement, clause by clause

`upRw` has `RW` assigned, `up8` an 8-bit link, `down` a released link; rows and offsets stand at the ends of
their ranges. -/

/-- A controller ready on a 4-bit link with `RW` and all data lines assigned. -/
def upRw : State := stateOf (Link.fresh .fourBit pinsAll) ctl4

/-- The controller of `up8`. -/
def ctl8 : Ctl := { ctl4 with displayFunction := 0x18#8 }

theorem up_ready : up.CtlUp 0 ctl4 link4 ∧ ctl4.phase = .ready := ⟨⟨rfl, rfl, rfl, rfl⟩, rfl⟩
theorem upRw_ready : upRw.CtlUp 0 ctl4 (Link.fresh .fourBit pinsAll) ∧ ctl4.phase = .ready :=
  ⟨⟨rfl, rfl, rfl, rfl⟩, rfl⟩
theorem up8_ready : up8.CtlUp 0 ctl8 link8 ∧ ctl8.phase = .ready := ⟨⟨rfl, rfl, rfl, rfl⟩, rfl⟩
theorem down_ready : down.CtlDown 0 ctl4 linkOff ∧ ctl4.phase = .ready := ⟨⟨rfl, rfl, rfl⟩, rfl⟩

theorem up_inv : up.Inv where
  links k hk := by
    rw [show k = link4 by simpa [up, stateOf] using hk]
    exact Link.WF.fresh rfl
  ctls c hc := by
    rw [show c = ctl4 by simpa [up, stateOf] using hc]
    exact ⟨link4, rfl, ⟨by decide, by decide⟩, ⟨false, rfl⟩, rfl⟩

theorem up8_inv : up8.Inv where
  links k hk := by
    rw [show k = link8 by simpa [up8, stateOf] using hk]
    exact Link.WF.fresh rfl
  ctls c hc := by
    rw [show c = ctl8 from List.mem_singleton.1 hc]
    exact ⟨link8, rfl, ⟨by decide, by decide⟩, ⟨false, rfl⟩, rfl⟩

/-- An operation's own encoding, and the record of a word no row covers. -/
theorem witness_DecodedRecordIsThePaddedEncoding :
    decode [3#8, 7#8, 0#8, 0#8] = .ok (.clear 0) ∧
    decode [0#8, 0x11#8, 0#8, 0#8] = .ok (.send 0 0x11#8 false false) := ⟨rfl, rfl⟩

/-- Every row, on a link that can send and on a released one. -/
theorem witness_BusWordIsTheTransferSent :
    (∃ w, busWord (.functionSet 0 true true false) = some w) ∧
    linkOf up8 (.functionSet 0 true true false) = some 0 ∧ up8.LinkUp 0 link8 ∧
    linkOf up (.hsCommit4 0) = some 0 ∧ up.LinkUp 0 link4 ∧
    (linkOf down (.data 0 0#8) = some 0 ∧ down.links[0]? = some linkOff ∧ linkOff.released = true) :=
  ⟨⟨_, rfl⟩, rfl, up8_ready.1.2, rfl, up_ready.1.2, rfl, rfl, rfl⟩

theorem witness_StepRunsTheNextCall :
    ({ up with pending := [.home 0] } : State).pending = .home 0 :: [] ∧
    hostCallable (.home 0) = true ∧
    ({ up with pending := [.enablePulse 0] } : State).pending = .enablePulse 0 :: [] ∧
    hostCallable (.enablePulse 0) = false := ⟨rfl, rfl, rfl, rfl⟩

/-- No call; a call the host cannot make; one whose operation is refused; one that faults. -/
theorem witness_StepWithoutAnOperation :
    up.pending = [] ∧
    step { up with pending := [.enablePulse 0] } = .refused .notHostCallable ∧
    step { up with pending := [.beginOp 0 16 5 true false] } = .refused .rowsOutOfRange ∧
    step { up with links := [], pending := [.clear 0] } = .fault .danglingLink := ⟨rfl, rfl, rfl, rfl⟩

/-- Words called on a controller, on a link and on nothing; a state with both, and reset with neither. -/
theorem witness_FetchedTableWordRunsNext :
    (decodeTableWord 8 0b0111 = some (.clear 0) ∧ hostCallable (.clear 0) = true ∧
      targetOf (.clear 0) = .controller) ∧
    (decodeTableWord 16 0x1FF = some (.data 0 0xFF#8) ∧ targetOf (.data 0 0xFF#8) = .link) ∧
    (decodeTableWord 2 0b00 = some (.linkConstruct .fourBit pinsAll) ∧
      targetOf (.linkConstruct .fourBit pinsAll) = .nothing) ∧
    up.links ≠ [] ∧ up.ctls ≠ [] ∧ State.reset.links = [] :=
  ⟨⟨rfl, rfl, rfl⟩, ⟨rfl, rfl⟩, ⟨rfl, rfl⟩, by decide, by decide, rfl⟩

theorem witness_StepKeepsTheInvariant :
    ∃ t, ({ up with pending := [.home 0] } : State).Inv ∧
      step { up with pending := [.home 0] } = .next t := ⟨_, ⟨up_inv.links, up_inv.ctls⟩, rfl⟩

/-- Both modes at their least legal assignment, and each with one line too few. -/
theorem witness_LinkConstructMakesAFreshLink :
    legalPins .fourBit pins4 = true ∧ legalPins .eightBit pins8 = true ∧
    legalPins .fourBit { pins4 with d7 := false } = false ∧
    legalPins .eightBit { pins8 with d0 := false } = false := ⟨rfl, rfl, rfl, rfl⟩

/-- An operation that ends so, and operations that do not: `RW` and `D0` to `D3` missing are no error. -/
theorem witness_ConfigurationErrorExactlyForMissingLines :
    (∃ t, exec (.linkConstruct .eightBit { pins8 with d0 := false }) up = .next t ∧
      t.outcome = .error .configurationError) ∧
    outcomeOf (exec (.linkConstruct .fourBit pins4) up) = .okLink 1 ∧
    outcomeOf (exec (.linkConstruct .eightBit pins8) up) = .okLink 1 := ⟨⟨_, rfl, rfl⟩, rfl, rfl⟩

theorem witness_FourBitModeReadsTheMode :
    up8.links[0]? = some link8 ∧ down.links[0]? = some linkOff := ⟨rfl, rfl⟩

theorem witness_SendPutsItsByteOnTheLink :
    up.LinkUp 0 link4 ∧ up8.LinkUp 0 link8 ∧ down.links[0]? = some linkOff ∧ linkOff.released = true :=
  ⟨up_ready.1.2, up8_ready.1.2, rfl, rfl⟩

/-- Both modes, with and without `RW`. -/
theorem witness_SendEmitsItsEvents :
    upRw.LinkUp 0 (Link.fresh .fourBit pinsAll) ∧ up.LinkUp 0 link4 ∧ up8.LinkUp 0 link8 :=
  ⟨upRw_ready.1.2, up_ready.1.2, up8_ready.1.2⟩

/-- The counts of V-L1 to V-L4: 18 and 17, and 13 events. -/
theorem witness_SendCountsItsEvents :
    upRw.LinkUp 0 (Link.fresh .fourBit pinsAll) ∧ up.LinkUp 0 link4 ∧ up8.LinkUp 0 link8 ∧
    (traceOf (exec (.send 0 0#8 false true) upRw)).length = 18 ∧
    (traceOf (exec (.send 0 0#8 false true) up)).length = 17 ∧
    (traceOf (exec (.send 0 0#8 false true) up8)).length = 13 :=
  ⟨upRw_ready.1.2, up_ready.1.2, up8_ready.1.2, rfl, rfl, rfl⟩

/-- V-L10: two `Send` calls. -/
theorem witness_SendSequenceShowsItsTransfers :
    up.LinkUp 0 link4 ∧
    transfers .fourBit (cycles 0 pins4 (traceOf (execAll [.send 0 0x80#8 false true, .send 0 0x48#8 true true]
      up))) = [(false, 0x80#8), (true, 0x48#8)] := ⟨up_ready.1.2, by decide +kernel⟩

theorem witness_ReleaseFreesEveryLineOnce :
    up.links[0]? = some link4 ∧ link4.released = false ∧
    down.links[0]? = some linkOff ∧ linkOff.released = true := ⟨rfl, rfl, rfl, rfl⟩

theorem witness_ReleasedOnceReleasedForEver :
    (∃ t, exec (.linkConstruct .fourBit pins4) up = .next t ∧ t.outcome = .okLink 1) ∧
    (∃ t, exec (.clear 0) up = .next t ∧ up.links[0]? = some link4 ∧ link4.released = false ∧
      Instr.clear 0 ≠ .release 0) ∧
    (∃ u, down.links[0]? = some linkOff ∧ linkOff.released = true ∧
      execAll [.release 0, .clear 0, .fourBitMode 0] down = .next u) :=
  ⟨⟨_, rfl, rfl⟩, ⟨_, rfl, rfl, rfl, by decide⟩, ⟨_, rfl, rfl, rfl⟩⟩

theorem witness_MicroOperationsWriteTheirLines :
    up8.LinkUp 0 link8 ∧ link8.mode = .eightBit ∧ up.LinkUp 0 link4 := ⟨up8_ready.1.2, rfl, up_ready.1.2⟩

theorem witness_MicroOperationsRefusedOffTheirLink :
    down.links[0]? = some linkOff ∧ linkOff.released = true ∧
    up.links[0]? = some link4 ∧ link4.mode = .fourBit := ⟨rfl, rfl, rfl, rfl⟩

theorem witness_EveryLineOrderIsPermitted :
    [Line.d7, .d6, .d5, .d4].Perm nibbleLines ∧ permute 23 nibbleLines = [.d7, .d6, .d5, .d4] :=
  ⟨by decide, by decide⟩

theorem witness_SendCommandAndSendDataCarryTheBacklight :
    up.CtlUp 0 ctl4 link4 ∧ (stateOf link4 ctlOff).CtlUp 0 ctlOff link4 ∧ down.CtlDown 0 ctl4 linkOff :=
  ⟨up_ready.1, ⟨rfl, rfl, rfl, rfl⟩, down_ready.1⟩

theorem witness_PushSendsTheComposedByte : up.CtlUp 0 ctl4 link4 ∧ down.CtlDown 0 ctl4 linkOff :=
  ⟨up_ready.1, down_ready.1⟩

/-- Each of the four properties has a value that changes it. -/
theorem witness_ChangingSetterSendsOneByte :
    up.CtlUp 0 ctl4 link4 ∧ ctl4.phase = .ready ∧ ctl4.property .visible ≠ false ∧
    ctl4.property .showCursor ≠ true ∧ ctl4.property .blinkCursor ≠ true ∧
    ctl4.property .backlight ≠ false := ⟨up_ready.1, rfl, by decide, by decide, by decide, by decide⟩

theorem witness_UnchangedSetterSendsNothing :
    down.ctls[0]? = some ctl4 ∧ down.links[ctl4.link]? = some linkOff ∧ ctl4.phase = .ready ∧
    ctl4.property .visible = true ∧ ctl4.property .showCursor = false := ⟨rfl, rfl, rfl, rfl, rfl⟩

theorem witness_FailedSetterKeepsTheNewFlag :
    down.CtlDown 0 ctl4 linkOff ∧ ctl4.phase = .ready ∧ ctl4.property .showCursor ≠ true :=
  ⟨down_ready.1, rfl, by decide⟩

/-- The counting example of 2.4: 2 of the 5 calls change their flag; a link that can send and a released
one. -/
theorem witness_SetterSequenceSendsItsChanges :
    up.ctls[0]? = some ctl4 ∧ up.links[ctl4.link]? = some link4 ∧ ctl4.phase = .ready ∧
    down.ctls[0]? = some ctl4 ∧ down.links[ctl4.link]? = some linkOff ∧
    changes ctl4 [(.visible, true), (.visible, false), (.visible, false), (.showCursor, true),
      (.backlight, true)] = 2 := ⟨rfl, rfl, rfl, rfl, rfl, rfl⟩

theorem witness_GetPropertyReadsTheCache :
    down.ctls[0]? = some ctl4 ∧ down.links[ctl4.link]? = some linkOff ∧ ctl4.phase = .ready :=
  ⟨rfl, rfl, rfl⟩

theorem witness_ClearAndHomeSendAndWait : up.CtlUp 0 ctl4 link4 ∧ ctl4.phase = .ready := up_ready

/-- The first and the last row, and addresses `0x7F` and `0x80` (V-A9, V-A10). -/
theorem witness_SetCursorPositionSendsTheAddress :
    up.CtlUp 0 ctl4 link4 ∧ ctl4.phase = .ready ∧
    ([0x00, 0x40, 0x14, 0x54] : List Nat)[0]? = some 0x00 ∧
    ([0x00, 0x40, 0x14, 0x54] : List Nat)[3]? = some 0x54 ∧ 43 + 0x54 ≤ 0x7F ∧ ¬ 44 + 0x54 ≤ 0x7F :=
  ⟨up_ready.1, rfl, rfl, rfl, by decide, by decide⟩

/-- Rows 3 and 4 of a controller of 4 rows. -/
theorem witness_RowClampLaw : up.ctls[0]? = some ctl4 ∧ 4 ≥ ctl4.numRows ∧ 3 < ctl4.numRows :=
  ⟨rfl, by decide, by decide⟩

theorem witness_WritesSendEveryByte : up.CtlUp 0 ctl4 link4 ∧ ctl4.phase = .ready := up_ready

theorem witness_WritesCompose : up8.CtlUp 0 ctl8 link8 ∧ ctl8.phase = .ready := up8_ready

/-- 8 bytes at offset 0, and at offset 1; the refusal on a link that can send and on a released one. -/
theorem witness_CreateCharSendsTheGlyph :
    up.ctls[0]? = some ctl4 ∧ up.links[ctl4.link]? = some link4 ∧ up.CtlUp 0 ctl4 link4 ∧
    ctl4.phase = .ready ∧ down.ctls[0]? = some ctl4 ∧ down.links[ctl4.link]? = some linkOff ∧
    0 + 8 ≤ (List.replicate 8 0xFF#8).length ∧ (List.replicate 8 0xFF#8).length < 1 + 8 :=
  ⟨rfl, rfl, up_ready.1, rfl, rfl, rfl, by decide, by decide⟩

theorem witness_ShiftsSendTheirByte : up.CtlUp 0 ctl4 link4 ∧ ctl4.phase = .ready := up_ready

/-- Rows 0, 1, 4 and 5; links of both modes, and a released link. -/
theorem witness_BeginRunsItsSevenSteps :
    up.ctls[0]? = some ctl4 ∧ up.links[ctl4.link]? = some link4 ∧ up.CtlUp 0 ctl4 link4 ∧
    (0 < 1 ∨ 0 > 4) ∧ (5 < 1 ∨ 5 > 4) ∧ (1 ≤ 1 ∧ 1 ≤ 4) ∧ (1 ≤ 4 ∧ 4 ≤ 4) ∧
    up8.CtlUp 0 ctl8 link8 ∧ down.CtlDown 0 ctl4 linkOff :=
  ⟨rfl, rfl, up_ready.1, by decide, by decide, by decide, by decide, up8_ready.1, down_ready.1⟩

theorem witness_ConstructRunsTheDefaultBegin :
    up.links[0]? = some link4 ∧ up.LinkUp 0 link4 ∧ up8.LinkUp 0 link8 ∧
    down.links[0]? = some linkOff ∧ linkOff.released = true :=
  ⟨rfl, up_ready.1.2, up8_ready.1.2, rfl, rfl⟩

/-- TS6: rows 1 and 2, with the large font asked for. -/
theorem witness_DisplayFunctionIsComposed :
    up.CtlUp 0 ctl4 link4 ∧ up8.CtlUp 0 ctl8 link8 ∧
    (ctlsOf (exec (.beginOp 0 16 1 true true) up)).map Ctl.displayFunction = [0x04#8] ∧
    (ctlsOf (exec (.beginOp 0 16 2 true true) up)).map Ctl.displayFunction = [0x08#8] :=
  ⟨up_ready.1, up8_ready.1, by decide +kernel, by decide +kernel⟩

theorem witness_DefaultEncoderOnAscii : ∀ ch ∈ ['H', '~'], ch.toNat < 0x80 := by
  simp

theorem witness_NothingBeforeBegin :
    needsReady (.getProperty 0 .visible) = true ∧
    ctlOf (stateOf linkOff ctlOff) (.getProperty 0 .visible) = some 0 ∧
    (stateOf linkOff ctlOff).ctls[0]? = some ctlOff ∧
    (stateOf linkOff ctlOff).links[ctlOff.link]? = some linkOff ∧ ctlOff.phase = .uninitialized :=
  ⟨rfl, rfl, rfl, rfl, rfl⟩

/-- By a link operation and by a controller operation; `WriteText` of one byte, and of none, which ends
`ok`. -/
theorem witness_DisposedErrorOnlyFromASend :
    (∃ t, exec (.send 0 0#8 false true) down = .next t ∧ t.outcome = .error .disposedError) ∧
    (∃ t, exec (.setVisible 0 false) down = .next t ∧ t.outcome = .error .disposedError) ∧
    (∃ t, exec (.writeText 0 ['H']) down = .next t ∧ t.outcome = .error .disposedError ∧
      down.ctls[0]? = some ctl4) ∧
    outcomeOf (exec (.writeText 0 []) down) = .ok :=
  ⟨⟨_, rfl, rfl⟩, ⟨_, rfl, rfl⟩, ⟨_, rfl, rfl, rfl⟩, rfl⟩

theorem witness_FirstTransferFailsAfterRelease :
    down.CtlDown 0 ctl4 linkOff ∧ ctl4.phase = .ready ∧ encodeText ctl4.encode ['H'] = 0x48#8 :: [] ∧
    0 + 8 ≤ (List.replicate 8 0#8).length := ⟨down_ready.1, rfl, rfl, by decide⟩

/-- A Begin that makes its controller ready, and an operation that leaves it so. -/
theorem witness_OnlyBeginMakesReady :
    (∃ t, exec (.beginOp 0 20 4 true false) (stateOf link4 ctlOff) = .next t ∧
      (stateOf link4 ctlOff).ctls[0]? = some ctlOff) ∧
    (∃ t, exec (.clear 0) up = .next t ∧ up.ctls[0]? = some ctl4) := ⟨⟨_, rfl, rfl⟩, ⟨_, rfl, rfl⟩⟩

theorem witness_CachedFieldsHaveTheirWriters :
    (∃ t, exec (.setVisible 0 false) up = .next t ∧ up.ctls[0]? = some ctl4) ∧
    (∃ t, exec (.beginOp 0 16 1 false true) up = .next t ∧ up.ctls[0]? = some ctl4) :=
  ⟨⟨_, rfl, rfl⟩, ⟨_, rfl, rfl⟩⟩

theorem witness_LinkConfigurationIsFixed :
    (∃ t, exec (.release 0) up = .next t ∧ up.links[0]? = some link4) ∧
    (∃ t, exec (.home 0) up = .next t ∧ up.links[0]? = some link4) :=
  ⟨⟨_, rfl, rfl⟩, ⟨_, rfl, rfl⟩⟩

/-- Two links and two controllers; the operation works on the second of each. A step that sends and one that
releases. -/
theorem witness_OtherLinksAndControllersUntouched :
    (∃ t, exec (.clear 1)
      ({ up with links := [link4, link8], ctls := [ctl4, { ctl8 with link := 1 }] } : State) = .next t ∧
      t.links[0]? = some link4 ∧ t.ctls[0]? = some ctl4) ∧
    up.links[0]? = some link4 ∧
    (∃ t, step { up with pending := [.home 0] } = .next t ∧
      lineEvents 0 t.trace = lineEvents 0 (traceOf (execAll [.send 0 0x02#8 false true] up))) ∧
    (∃ t, step { up with pending := [.release 0] } = .next t ∧
      lineEvents 0 t.trace = lineEvents 0 (traceOf (exec (.release 0) up))) :=
  ⟨⟨_, rfl, rfl, rfl⟩, rfl, ⟨_, rfl, rfl⟩, ⟨_, rfl, rfl⟩⟩

theorem witness_TraceOnlyGrows : ∃ t, exec (.clear 0) up = .next t := ⟨_, rfl⟩

/-- Another state with the same links but for their pins; an operation that runs and one that is refused. -/
theorem witness_NothingReadsPinsOrTrace :
    (stateOf { link4 with pin := Lines.of fun _ => some .H } ctl4).forgetPins = up.forgetPins ∧
    (∃ t, exec (.clear 0) up = .next t) ∧
    exec (.beginOp 0 16 0 true false) up = .refused .rowsOutOfRange ∧
    exec (.clear 0) ({ up with links := [] } : State) = .fault .danglingLink := ⟨rfl, ⟨_, rfl⟩, rfl, rfl⟩

theorem witness_WaitsOnlyWhereListed :
    ∃ t tr, exec (.setVisible 0 false) up = .next t ∧ t.trace = up.trace ++ tr ∧ .wait .pulse ∈ tr :=
  ⟨_, _, rfl, (List.nil_append _).symm, by decide +kernel⟩

/-- Both modes; rows 1 and 4; a full glyph. -/
theorem witness_MinimumDurations :
    up.CtlUp 0 ctl4 link4 ∧ up8.CtlUp 0 ctl8 link8 ∧
    (∃ t, exec (.beginOp 0 20 4 true false) up = .next t) ∧
    (∃ t, exec (.beginOp 0 16 1 true false) up8 = .next t) ∧
    (∃ t, exec (.writeBytes 0 [0x41#8]) up = .next t) ∧
    (∃ t, exec (.createChar 0 7 (List.replicate 8 0#8) 0) up = .next t) ∧
    (∃ t, exec (setter .visible 0 false) up = .next t) ∧ ctl4.property .visible ≠ false ∧
    (∃ t, exec (.setCursorPosition 0 0 3) up = .next t) ∧ (∃ t, exec (.moveCursor 0 true) up8 = .next t) :=
  ⟨up_ready.1, up8_ready.1, ⟨_, rfl⟩, ⟨_, rfl⟩, ⟨_, rfl⟩, ⟨_, rfl⟩, ⟨_, rfl⟩, by decide, ⟨_, rfl⟩, ⟨_, rfl⟩⟩

theorem witness_PinsCarryExactlyTheTransfers :
    ∃ t, up.Inv ∧ isHostOp (.writeBytes 0 [0x41#8, 0x42#8]) = true ∧
      exec (.writeBytes 0 [0x41#8, 0x42#8]) up = .next t ∧ t.outcome ≠ .error .disposedError ∧
      linkOf up (.writeBytes 0 [0x41#8, 0x42#8]) = some 0 ∧ up.links[0]? = some link4 :=
  ⟨_, up_inv, rfl, rfl, by decide, rfl, rfl⟩

theorem witness_DisposedOperationsWriteNoLine :
    ∃ t, exec (.clear 0) down = .next t ∧ t.outcome = .error .disposedError := ⟨_, rfl, rfl⟩

/-- A display-control byte and a DDRAM address byte. -/
theorem witness_NeverComposedBytesAreNeverSent :
    (∃ t tr, isHostOp (.setVisible 0 false) = true ∧ exec (.setVisible 0 false) up = .next t ∧
      t.trace = up.trace ++ tr ∧ .xfer 0 0x08#8 false true ∈ tr) ∧
    (∃ t tr, isHostOp (.setCursorPosition 0 43 3) = true ∧
      exec (.setCursorPosition 0 43 3) up = .next t ∧ t.trace = up.trace ++ tr ∧
      .xfer 0 0xFF#8 false true ∈ tr) :=
  ⟨⟨_, _, rfl, rfl, (List.nil_append _).symm, by decide +kernel⟩,
    ⟨_, _, rfl, rfl, (List.nil_append _).symm, by decide +kernel⟩⟩

end Sys2Proof.Tests
end

section
/-! PROOFS. Statements about the whole machine (00_scope.md): durations, the default encoder, the trace, what an
operation reads, and the refinement of the controller level by the pins. -/

namespace Sys2Proof.Machine

open Sys2Proof.Config

/-! ## Durations (R13) -/

theorem timeUnit_pos : 0 < timeUnit := by unfold timeUnit; positivity

theorem slack_nonneg (d : Delay) : 0 ≤ slack d := by unfold slack; positivity

theorem pulse_above_bound : 450 < duration .pulse := lt_add_of_pos_right _ (by positivity)

/-- Settles O56: each duration is its bound and a slack that is not negative. -/
theorem durationsMeetTheirBounds : Obligations.DurationsMeetTheirBounds :=
  ⟨timeUnit_pos, le_add_of_nonneg_right (slack_nonneg _), le_add_of_nonneg_right (slack_nonneg _),
    slack_nonneg _, slack_nonneg _, le_add_of_nonneg_right (slack_nonneg _),
    le_add_of_nonneg_right (slack_nonneg _), pulse_above_bound⟩

/-! ## The default encoder (R11) -/

theorem utf8Char_ascii {ch : Char} (h : ch.toNat < 0x80) : utf8Char ch = [BitVec.ofNat 8 ch.toNat] := by
  simp [utf8Char, h]

/-- Settles O45, by induction on the text. -/
theorem defaultEncoderOnAscii : Obligations.DefaultEncoderOnAscii := by
  intro text h
  induction text with
  | nil => rfl
  | cons ch text ih =>
    have ih := ih fun x hx => h x (List.mem_cons_of_mem _ hx)
    simp only [encodeText, List.flatMap_cons, List.map_cons] at ih ⊢
    rw [utf8Char_ascii (h ch List.mem_cons_self), ih, List.singleton_append]

/-! ## The trace only grows (R18, R74) -/

/-- Settles O53, by where a next state can come from. -/
theorem traceOnlyGrows : Obligations.TraceOnlyGrows := by
  intro i s t h
  have quiet : ∃ tr, s.trace = s.trace ++ tr := ⟨[], by simp⟩
  rcases exec_next_cases h with ⟨m, p, rfl, ⟨-, rfl⟩ | ⟨-, rfl⟩⟩ | ⟨l, k, k', tr, -, -, -, hr⟩ | ⟨l, rfl⟩ |
    ⟨c, hc, hn⟩
  · exact ⟨quiet, rfl, rfl⟩
  · exact ⟨quiet, rfl, rfl⟩
  · exact ⟨⟨tr, hr.trace⟩, hr.params, hr.pending⟩
  · obtain ⟨lk, -, ⟨-, rfl⟩ | ⟨-, rfl⟩⟩ := construct_ran h
    · exact ⟨⟨_, rfl⟩, rfl, rfl⟩
    · exact ⟨⟨_, rfl⟩, rfl, rfl⟩
  · obtain ⟨k, lk, k', evs, -, -, -, ⟨-, rfl⟩ | ⟨-, cut, -, rfl⟩ | ⟨-, -, rfl⟩⟩ := ctl_ran hc hn h
    · exact ⟨⟨_, rfl⟩, rfl, rfl⟩
    · exact ⟨⟨_, rfl⟩, rfl, rfl⟩
    · exact ⟨quiet, rfl, rfl⟩

/-! ## The pins refine the controller level (R8, R19, R118) -/

theorem beginTrace_ofController (fourBit : Bool) (c : Nat) (bl : Bool) (fs em : Byte) :
    ∀ e ∈ beginTrace fourBit c bl fs em, e.ofController = true := by
  cases fourBit <;> simp [beginTrace, beginTrace4, beginTrace8, Event.ofController]

theorem ctlOf_ne_none_of_isHostOp {i : Instr} (h : isHostOp i = true) (s : State) : ctlOf s i ≠ none := by
  cases i <;> simp_all [isHostOp, needsReady, ctlOf]

/-- The expanded events of a controller put on the link the transfers they record. -/
theorem transfers_expand (l : Nat) {k : Link} (hk : legalPins k.mode k.assigned = true) (o : List Nat)
    {evs : List Event} (h : ∀ e ∈ evs, e.ofController = true) :
    transfers k.mode (cycles l k.assigned (expand l k o evs)) = xfersOf (expand l k o evs) := by
  rw [← xfersOf_controllerTrace, controllerTrace_expand _ _ _ h]
  exact (shows_expand l hk o h).transfers_eq

/-- Settles O58: a host operation that completes has emitted the expanded events of its controller, and one
that does not complete ends with a DisposedError. -/
theorem pinsCarryExactlyTheTransfers : Obligations.PinsCarryExactlyTheTransfers := by
  intro i s t l k hinv hhost h hok hl hk
  have hlegal := (hinv.links k (List.mem_of_getElem? hk)).legal
  have ok : ∀ {c k' evs o} {s' : State}, s'.trace = s.trace → (∀ e ∈ evs, e.ofController = true) →
      ∃ tr, (s'.afterCtl c k' l k evs o).trace = s.trace ++ tr ∧
        transfers k.mode (cycles l k.assigned tr) = xfersOf tr := fun hs he =>
    ⟨_, by rw [← hs]; rfl, transfers_expand l hlegal _ he⟩
  rcases exec_next_cases h with ⟨m, p, rfl, -⟩ | ⟨_, _, _, _, hc, -⟩ | ⟨l', rfl⟩ | ⟨c, hc, hn⟩
  · cases hhost
  · exact absurd hc (ctlOf_ne_none_of_isHostOp hhost s)
  · obtain ⟨lk, hlk, ⟨-, rfl⟩ | ⟨-, rfl⟩⟩ := construct_ran h
    · cases hl
      cases hk.symm.trans hlk
      exact ok rfl (beginTrace_ofController _ _ _ _ _)
    · exact absurd rfl hok
  · obtain ⟨kc, lk, k', evs, hkc, hlk, hp, hran⟩ := ctl_ran hc hn h
    cases hl.symm.trans (linkOf_of_ctlOf hc hkc)
    cases hk.symm.trans hlk
    rcases hran with ⟨-, rfl⟩ | ⟨-, cut, -, rfl⟩ | ⟨-, -, rfl⟩
    · exact ok rfl (plan_ofController hp)
    · exact absurd rfl hok
    · exact ⟨[], by simp, (Shows.nil kc.link k).transfers_eq⟩

/-! ## No operation reads a pin or the trace (R3, R30, R34) -/

/-- A link with its pin levels forgotten. -/
def Link.blank (k : Link) : Link := { k with pin := Lines.of fun _ => none }

/-- The same state but for its links and its trace. -/
def State.recast (s : State) (ls : List Link) (tr : List Event) : State :=
  { s with links := ls, trace := tr }

@[simp] theorem ctlOf_recast (s : State) (ls : List Link) (tr : List Event) (i : Instr) :
    ctlOf (s.recast ls tr) i = ctlOf s i := by cases i <;> rfl

/-- What an operation answers in `s` and in `s` recast to the links `ls` and the trace `tr`: the same stop, or
next states with the same new events that differ in pin levels and in the old trace alone, and in the trace
alone where `ls` is the links of `s`. -/
inductive SameAnswer (s : State) (ls : List Link) (tr : List Event) : Answer → Answer → Prop
  | next {t t' : State} (ls' : List Link) (new : List Event) (htrace : t.trace = s.trace ++ new)
      (ht' : t' = t.recast ls' (tr ++ new)) (hpins : ls'.map Link.blank = t.links.map Link.blank)
      (hlinks : ls = s.links → ls' = t.links) : SameAnswer s ls tr (.next t) (.next t')
  | fault (r : Fault) : SameAnswer s ls tr (.fault r) (.fault r)
  | refused (r : Refusal) : SameAnswer s ls tr (.refused r) (.refused r)

/-- What a plan makes of a controller does not depend on the pins of its link. -/
theorem plan_pin (k : Ctl) (lk : Link) (p : Lines (Option PinState)) (i : Instr) :
    plan k { lk with pin := p } i = plan k lk i := by cases i <;> rfl

theorem cutCtl_pin (k : Ctl) (lk : Link) (p : Lines (Option PinState)) (i : Instr) :
    cutCtl k { lk with pin := p } i = cutCtl k lk i := by cases i <;> rfl

section Same
variable {s : State} {ls : List Link} {tr : List Event}

/-- With the trace kept, the same answer is the same up to the pins. -/
theorem SameAnswer.view_forgetPins {a a' : Answer} (h : SameAnswer s ls s.trace a a') :
    Answer.view State.forgetPins a' = Answer.view State.forgetPins a := by
  cases h with
  | @next t t' ls' new htrace ht' hpins hlinks =>
    subst ht'
    rw [← htrace]
    exact congrArg (fun x => Host.Outcome.next ({ t with links := x } : State)) hpins
  | fault | refused => rfl

variable (hb : ls.map Link.blank = s.links.map Link.blank)
include hb

/-- Links that agree but for their pins stand at the same positions. -/
theorem lookup_same (l : Nat) :
    (s.links[l]? = none ∧ ls[l]? = none) ∨
      ∃ k p, s.links[l]? = some k ∧ ls[l]? = some { k with pin := p } := by
  have hl : (ls[l]?).map Link.blank = (s.links[l]?).map Link.blank := by
    rw [← List.getElem?_map, ← List.getElem?_map, hb]
  cases hs : s.links[l]? with
  | none => exact .inl ⟨rfl, by simpa [hs] using hl⟩
  | some k =>
    obtain ⟨k', hk', he⟩ : ∃ k', ls[l]? = some k' ∧ k'.blank = k.blank := by simpa [hs] using hl
    refine .inr ⟨k, k'.pin, rfl, ?_⟩
    cases k; cases k'
    simp_all [Link.blank]

/-- The operation changed no link and emitted nothing. -/
theorem SameAnswer.quiet (o : OpOutcome) :
    SameAnswer s ls tr (.next { s with outcome := o }) (.next { s.recast ls tr with outcome := o }) :=
  .next ls [] (by simp) (by simp [State.recast]) hb id

/-- The operation changed no link. -/
theorem SameAnswer.keep (cs : List Ctl) (new : List Event) (o : OpOutcome) :
    SameAnswer s ls tr (.next { s with ctls := cs, trace := s.trace ++ new, outcome := o })
      (.next { s.recast ls tr with ctls := cs, trace := tr ++ new, outcome := o }) :=
  .next ls new rfl rfl hb id

/-- The operation changed one link, in a way that does not depend on its pins but for the pins it leaves. -/
theorem SameAnswer.set {l : Nat} {k x x' : Link} {p : Lines (Option PinState)}
    (hk : s.links[l]? = some k) (hk' : ls[l]? = some { k with pin := p })
    (cs : List Ctl) (orders : List Nat) (new : List Event) (o : OpOutcome)
    (hx : x'.blank = x.blank := by rfl) (he : p = k.pin → x' = x := by rintro rfl; rfl) :
    SameAnswer s ls tr
      (.next { s with
        links := s.links.set l x, ctls := cs, lineOrders := orders, trace := s.trace ++ new, outcome := o })
      (.next { s.recast ls tr with
        links := ls.set l x', ctls := cs, lineOrders := orders, trace := tr ++ new, outcome := o }) := by
  refine .next (ls.set l x') new rfl rfl (by simp [List.map_set, hb, hx]) fun hs => ?_
  subst hs
  have hp : p = k.pin := congrArg Link.pin (Option.some.inj (hk'.symm.trans hk))
  rw [he hp]

/-- A link operation whose body answers the same answers the same. -/
theorem SameAnswer.onLink {l : Nat} {op op' : Bus → Answer}
    (h : ∀ k p, s.links[l]? = some k → ls[l]? = some { k with pin := p } →
      SameAnswer s ls tr (op (s.busOf l k)) (op' ((s.recast ls tr).busOf l { k with pin := p }))) :
    SameAnswer s ls tr (s.onLink l op) ((s.recast ls tr).onLink l op') := by
  rcases lookup_same hb l with ⟨hk, hk'⟩ | ⟨k, p, hk, hk'⟩
  · rw [onLink_none hk, onLink_none (s := s.recast ls tr) hk']
    exact .refused _
  · rw [onLink_eq hk, onLink_eq (s := s.recast ls tr) hk']
    exact h k p hk hk'

/-- A whole `Send` fails or puts the same events on the link, whatever its pins. -/
theorem SameAnswer.runSend (l : Nat) (v : Byte) (r bl : Bool) :
    SameAnswer s ls tr (s.runSend l v r bl) ((s.recast ls tr).runSend l v r bl) := by
  rcases lookup_same hb l with ⟨hk, hk'⟩ | ⟨k, p, hk, hk'⟩
  · rw [State.runSend, State.runSend, onLink_none hk, onLink_none (s := s.recast ls tr) hk']
    exact .refused _
  obtain hr | hr := Bool.eq_false_or_eq_true k.released
  · rw [runSend_down hk hr, runSend_down (s := s.recast ls tr) hk' hr]
    exact .quiet hb _
  · rw [State.runSend, State.runSend, onLink_eq hk, onLink_eq (s := s.recast ls tr) hk',
      send_done (b := s.busOf l k) hr, send_done (b := (s.recast ls tr).busOf l { k with pin := p }) hr]
    exact .set hb hk hk' s.ctls _ (sendEvents l k s.lineOrders r v) .ok

/-- A link micro-operation writes the same lines, or is refused, whatever the pins of the link. -/
theorem SameAnswer.runMicro (l : Nat) (group : List Line) {op : Bus → Bus}
    {pins : Lines (Option PinState) → Lines (Option PinState)} {orders : List Nat} {new : List Event}
    (hop : ∀ b : Bus, b.idx = l → b.lineOrders = s.lineOrders →
      op b = { b with
        lnk := { b.lnk with pin := pins b.lnk.pin }, lineOrders := orders, trace := b.trace ++ new }) :
    SameAnswer s ls tr (s.runMicro l group op) ((s.recast ls tr).runMicro l group op) := by
  refine .onLink hb fun k p hk hk' => ?_
  rw [hop (s.busOf l k) rfl rfl, hop ((s.recast ls tr).busOf l { k with pin := p }) rfl rfl]
  by_cases hd : group.all k.drives = true
  · have hd' : group.all ({ k with pin := p } : Link).drives = true := hd
    simp only [busOf_lnk, hd, hd', if_true]
    exact .set hb hk hk' s.ctls orders new .ok
  · have hd' : ¬ group.all ({ k with pin := p } : Link).drives = true := hd
    simp only [busOf_lnk, hd, hd']
    exact .refused _

/-- `Release` frees the same lines, or does nothing, whatever their pins. -/
theorem SameAnswer.release (l : Nat) :
    SameAnswer s ls tr (exec (.release l) s) (exec (.release l) (s.recast ls tr)) := by
  refine .onLink hb fun k p hk hk' => ?_
  obtain hr | hr := Bool.eq_false_or_eq_true k.released
  · rw [release_again (b := s.busOf l k) hr,
      release_again (b := (s.recast ls tr).busOf l { k with pin := p }) hr]
    simp only [State.endBus, putBus_busOf hk, putBus_busOf (s := s.recast ls tr) hk']
    exact .quiet hb _
  · rw [release_first (b := s.busOf l k) hr,
      release_first (b := (s.recast ls tr).busOf l { k with pin := p }) hr]
    exact .set hb hk hk' s.ctls _ _ .ok

/-- An operation of a link, or `LinkConstruct`. -/
theorem exec_same_of_link {i : Instr} (hi : ctlOf s i = none) :
    SameAnswer s ls tr (exec i s) (exec i (s.recast ls tr)) := by
  cases i <;> simp only [ctlOf, reduceCtorEq] at hi
  case linkConstruct m p =>
    simp only [exec, execLinkConstruct]
    split
    · refine .next (ls ++ [Link.fresh m p]) [] (by simp) ?_ (by simp [hb]) (fun h => by simp [h])
      have hlen : ls.length = s.links.length := by simpa using congrArg List.length hb
      simp [State.recast, State.answer, hlen]
    · exact .quiet hb _
  case fourBitMode l => exact .onLink hb fun k p _ _ => .quiet hb _
  case release l => exact .release hb l
  case writeData8 l v =>
    exact .runMicro hb l dataLines fun b hi ho => by rw [writeData8_eq, hi, ho]
  case writeNibble l n =>
    exact .runMicro hb l nibbleLines fun b hi ho => by rw [writeNibble_eq, hi, ho]
  case enablePulse l =>
    exact .runMicro hb l [.e] (pins := fun p => p.set .e (some .L)) fun b hi ho => by
      rw [enablePulse_eq, hi, ho]
  all_goals exact .runSend hb _ _ _ _

/-- `Construct` runs the same Begin, whatever the pins of its link. -/
theorem exec_same_of_construct (l : Nat) :
    SameAnswer s ls tr (exec (.construct l) s) (exec (.construct l) (s.recast ls tr)) := by
  rcases lookup_same hb l with ⟨hk, hk'⟩ | ⟨k, p, hk, hk'⟩
  · simp only [exec, execConstruct]
    rw [onLink_none hk, onLink_none (s := s.recast ls tr) hk']
    exact .refused _
  · cases hr : k.released with
    | true =>
      rw [exec_construct_released hk hr, exec_construct_released (s := s.recast ls tr) hk' hr]
      exact .keep hb _ _ _
    | false =>
      rw [exec_construct hk hr, exec_construct (s := s.recast ls tr) hk' hr]
      simp only [State.afterCtl, expand_pin]
      exact .set hb hk hk' _ _ _ _

/-- An operation of a controller does the same plan, whatever the pins of its link. -/
theorem exec_same_of_ctl {i : Instr} {c : Nat} (hi : ctlOf s i = some c)
    (hn : ∀ l, i ≠ .construct l) :
    SameAnswer s ls tr (exec i s) (exec i (s.recast ls tr)) := by
  have hi' : ctlOf (s.recast ls tr) i = some c := by rwa [ctlOf_recast]
  cases hc : s.ctls[c]? with
  | none =>
    rw [exec_no_ctl hi hn hc, exec_no_ctl hi' hn hc]
    exact .refused _
  | some k =>
    rcases lookup_same hb k.link with ⟨hl, hl'⟩ | ⟨lk, p, hl, hl'⟩
    · rw [exec_no_link hi hc hl, exec_no_link hi' hc hl']
      exact .fault _
    · cases hp : plan k lk i with
      | none =>
        rw [exec_no_plan hi hc hl hp, exec_no_plan hi' hc hl' ((plan_pin k lk p i).trans hp)]
        exact .refused _
      | some x =>
        obtain ⟨k', evs⟩ := x
        have hp' := (plan_pin k lk p i).trans hp
        cases hr : lk.released with
        | false =>
          rw [exec_plan hi hc hl hr hp, exec_plan hi' hc hl' hr hp']
          simp only [State.afterCtl, expand_pin]
          exact .set hb hl hl' _ _ _ _
        | true =>
          rw [exec_plan_released hi hc hl hr hp, exec_plan_released hi' hc hl' hr hp', cutCtl_pin]
          cases cutEvents evs with
          | none => exact .quiet hb _
          | some cut => exact .keep hb _ cut _

/-- No operation reads a pin level or the trace. -/
theorem exec_same (i : Instr) : SameAnswer s ls tr (exec i s) (exec i (s.recast ls tr)) := by
  cases hi : ctlOf s i with
  | none => exact exec_same_of_link hb hi
  | some c =>
    by_cases hn : ∃ l, i = .construct l
    · obtain ⟨l, rfl⟩ := hn
      exact exec_same_of_construct hb l
    · exact exec_same_of_ctl hb hi fun l e => hn ⟨l, e⟩

end Same

/-- A state that differs from `s` in pin levels alone is `s` with other links. -/
theorem eq_recast_of_forgetPins {s s' : State} (h : s'.forgetPins = s.forgetPins) :
    s' = s.recast s'.links s.trace ∧ s'.links.map Link.blank = s.links.map Link.blank := by
  refine ⟨?_, congrArg State.links h⟩
  cases s; cases s'
  simp_all [State.forgetPins, State.recast]

/-- Settles O54: both parts are `exec_same`, with the trace kept and with the links kept. -/
theorem nothingReadsPinsOrTrace : Obligations.NothingReadsPinsOrTrace := by
  intro i s
  refine ⟨fun s' h => ?_, fun tr => ?_⟩
  · obtain ⟨he, hb⟩ := eq_recast_of_forgetPins h
    rw [he]
    exact (exec_same hb i).view_forgetPins
  · have hsame : SameAnswer s s.links tr (exec i s) (exec i { s with trace := tr }) := exec_same rfl i
    generalize exec i s = a, exec i { s with trace := tr } = a' at hsame ⊢
    cases hsame with
    | next ls' new htrace ht' hpins hlinks =>
      subst ht'
      rw [hlinks rfl]
      exact ⟨fun _ h => by cases h; exact ⟨new, htrace, rfl⟩, nofun, nofun⟩
    | fault r => exact ⟨nofun, nofun, fun _ h => h⟩
    | refused r => exact ⟨nofun, fun _ h => h, nofun⟩

end Sys2Proof.Machine
end

section
/-! PROOFS. Statements about the state (10_state.md): the invariant, who writes a controller's record, and what
an operation does to each link and controller that was there before. -/

namespace Sys2Proof.Machine

open Sys2Proof.Config

variable {i : Instr} {s t : State} {c l : Nat} {k : Ctl}

/-! ## Who writes a controller's record (R36, R47) -/

/-- What the record of controller number `c` can be after `exec i s = .next t`, when it was `k` before: the same,
that of its own Begin, which ends `ok` or is cut short after its geometry (D22), or the same with the flag of
its own setter. -/
inductive CtlWritten (i : Instr) (s t : State) (c : Nat) (k : Ctl) : Ctl → Prop
  | kept : CtlWritten i s t c k k
  | begun (lk : Link) (cols rows : Nat) (ltr font : Bool) (hi : i = .beginOp c cols rows ltr font)
      (hlk : s.links[k.link]? = some lk) (hrows : rowsLegal rows = true) (hok : t.outcome = .ok) :
      CtlWritten i s t c k (ctlAfterBegin k lk.fourBitMode cols rows ltr font)
  | beginCut (lk : Link) (cols rows : Nat) (ltr font : Bool) (hi : i = .beginOp c cols rows ltr font)
      (hlk : s.links[k.link]? = some lk) (hrows : rowsLegal rows = true) :
      CtlWritten i s t c k { k with
        numCols := cols, numRows := rows,
        displayFunction := displayFunctionFlags lk.fourBitMode rows font }
  | flag (p : Property) (b : Bool) (hi : i = setter p c b) : CtlWritten i s t c k (k.withProperty p b)

/-- Every operation leaves a controller that was there, with one of these records. -/
theorem ctl_written (h : exec i s = .next t) (hk : s.ctls[c]? = some k) :
    ∃ k', t.ctls[c]? = some k' ∧ CtlWritten i s t c k k' := by
  rcases ctl_after h hk with hkept | ⟨lk, k', evs, hc, hlk, hp, ⟨ht, ho⟩ | ⟨cut, hcut, ht⟩⟩
  · exact ⟨k, hkept, .kept⟩
  · refine ⟨k', ht, ?_⟩
    rcases plan_ctl hp with ⟨c', cols, rows, ltr, font, rfl, hrows, rfl⟩ | rfl | ⟨p, c', b, rfl, -, rfl⟩
    · cases hc
      exact .begun lk cols rows ltr font rfl hlk hrows ho
    · exact .kept
    · rw [ctlOf_setter] at hc
      cases hc
      exact .flag p b rfl
  · refine ⟨_, ht, ?_⟩
    rcases cut_ctl hp hcut with ⟨c', cols, rows, ltr, font, rfl, hrows, he⟩ | he | ⟨p, c', b, rfl, -, he⟩ <;>
      rw [he]
    · cases hc
      exact .beginCut lk cols rows ltr font rfl hlk hrows
    · exact .kept
    · rw [ctlOf_setter] at hc
      cases hc
      exact .flag p b rfl

theorem CtlWritten.link_eq {k' : Ctl} (h : CtlWritten i s t c k k') : k'.link = k.link := by
  cases h <;> simp [ctlAfterBegin]

theorem CtlWritten.encode_eq {k' : Ctl} (h : CtlWritten i s t c k k') : k'.encode = k.encode := by
  cases h <;> simp [ctlAfterBegin]

/-- Settles O49: only Begin's whole record has another phase. -/
theorem onlyBeginMakesReady : Obligations.OnlyBeginMakesReady := by
  intro i s t c k h hk
  obtain ⟨k', ht, hw⟩ := ctl_written h hk
  refine ⟨k', ht, ?_⟩
  cases hw with
  | kept | beginCut => exact .inl rfl
  | begun lk cols rows ltr font hi _ _ hok => exact .inr ⟨rfl, hok, cols, rows, ltr, font, hi⟩
  | flag => exact .inl (withProperty_phase ..)

/-- Settles O50, by the record the operation leaves. -/
theorem cachedFieldsHaveTheirWriters : Obligations.CachedFieldsHaveTheirWriters := by
  intro i s t c k h hk
  obtain ⟨k', ht, hw⟩ := ctl_written h hk
  refine ⟨k', ht, hw.link_eq, hw.encode_eq, ?_⟩
  cases hw with
  | kept => exact .inr ⟨rfl, rfl, rfl, rfl, rfl, rfl, fun _ => .inl rfl⟩
  | begun lk cols rows ltr font hi | beginCut lk cols rows ltr font hi =>
    exact .inl ⟨cols, rows, ltr, font, hi⟩
  | flag p b hi =>
    refine .inr ⟨by simp, by simp, by simp, by simp, by simp, by simp, fun q => ?_⟩
    rw [withProperty_property]
    split
    case isTrue hq => subst hq; exact .inr ⟨b, hi, rfl⟩
    case isFalse => exact .inl rfl

/-! ## The invariant (R32, R34, R37, R38, R42, R47) -/

/-- Only `LinkConstruct` adds a link. -/
theorem links_grow (h : exec i s = .next t) :
    t.links.length = s.links.length ∨
      ∃ m p, legalPins m p = true ∧ t.links = s.links ++ [Link.fresh m p] := by
  rcases exec_next_cases h with ⟨m, p, -, ⟨hlegal, rfl⟩ | ⟨-, rfl⟩⟩ | ⟨l, k, k', tr, -, -, -, hr⟩ |
    ⟨l, rfl⟩ | ⟨c, hc, hn⟩
  · exact .inr ⟨m, p, hlegal, rfl⟩
  · exact .inl rfl
  · exact .inl (by rw [hr.links, List.length_set])
  · obtain ⟨lk, -, ⟨-, rfl⟩ | ⟨-, rfl⟩⟩ := construct_ran h <;> simp [State.afterCtl]
  · obtain ⟨k, lk, k', evs, -, -, -, ⟨-, rfl⟩ | ⟨-, cut, -, rfl⟩ | ⟨-, -, rfl⟩⟩ := ctl_ran hc hn h <;>
      simp [State.afterCtl]

/-- Only `Construct` adds a controller, with the record of its Begin, ended or cut short. -/
theorem ctls_grow (h : exec i s = .next t) :
    t.ctls.length = s.ctls.length ∨
      ∃ l lk k', s.links[l]? = some lk ∧ (k' = builtCtl s l lk ∨ k' = cutBuiltCtl s l lk) ∧
        t.ctls = s.ctls ++ [k'] := by
  rcases exec_next_cases h with ⟨m, p, -, ⟨-, rfl⟩ | ⟨-, rfl⟩⟩ | ⟨l, k, k', tr, -, -, -, hr⟩ |
    ⟨l, rfl⟩ | ⟨c, hc, hn⟩
  · exact .inl rfl
  · exact .inl rfl
  · exact .inl (by rw [hr.ctls])
  · obtain ⟨lk, hlk, ⟨-, rfl⟩ | ⟨-, rfl⟩⟩ := construct_ran h
    · exact .inr ⟨l, lk, _, hlk, .inl rfl, by simp [State.afterCtl]⟩
    · exact .inr ⟨l, lk, _, hlk, .inr rfl, by simp⟩
  · obtain ⟨k, lk, k', evs, -, -, -, ⟨-, rfl⟩ | ⟨-, cut, -, rfl⟩ | ⟨-, -, rfl⟩⟩ := ctl_ran hc hn h <;>
      simp [State.afterCtl]

/-- `DEFAULT_ROWS` lies in 1 to 4 (D14). -/
theorem defaultRows_legal (p : Params) : 1 ≤ p.defaultRows ∧ p.defaultRows ≤ 4 :=
  ⟨Nat.le_add_left .., p.defaultRowsLess1.isLt⟩

theorem rowsLegal_iff {rows : Nat} : rowsLegal rows = true ↔ 1 ≤ rows ∧ rows ≤ 4 := decide_eq_true_iff

/-- Either record of a new controller refers to its link and is well formed beside it. -/
theorem newCtl_link_wf {lk : Link} (hk : k = builtCtl s l lk ∨ k = cutBuiltCtl s l lk) :
    k.link = l ∧ k.WF lk := by
  rcases hk with rfl | rfl <;> exact ⟨rfl, defaultRows_legal _, ⟨false, rfl⟩, rfl⟩

/-- A written record is well formed beside a link of the same mode. -/
theorem CtlWritten.wf {k' : Ctl} {lk lk' : Link} (h : CtlWritten i s t c k k')
    (hlk : s.links[k.link]? = some lk) (hwf : k.WF lk) (hmode : lk'.mode = lk.mode) : k'.WF lk' := by
  have hfour : lk'.fourBitMode = lk.fourBitMode := by rw [Link.fourBitMode, hmode, Link.fourBitMode]
  cases h with
  | kept => exact hwf.of_eq rfl rfl rfl hmode
  | begun lk₁ cols rows ltr font hi hlk₁ hrows =>
    cases hlk.symm.trans hlk₁
    exact ⟨rowsLegal_iff.1 hrows, ⟨font, by rw [hfour]; rfl⟩, rfl⟩
  | beginCut lk₁ cols rows ltr font hi hlk₁ hrows =>
    cases hlk.symm.trans hlk₁
    exact ⟨rowsLegal_iff.1 hrows, ⟨font, by rw [hfour]⟩, hwf.shift⟩
  | flag p b hi => exact hwf.of_eq (by simp) (by simp) (by simp) hmode

/-- A link that was there keeps its mode. -/
theorem link_mode_after {lk : Link} (h : exec i s = .next t) (hlk : s.links[l]? = some lk) :
    ∃ lk', t.links[l]? = some lk' ∧ lk'.mode = lk.mode := by
  rcases link_after h hlk with hkept | ⟨-, lk', ht, hmode, -⟩
  · exact ⟨lk, hkept, rfl⟩
  · exact ⟨lk', ht, hmode⟩

/-- Every operation keeps the links well formed. -/
theorem exec_keeps_links (hinv : s.Inv) (h : exec i s = .next t) : ∀ lk ∈ t.links, lk.WF := by
  intro lk hmem
  obtain ⟨n, hn⟩ := List.mem_iff_getElem?.1 hmem
  rcases lt_or_ge n s.links.length with hlt | hge
  · have hold := List.getElem?_eq_getElem hlt
    have hwf := hinv.links _ (List.mem_of_getElem? hold)
    rcases link_after h hold with hkept | ⟨-, lk', ht, -, -, -, hform⟩
    · cases hkept.symm.trans hn
      exact hwf
    · cases ht.symm.trans hn
      exact hform hwf
  · have hnt := (List.getElem?_eq_some_iff.1 hn).1
    rcases links_grow h with hlen | ⟨m, p, hlegal, hlinks⟩
    · omega
    · rw [hlinks, List.getElem?_append_right hge] at hn
      cases List.mem_singleton.1 (List.mem_of_getElem? hn)
      exact .fresh hlegal

/-- Every operation keeps every controller beside a link and well formed. -/
theorem exec_keeps_ctls (hinv : s.Inv) (h : exec i s = .next t) :
    ∀ k ∈ t.ctls, ∃ lk, t.links[k.link]? = some lk ∧ k.WF lk := by
  intro k hmem
  obtain ⟨n, hn⟩ := List.mem_iff_getElem?.1 hmem
  rcases lt_or_ge n s.ctls.length with hlt | hge
  · have hold := List.getElem?_eq_getElem hlt
    obtain ⟨lk, hlk, hwf⟩ := hinv.ctls _ (List.mem_of_getElem? hold)
    obtain ⟨k', ht, hw⟩ := ctl_written h hold
    cases ht.symm.trans hn
    obtain ⟨lk', hlk', hmode⟩ := link_mode_after h hlk
    exact ⟨lk', by rw [hw.link_eq]; exact hlk', hw.wf hlk hwf hmode⟩
  · have hnt := (List.getElem?_eq_some_iff.1 hn).1
    rcases ctls_grow h with hlen | ⟨l, lk, k', hlk, hk', hctls⟩
    · omega
    · rw [hctls, List.getElem?_append_right hge] at hn
      cases List.mem_singleton.1 (List.mem_of_getElem? hn)
      obtain ⟨hlink, hwf⟩ := newCtl_link_wf hk'
      obtain ⟨lk', hlk', hmode⟩ := link_mode_after h hlk
      exact ⟨lk', by rw [hlink]; exact hlk', hwf.of_eq rfl rfl rfl hmode⟩

/-- Settles O11: a step does nothing or runs an operation, and every operation keeps both parts of the
invariant. -/
theorem stepKeepsTheInvariant : Obligations.StepKeepsTheInvariant := by
  intro s t hinv h
  rcases step_next_cases h with rfl | ⟨i, rest, -, hexec⟩
  · exact hinv
  · have hinv' : ({ s with pending := rest } : State).Inv := ⟨hinv.links, hinv.ctls⟩
    exact ⟨exec_keeps_links hinv' hexec, exec_keeps_ctls hinv' hexec⟩

/-- Settles O10: nothing exists at reset. -/
theorem resetMeetsTheInvariant : Obligations.ResetMeetsTheInvariant :=
  ⟨by simp [State.reset], by simp [State.reset]⟩

/-! ## Steps (R48, R103) -/

/-- Settles O6, by the two kinds of call. -/
theorem stepRunsTheNextCall : Obligations.StepRunsTheNextCall := by
  intro s rest i hpending
  refine ⟨fun hcall => ?_, fun hcall => ?_⟩ <;> simp [step, nextCall_some (h := hpending), runCall, hcall]

/-! ## The link's configuration and its release (R31, R32, R33) -/

/-- Settles O51, by what an operation does to a link that was there. -/
theorem linkConfigurationIsFixed : Obligations.LinkConfigurationIsFixed := by
  intro i s t l k h hk
  rcases link_after h hk with hkept | ⟨-, k', ht, hmode, hassigned, hreleased, -⟩
  · exact ⟨k, hkept, rfl, rfl, .inl rfl⟩
  · exact ⟨k', ht, hmode, hassigned, hreleased⟩

/-- What `Release` answers on a link that exists (R116). -/
theorem exec_release {lk : Link} (hlk : s.links[l]? = some lk) :
    exec (.release l) s = .next ((s.putBus (s.busOf l lk).release).answer .ok) :=
  onLink_eq hlk _

@[simp] theorem release_released (b : Bus) : b.release.lnk.released = true := by
  cases hr : b.lnk.released with
  | true => rw [release_again hr, hr]
  | false => rw [release_first hr]

@[simp] theorem release_idx (b : Bus) : b.release.idx = b.idx := by
  cases hr : b.lnk.released with
  | true => rw [release_again hr]
  | false => rw [release_first hr]

/-- No operation takes a link back from released. -/
theorem released_after {lk : Link} (h : exec i s = .next t) (hlk : s.links[l]? = some lk)
    (hr : lk.released = true) : ∃ lk', t.links[l]? = some lk' ∧ lk'.released = true := by
  obtain ⟨lk', ht, -, -, he | ⟨hr', -⟩⟩ := linkConfigurationIsFixed i s t l lk h hlk
  · exact ⟨lk', ht, he.trans hr⟩
  · exact ⟨lk', ht, hr'⟩

/-- Nor does any run of operations. -/
theorem released_for_ever {calls : List Instr} {lk : Link} (h : execAll calls s = .next t)
    (hlk : s.links[l]? = some lk) (hr : lk.released = true) :
    ∃ lk', t.links[l]? = some lk' ∧ lk'.released = true := by
  induction calls generalizing s lk with
  | nil => cases h; exact ⟨lk, hlk, hr⟩
  | cons i calls ih =>
    rw [execAll] at h
    split at h
    case h_1 u hu =>
      obtain ⟨lk', hlk', hr'⟩ := released_after hu hlk hr
      exact ih h hlk' hr'
    all_goals cases h

/-- Settles O21: a new link is fresh, `released` has one writer, and `released_for_ever` runs over the calls. -/
theorem releasedOnceReleasedForEver : Obligations.ReleasedOnceReleasedForEver := by
  refine ⟨fun mode pins s t n h ho => ?_, fun i s t l k h hk hr hne => ?_, fun l k s hk => ?_,
    fun calls s u l k hk hr h => ?_⟩
  · simp only [exec, execLinkConstruct] at h
    split at h <;> cases h <;> cases ho
    exact ⟨Link.fresh mode pins, by simp, rfl⟩
  · obtain ⟨k', ht, -, -, he | ⟨-, hrel⟩⟩ := linkConfigurationIsFixed i s t l k h hk
    · exact ⟨k', ht, he.trans hr⟩
    · exact absurd hrel hne
  · have hlt := (List.getElem?_eq_some_iff.1 hk).1
    exact ⟨_, _, exec_release hk, by simp [hlt], release_released (s.busOf l k)⟩
  · obtain ⟨k', hk', hr'⟩ := released_for_ever h hk hr
    exact ⟨⟨k', hk', hr'⟩, runSend_down hk' hr'⟩

/-! ## The links and lines an operation leaves alone (R35, R37) -/

/-- What a call of the host did to link number `l`, which was `lk`: nothing, some `Send` calls, or a
`Release`. -/
inductive LineWrites (s t : State) (l : Nat) (lk : Link) : Prop
  | quiet (hl : t.links[l]? = some lk) (ht : lineEvents l t.trace = lineEvents l s.trace)
  | sends (evs : List Event) (hown : ∀ e ∈ evs, e.ofController = true) (hr : lk.released = false)
      (hl : t.links[l]? = some { lk with pin := pinsAfterAll lk (xfersOf evs) })
      (ht : lineEvents l t.trace = lineEvents l (s.trace ++ expand l lk s.lineOrders evs))
  | release (hl : t.links[l]? = some (s.busOf l lk).release.lnk)
      (ht : t.trace = (s.busOf l lk).release.trace)

/-- The host's calls on a link: `LinkConstruct`, `FourBitMode`, `Release`, and the whole `Send` of one byte. -/
theorem link_call_cases (hcall : hostCallable i = true) (hc : ctlOf s i = none) :
    (∃ m p, i = .linkConstruct m p) ∨ (∃ l, i = .fourBitMode l) ∨ (∃ l, i = .release l) ∨
      ∃ l v r bl, linkOf s i = some l ∧ exec i s = s.runSend l v r bl := by
  cases i <;> simp only [ctlOf, hostCallable, reduceCtorEq, Bool.false_eq_true] at hc hcall
  case linkConstruct m p => exact .inl ⟨m, p, rfl⟩
  case fourBitMode l => exact .inr (.inl ⟨l, rfl⟩)
  case release l => exact .inr (.inr (.inl ⟨l, rfl⟩))
  all_goals exact .inr (.inr (.inr ⟨_, _, _, _, rfl, rfl⟩))

section Old
variable {lk : Link} (hlk : s.links[l]? = some lk)
include hlk

/-- A completed operation of a controller on link number `m` sends on that link alone. -/
theorem LineWrites.of_afterCtl {m : Nat} {k' : Ctl} {mk : Link} {evs : List Event} {o : OpOutcome}
    {s' : State} (hm : s.links[m]? = some mk) (hr : mk.released = false)
    (hown : ∀ e ∈ evs, e.ofController = true) (hlinks : s'.links = s.links) (htrace : s'.trace = s.trace)
    (horders : s'.lineOrders = s.lineOrders) :
    LineWrites s (s'.afterCtl c k' m mk evs o) l lk := by
  by_cases hml : m = l
  · subst hml
    cases hlk.symm.trans hm
    have hlt := (List.getElem?_eq_some_iff.1 hlk).1
    exact .sends evs hown hr (by simp [State.afterCtl, hlinks, hlt])
      (by simp [State.afterCtl, htrace, horders])
  · refine .quiet ?_ ?_
    · rw [State.afterCtl, List.getElem?_set_ne hml, hlinks, hlk]
    · simp [State.afterCtl, htrace, lineEvents_expand_other hml _ _ hown]

/-- An operation cut short writes no line. -/
theorem LineWrites.of_disposed {k' : Ctl} {evs : List Event} {s' : State}
    (hown : ∀ e ∈ evs, e.ofController = true) (hlinks : s'.links = s.links) (htrace : s'.trace = s.trace) :
    LineWrites s (disposed s' c k' evs) l lk :=
  .quiet (by rw [disposed_links, hlinks, hlk]) (by simp [htrace, lineEvents_own l hown])

/-- A `Send` on the link itself. -/
theorem LineWrites.of_runSend {v : Byte} {r bl : Bool} (h : s.runSend l v r bl = .next t) :
    LineWrites s t l lk := by
  cases hr : lk.released with
  | true =>
    rw [runSend_down hlk hr] at h
    cases h
    exact .quiet hlk rfl
  | false =>
    rw [State.runSend, onLink_eq hlk, send_done (by simpa using hr)] at h
    cases h
    have hlt := (List.getElem?_eq_some_iff.1 hlk).1
    exact .sends [.xfer 0 v r bl] (by simp [Event.ofController]) hr (by simp [pinsAfterAll, hlt])
      (by simp [expand, lineEvents])

/-- A call of the host on the link itself. -/
theorem LineWrites.of_link_call (hcall : hostCallable i = true) (hc : ctlOf s i = none)
    (hl : linkOf s i = some l) (h : exec i s = .next t) : LineWrites s t l lk := by
  have hlt := (List.getElem?_eq_some_iff.1 hlk).1
  rcases link_call_cases hcall hc with ⟨_, _, rfl⟩ | ⟨_, rfl⟩ | ⟨_, rfl⟩ | ⟨m, v, r, bl, hm, he⟩
  · cases hl
    exact absurd hlt (lt_irrefl _)
  · cases hl
    rw [exec, execFourBitMode, onLink_eq hlk] at h
    cases h
    exact .quiet hlk rfl
  · cases hl
    rw [exec_release hlk] at h
    cases h
    exact .release (by simp [hlt]) rfl
  · cases hl.symm.trans hm
    exact .of_runSend hlk (he ▸ h)

/-- Every call of the host does one of these to a link that was there. -/
theorem lineWrites_of_exec (hcall : hostCallable i = true) (h : exec i s = .next t) :
    LineWrites s t l lk := by
  have hlt := (List.getElem?_eq_some_iff.1 hlk).1
  rcases exec_next_cases h with ⟨m, p, rfl, ⟨-, rfl⟩ | ⟨-, rfl⟩⟩ | ⟨m, mk, mk', tr, hc, hm, hmk, hran⟩ |
    ⟨m, rfl⟩ | ⟨c, hc, hn⟩
  · exact .quiet (by rw [List.getElem?_append_left hlt]; exact hlk) rfl
  · exact .quiet hlk rfl
  · by_cases hml : m = l
    · subst hml
      exact .of_link_call hlk hcall hc hm h
    · exact .quiet (by rw [hran.links, List.getElem?_set_ne hml, hlk])
        (by rw [hran.trace, lineEvents_append, hran.elsewhere l (Ne.symm hml), List.append_nil])
  · obtain ⟨mk, hmk, ⟨hr, rfl⟩ | ⟨-, rfl⟩⟩ := construct_ran h
    · exact .of_afterCtl hlk hmk hr (beginTrace_ofController _ _ _ _ _) rfl rfl rfl
    · exact .of_disposed hlk (by simp [Event.ofController]) rfl rfl
  · obtain ⟨k, mk, k', evs, -, hmk, hp, ⟨hr, rfl⟩ | ⟨-, cut, hcut, rfl⟩ | ⟨-, -, rfl⟩⟩ := ctl_ran hc hn h
    · exact .of_afterCtl hlk hmk hr (plan_ofController hp) rfl rfl rfl
    · exact .of_disposed hlk (fun e he => plan_ofController hp e (mem_of_cutEvents hcut e he)) rfl rfl
    · exact .quiet hlk rfl

/-- Each of these is what a real `Release` or a real sequence of `Send` calls leaves. -/
theorem LineWrites.replayed (h : LineWrites s t l lk) :
    ∃ u : State, t.links[l]? = u.links[l]? ∧ lineEvents l t.trace = lineEvents l u.trace ∧
      (exec (.release l) s = .next u ∨
        ∃ xs : List (Bool × Byte), execAll (xs.map fun x => .send l x.2 x.1 true) s = .next u) := by
  cases h with
  | quiet hl ht => exact ⟨s, hl.trans hlk.symm, ht, .inr ⟨[], rfl⟩⟩
  | sends evs hown hr hl ht =>
    obtain ⟨u, hu, hul, hut⟩ := execAll_sends hown hlk hr
    exact ⟨u, hl.trans hul.symm, ht.trans hut.symm, .inr ⟨xfersOf evs, hu⟩⟩
  | release hl ht =>
    have hlt := (List.getElem?_eq_some_iff.1 hlk).1
    exact ⟨_, by rw [hl]; simp [hlt], by rw [ht]; rfl, .inl (exec_release hlk)⟩

end Old

/-- The waiting calls play no part in it. -/
theorem LineWrites.of_pending {rest : List Instr} {lk : Link}
    (h : LineWrites { s with pending := rest } t l lk) : LineWrites s t l lk := by
  cases h with
  | quiet hl ht => exact .quiet hl ht
  | sends evs hown hr hl ht => exact .sends evs hown hr hl ht
  | release hl ht => exact .release hl ht

/-- An operation changes no link but the one it works on. -/
theorem other_link_untouched (h : exec i s = .next t) (hlt : l < s.links.length)
    (hne : linkOf s i ≠ some l) : t.links[l]? = s.links[l]? := by
  have hold := List.getElem?_eq_getElem hlt
  rcases link_after h hold with hkept | ⟨hl, -⟩
  · exact hkept.trans hold.symm
  · exact absurd hl hne

/-- An operation changes no controller but its own. -/
theorem other_ctl_untouched (h : exec i s = .next t) (hlt : c < s.ctls.length)
    (hne : ctlOf s i ≠ some c) : t.ctls[c]? = s.ctls[c]? := by
  have hold := List.getElem?_eq_getElem hlt
  rcases ctl_after h hold with hkept | ⟨-, -, -, hc, -⟩
  · exact hkept.trans hold.symm
  · exact absurd hc hne

/-- Settles O52: a step did nothing, or made one call of the host, whose line writes can be replayed. -/
theorem otherLinksAndControllersUntouched : Obligations.OtherLinksAndControllersUntouched := by
  refine ⟨fun i s t h => ⟨fun l => other_link_untouched h, fun c => other_ctl_untouched h⟩,
    fun s t l k h hk => ?_⟩
  rcases step_next_cases h with rfl | ⟨i, rest, hcall, hexec⟩
  · exact ⟨t, rfl, rfl, .inr ⟨[], rfl⟩⟩
  · exact (lineWrites_of_exec (s := { s with pending := rest }) hk hcall hexec).of_pending.replayed hk

end Sys2Proof.Machine
end

section
/-! PROOFS. Statements about the lines of a link (20_memory.md): when a micro-operation run alone is refused
(R66, log 15). -/

namespace Sys2Proof.Machine

variable {s : State} {l : Nat} {k : Link}

/-- A released link drives no line (R34). -/
theorem drives_of_released (hr : k.released = true) (m : Line) : k.drives m = false := by
  rw [← Bool.not_eq_true, drives_iff]
  rintro ⟨-, hnot, -⟩
  exact Bool.noConfusion (hr.symm.trans hnot)

/-- A `FourBit` link does not drive `D0` (R66). -/
theorem drives_d0_of_fourBit (hm : k.mode = .fourBit) : k.drives .d0 = false := by
  rw [← Bool.not_eq_true, drives_iff]
  rintro ⟨-, -, hnot⟩
  exact hnot ⟨hm, .inl rfl⟩

/-- One line of the group that the link does not drive is enough for the refusal (log 15). -/
theorem runMicro_refused {ls : List Line} {m : Line} (hk : s.links[l]? = some k) (hmem : m ∈ ls)
    (hd : k.drives m = false) (op : Bus → Bus) : s.runMicro l ls op = .refused .lineNotDriven := by
  rw [State.runMicro, onLink_eq hk]
  exact if_neg fun hall => Bool.noConfusion (hd.symm.trans (List.all_eq_true.1 hall m hmem))

/-- Settles O23: each micro-operation has a line the link does not drive; on a `FourBit` link that is `D0`. -/
theorem microOperationsRefusedOffTheirLink : Obligations.MicroOperationsRefusedOffTheirLink := by
  intro l k v n s hk
  refine ⟨fun hr => ⟨?_, ?_, ?_⟩, fun hm => ?_⟩
  · exact runMicro_refused hk (m := .d0) (by decide) (drives_of_released hr _) _
  · exact runMicro_refused hk (m := .d4) (by decide) (drives_of_released hr _) _
  · exact runMicro_refused hk (m := .e) (by decide) (drives_of_released hr _) _
  · exact runMicro_refused hk (m := .d0) (by decide) (drives_d0_of_fourBit hm) _

end Sys2Proof.Machine
end

section
/-! PROOFS. The binary form of the operations (30_encoding.md R80, R103; log 3): every record read back, and every
record that was read written back. -/

namespace Sys2Proof

/-! ## Reading what was encoded -/

/-- Reading the record of any operation gives it back, and leaves what follows. -/
theorem decodeFront_encode (i : Instr) : Laws.RoundTrip.Statement i := by
  cases i with
  | clearDisplay l => exact Laws.RoundTrip.clearDisplay l
  | returnHome l => exact Laws.RoundTrip.returnHome l
  | entryModeSet l left shift => exact Laws.RoundTrip.entryModeSet l left shift
  | displayControl l d c b => exact Laws.RoundTrip.displayControl l d c b
  | cursorShift l m r => exact Laws.RoundTrip.cursorShift l m r
  | functionSet l w n f => exact Laws.RoundTrip.functionSet l w n f
  | setCgramAddr l s => exact Laws.RoundTrip.setCgramAddr l s
  | setDdramAddr l a => exact Laws.RoundTrip.setDdramAddr l a
  | data l d => exact Laws.RoundTrip.data l d
  | hsProbe l => exact Laws.RoundTrip.hsProbe l
  | hsCommit4 l => exact Laws.RoundTrip.hsCommit4 l
  | linkConstruct m p => exact Laws.RoundTrip.linkConstruct m p
  | fourBitMode l => exact Laws.RoundTrip.fourBitMode l
  | send l v d b => exact Laws.RoundTrip.send l v d b
  | release l => exact Laws.RoundTrip.release l
  | writeData8 l v => exact Laws.RoundTrip.writeData8 l v
  | writeNibble l n => exact Laws.RoundTrip.writeNibble l n
  | enablePulse l => exact Laws.RoundTrip.enablePulse l
  | sendCommand c v => exact Laws.RoundTrip.sendCommand c v
  | sendData c v => exact Laws.RoundTrip.sendData c v
  | pushDisplayControl c => exact Laws.RoundTrip.pushDisplayControl c
  | construct l => exact Laws.RoundTrip.construct l
  | beginOp c cols rows ltr font => exact Laws.RoundTrip.beginOp c cols rows ltr font
  | setVisible c b => exact Laws.RoundTrip.setVisible c b
  | setShowCursor c b => exact Laws.RoundTrip.setShowCursor c b
  | setBlinkCursor c b => exact Laws.RoundTrip.setBlinkCursor c b
  | setBacklight c b => exact Laws.RoundTrip.setBacklight c b
  | getProperty c p => exact Laws.RoundTrip.getProperty c p
  | clear c => exact Laws.RoundTrip.clear c
  | home c => exact Laws.RoundTrip.home c
  | setCursorPosition c col row => exact Laws.RoundTrip.setCursorPosition c col row
  | writeBytes c buf => exact Laws.RoundTrip.writeBytes c buf
  | writeText c t => exact Laws.RoundTrip.writeText c t
  | createChar c slot bm off => exact Laws.RoundTrip.createChar c slot bm off
  | scrollDisplayLeft c => exact Laws.RoundTrip.scrollDisplayLeft c
  | scrollDisplayRight c => exact Laws.RoundTrip.scrollDisplayRight c
  | moveCursor c right => exact Laws.RoundTrip.moveCursor c right

/-- `decode` answers exactly the operation at the front of the record, with zero bytes only after it. -/
theorem decode_eq_ok {bs : List Byte} {i : Instr} :
    decode bs = .ok i ↔ ∃ n, decodeFront bs = .ok (i, List.replicate n 0#8) := by
  constructor
  · intro h
    obtain ⟨⟨j, r⟩, hfront, hrest⟩ := bind_eq_ok h
    simp only at hrest
    split at hrest
    · next hz =>
      cases hrest
      have hr : r = List.replicate r.length 0#8 :=
        List.eq_replicate_of_mem fun b hb => by simpa using List.all_eq_true.1 hz b hb
      exact ⟨r.length, hr ▸ hfront⟩
    · cases hrest
  · rintro ⟨n, h⟩
    simp [decode, h]

/-- Settles O2: the padding is what the record's own reader leaves. -/
theorem decodeEncodeGivesTheOperationBack : Obligations.DecodeEncodeGivesTheOperationBack :=
  fun i n => decode_eq_ok.2 ⟨n, decodeFront_encode i _⟩

/-! ## Writing back what was decoded

Each reader is peeled off the front by `bind_read`; what is left of the record is what the next one reads. -/

/-- A reader followed by more reading that answers a value has read what its writer writes. -/
theorem bind_read {α β : Type} {bs : List Byte} {b : β}
    {get : List Byte → Except DecodeError (α × List Byte)} {put : α → List Byte → List Byte}
    (hget : ∀ {bs r a}, get bs = .ok (a, r) → bs = put a r)
    {f : α × List Byte → Except DecodeError β} (h : (get bs >>= f) = .ok b) :
    ∃ a r, bs = put a r ∧ f (a, r) = .ok b := by
  obtain ⟨⟨a, r⟩, hread, hrest⟩ := bind_eq_ok h
  exact ⟨a, r, hget hread, hrest⟩

section Shapes
variable {fmt k : Byte} {n : Nat} {bs r : List Byte} {i : Instr}
  {f : Nat × List Byte → Except DecodeError (Instr × List Byte)}

/-- An index byte is known by its number. -/
theorem index_eq (hk : k.toNat = n) : k = BitVec.ofNat 8 n := by simp [← hk]

/-- The record of an operation with one number operand. -/
theorem record_number (mk : Nat → Instr) (hk : k.toNat = n) (h : (getNat bs >>= f) = .ok (i, r))
    (hf : ∀ c r, f (c, r) = .ok (mk c, r))
    (hmk : ∀ c, encode (mk c) = fmt :: BitVec.ofNat 8 n :: putNat c) :
    fmt :: k :: bs = encode i ++ r := by
  obtain ⟨c, r₂, rfl, h₁⟩ := bind_read getNat_eq h
  cases (hf c r₂).symm.trans h₁
  rw [hmk, index_eq hk]
  rfl

/-- The record of an operation with a number operand and one more. -/
theorem record_number_and {α : Type} {get : List Byte → Except DecodeError (α × List Byte)}
    {put : α → List Byte}
    (hget : ∀ {bs r a}, get bs = .ok (a, r) → bs = put a ++ r)
    (mk : Nat → α → Instr) (hk : k.toNat = n) (h : (getNat bs >>= f) = .ok (i, r))
    (hf : ∀ c r, f (c, r) = (get r >>= fun x => .ok (mk c x.1, x.2)))
    (hmk : ∀ c a, encode (mk c a) = fmt :: BitVec.ofNat 8 n :: (putNat c ++ put a)) :
    fmt :: k :: bs = encode i ++ r := by
  obtain ⟨c, r₂, rfl, h₁⟩ := bind_read getNat_eq h
  obtain ⟨a, r₃, rfl, h₂⟩ := bind_read hget ((hf c r₂).symm.trans h₁)
  cases h₂
  rw [hmk, index_eq hk, ← List.append_assoc]
  rfl

end Shapes

theorem getLinkOp_eq {bs r : List Byte} {i : Instr} (h : getLinkOp bs = .ok (i, r)) :
    1#8 :: bs = encode i ++ r := by
  obtain ⟨k, r₁, rfl, h₁⟩ := bind_read getByte_eq h
  dsimp only at h₁
  split at h₁
  case h_1 hk =>
    obtain ⟨m, r₂, rfl, h₂⟩ := bind_read getMode_eq h₁
    obtain ⟨p, r₃, rfl, h₃⟩ := bind_read getPins_eq h₂
    cases h₃
    rw [index_eq hk]
    rfl
  case h_2 hk => exact record_number .fourBitMode hk h₁ (fun _ _ => rfl) fun _ => rfl
  case h_3 hk =>
    obtain ⟨l, r₂, rfl, h₂⟩ := bind_read getNat_eq h₁
    obtain ⟨v, r₃, rfl, h₃⟩ := bind_read getByte_eq h₂
    obtain ⟨d, r₄, rfl, h₄⟩ := bind_read getBool_eq h₃
    obtain ⟨b, r₅, rfl, h₅⟩ := bind_read getBool_eq h₄
    cases h₅
    simp [encode, index_eq hk]
  case h_4 hk => exact record_number .release hk h₁ (fun _ _ => rfl) fun _ => rfl
  case h_5 => cases h₁

theorem getMicroOp_eq {bs r : List Byte} {i : Instr} (h : getMicroOp bs = .ok (i, r)) :
    2#8 :: bs = encode i ++ r := by
  obtain ⟨k, r₁, rfl, h₁⟩ := bind_read getByte_eq h
  dsimp only at h₁
  split at h₁
  case h_1 hk =>
    exact record_number_and (put := ([·])) getByte_eq .writeData8 hk h₁ (fun _ _ => rfl) fun _ _ => rfl
  case h_2 hk =>
    exact record_number_and (put := ([·.setWidth 8])) getNibble_eq .writeNibble hk h₁ (fun _ _ => rfl)
      fun _ _ => rfl
  case h_3 hk => exact record_number .enablePulse hk h₁ (fun _ _ => rfl) fun _ => rfl
  case h_4 hk =>
    exact record_number_and (put := ([·])) getByte_eq .sendCommand hk h₁ (fun _ _ => rfl) fun _ _ => rfl
  case h_5 hk =>
    exact record_number_and (put := ([·])) getByte_eq .sendData hk h₁ (fun _ _ => rfl) fun _ _ => rfl
  case h_6 hk => exact record_number .pushDisplayControl hk h₁ (fun _ _ => rfl) fun _ => rfl
  case h_7 => cases h₁

theorem getHostOp_eq {bs r : List Byte} {i : Instr} (h : getHostOp bs = .ok (i, r)) :
    3#8 :: bs = encode i ++ r := by
  have flag : ∀ {bs r : List Byte} {b : Bool}, getBool bs = .ok (b, r) → bs = [boolByte b] ++ r := getBool_eq
  obtain ⟨k, r₁, rfl, h₁⟩ := bind_read getByte_eq h
  dsimp only at h₁
  split at h₁
  case h_1 hk => exact record_number .construct hk h₁ (fun _ _ => rfl) fun _ => rfl
  case h_2 hk =>
    obtain ⟨c, r₂, rfl, h₂⟩ := bind_read getNat_eq h₁
    obtain ⟨cols, r₃, rfl, h₃⟩ := bind_read getNat_eq h₂
    obtain ⟨rows, r₄, rfl, h₄⟩ := bind_read getRows_eq h₃
    obtain ⟨ltr, r₅, rfl, h₅⟩ := bind_read getBool_eq h₄
    obtain ⟨font, r₆, rfl, h₆⟩ := bind_read getBool_eq h₅
    cases h₆
    simp [encode, index_eq hk]
  case h_3 hk => exact record_number_and flag .setVisible hk h₁ (fun _ _ => rfl) fun _ _ => rfl
  case h_4 hk => exact record_number_and flag .setShowCursor hk h₁ (fun _ _ => rfl) fun _ _ => rfl
  case h_5 hk => exact record_number_and flag .setBlinkCursor hk h₁ (fun _ _ => rfl) fun _ _ => rfl
  case h_6 hk => exact record_number_and flag .setBacklight hk h₁ (fun _ _ => rfl) fun _ _ => rfl
  case h_7 hk =>
    exact record_number_and (put := ([propertyByte ·])) getProperty_eq .getProperty hk h₁ (fun _ _ => rfl)
      fun _ _ => rfl
  case h_8 hk => exact record_number .clear hk h₁ (fun _ _ => rfl) fun _ => rfl
  case h_9 hk => exact record_number .home hk h₁ (fun _ _ => rfl) fun _ => rfl
  case h_10 hk =>
    obtain ⟨c, r₂, rfl, h₂⟩ := bind_read getNat_eq h₁
    obtain ⟨col, r₃, rfl, h₃⟩ := bind_read getNat_eq h₂
    obtain ⟨row, r₄, rfl, h₄⟩ := bind_read getNat_eq h₃
    cases h₄
    simp [encode, index_eq hk]
  case h_11 hk => exact record_number_and getBuffer_eq .writeBytes hk h₁ (fun _ _ => rfl) fun _ _ => rfl
  case h_12 hk => exact record_number_and getText_eq .writeText hk h₁ (fun _ _ => rfl) fun _ _ => rfl
  case h_13 hk =>
    obtain ⟨c, r₂, rfl, h₂⟩ := bind_read getNat_eq h₁
    obtain ⟨slot, r₃, rfl, h₃⟩ := bind_read getNat_eq h₂
    obtain ⟨bm, r₄, rfl, h₄⟩ := bind_read getBitmap_eq h₃
    obtain ⟨off, r₅, rfl, h₅⟩ := bind_read getNat_eq h₄
    cases h₅
    simp [encode, index_eq hk]
  case h_14 hk => exact record_number .scrollDisplayLeft hk h₁ (fun _ _ => rfl) fun _ => rfl
  case h_15 hk => exact record_number .scrollDisplayRight hk h₁ (fun _ _ => rfl) fun _ => rfl
  case h_16 hk => exact record_number_and flag .moveCursor hk h₁ (fun _ _ => rfl) fun _ _ => rfl
  case h_17 => cases h₁

/-- The byte and the flag of a transfer word taken apart again (R80). -/
theorem halves_busWord (rs : Bool) (v : Byte) : (BitVec.ofBool rs ++ v).extractLsb' 0 8 = v ∧
    (BitVec.ofBool rs ++ v).getLsbD 8 = rs := by
  revert rs v
  decide

/-- A BUS9 record is the record of its word. -/
theorem getBusOp_eq {bs r : List Byte} {i : Instr} (h : getBusOp bs = .ok (i, r)) :
    ∃ w l, i = decodeBus w l ∧ 0#8 :: bs = putBus w l ++ r := by
  obtain ⟨v, r₁, rfl, h₁⟩ := bind_read getByte_eq h
  obtain ⟨rs, r₂, rfl, h₂⟩ := bind_read getBool_eq h₁
  obtain ⟨l, r₃, rfl, h₃⟩ := bind_read getNat_eq h₂
  cases h₃
  obtain ⟨hv, hrs⟩ := halves_busWord rs v
  exact ⟨_, l, rfl, by rw [putBus, hv, hrs]; rfl⟩

/-- The record of a word no row covers, read as a direct `Send` of it (R99; log 14). -/
def UncoveredRecord (i : Instr) (bs rest : List Byte) : Prop :=
  ∃ (w : BitVec 9) (l : Nat), (∀ r ∈ busRows, r.covers w = false) ∧
    i = .send l (w.extractLsb' 0 8) false false ∧ bs = putBus w l ++ rest

/-- What is at the front of a record is the operation's own encoding, or an uncovered word's. -/
theorem decodeFront_eq {bs r : List Byte} {i : Instr} (h : decodeFront bs = .ok (i, r)) :
    bs = encode i ++ r ∨ UncoveredRecord i bs r := by
  obtain ⟨k, r₁, rfl, h₁⟩ := bind_read getByte_eq h
  dsimp only at h₁
  split at h₁
  case h_1 hk =>
    obtain ⟨w, l, rfl, hrec⟩ := getBusOp_eq h₁
    rw [index_eq hk, hrec]
    rcases decodeBus_cases w l with ⟨hword, henc⟩ | ⟨huncovered, hsend⟩
    · exact .inl (by rw [henc, putBusOp, hword, Option.getD_some])
    · exact .inr ⟨w, l, huncovered, hsend, rfl⟩
  case h_2 hk => exact .inl (index_eq hk ▸ getLinkOp_eq h₁)
  case h_3 hk => exact .inl (index_eq hk ▸ getMicroOp_eq h₁)
  case h_4 hk => exact .inl (index_eq hk ▸ getHostOp_eq h₁)
  case h_5 => cases h₁

/-- Settles O3: every reader takes off the front what its writer writes, and zero bytes are left. -/
theorem decodedRecordIsThePaddedEncoding : Obligations.DecodedRecordIsThePaddedEncoding := by
  intro bs i h
  obtain ⟨n, hfront⟩ := decode_eq_ok.1 h
  exact ⟨n, decodeFront_eq hfront⟩

end Sys2Proof
end
section
/-! PROOFS. The bus words and the composed bytes (30_encoding.md R83 to R99). -/

namespace Sys2Proof.Machine

open Sys2Proof.Config

/-! ## The command map (R83) -/

/-- Settles O1: each word is decoded and compared. -/
theorem writtenWordsDecode : Obligations.WrittenWordsDecode := by
  refine ⟨rfl, rfl, rfl, rfl, rfl, rfl, rfl, rfl, rfl, rfl, rfl, rfl⟩

/-- Settles O4, by the 512 words. -/
theorem busRowsAreDisjoint : Obligations.BusRowsAreDisjoint := ⟨by decide, rfl⟩

/-! ## A bus word is the transfer sent (R80, R99, R112) -/

section Words
variable {i : Instr} {w : BitVec 9} {s : State} {l : Nat} {k : Link}

/-- The `Send` of a byte and a flag is the `Send` of the word they make (R80). -/
theorem runSend_word {v : Byte} {r : Bool} (h : BitVec.ofBool r ++ v = w) (s : State) (l : Nat) :
    s.runSend l v r false = s.runSend l (w.extractLsb' 0 8) (w.getLsbD 8) false := by
  obtain ⟨hv, hr⟩ := halves_busWord r v
  rw [← h, hv, hr]

/-- A bus encoding is run as a direct `send` of its own word: the byte each row's meaning composes is the row's
pattern with its fields filled in. -/
theorem exec_busWord (hw : busWord i = some w) (hl : linkOf s i = some l) :
    exec i s = s.runSend l (w.extractLsb' 0 8) (w.getLsbD 8) false := by
  cases i <;> simp only [busWord, reduceCtorEq, linkOf, Option.some.injEq] at hw hl
  all_goals
    subst hw hl
    exact runSend_word (by decide +revert) _ _

/-- What a word decodes to works on the link given. -/
theorem linkOf_decodeBus (w : BitVec 9) (s : State) (l : Nat) : linkOf s (decodeBus w l) = some l := by
  simp only [decodeBus, apply_ite (linkOf s)]
  simp only [linkOf, ite_self]

/-- A word that no row covers is a command: the DATA row covers every other. -/
theorem command_of_uncovered (h : ∀ r ∈ busRows, r.covers w = false) : w.getLsbD 8 = false := by
  have hdata : ∀ w : BitVec 9, rowData.covers w = w.getLsbD 8 := by decide
  rw [← hdata]
  exact h rowData (by decide)

/-- What any word decodes to is run as a direct `send` of that word. -/
theorem exec_decodeBus (w : BitVec 9) (s : State) (l : Nat) :
    exec (decodeBus w l) s = s.runSend l (w.extractLsb' 0 8) (w.getLsbD 8) false := by
  rcases decodeBus_cases w l with ⟨hword, -⟩ | ⟨huncovered, hsend⟩
  · exact exec_busWord hword (linkOf_decodeBus w s l)
  · rw [hsend, command_of_uncovered huncovered]
    rfl

/-- Settles O5: both parts are one `send`, which R112 says all about. -/
theorem busWordIsTheTransferSent : Obligations.BusWordIsTheTransferSent := by
  refine ⟨fun i w s l k hw hl => ?_, fun w s l k => ?_⟩
  · rw [exec_busWord hw hl]
    exact ⟨fun hup => runSend_up hup _ _ _, fun hk hr => runSend_down hk hr _ _ _⟩
  · rw [exec_decodeBus]
    exact ⟨fun hup => runSend_up hup _ _ _, fun hk hr => runSend_down hk hr _ _ _⟩

end Words

/-! ## The composed bytes (R86 to R98) -/

theorem fourBitMode_eq_true {k : Link} : k.fourBitMode = true ↔ k.mode = .fourBit := beq_iff_eq

/-- Settles O42: a Begin that can send does its plan, which leaves the flags R94 composes. -/
theorem displayFunctionIsComposed : Obligations.DisplayFunctionIsComposed := by
  intro c columns rows ltr largeFont k lk s hup h1 h4
  obtain ⟨hc, hl, hr, -⟩ := hup
  have hplan : plan k lk (.beginOp c columns rows ltr largeFont) = some _ :=
    if_pos (rowsLegal_iff.2 ⟨h1, h4⟩)
  have hlt := (List.getElem?_eq_some_iff.1 hc).1
  refine ⟨_, _, exec_plan rfl hc hl hr hplan, List.getElem?_set_self hlt, ?_⟩
  simp only [ctlAfterBegin, displayFunctionFlags, fourBitMode_eq_true, Bool.and_eq_true, beq_iff_eq]

/-- Settles O43: the bytes are defined so. -/
theorem controlBytesAreComposed : Obligations.ControlBytesAreComposed :=
  ⟨fun _ => rfl, fun _ => rfl⟩

/-- The function-set bytes (R89): the large font is honored on one row alone, so never with two lines. -/
theorem functionSetByte_mem (fourBit : Bool) (rows : Nat) (largeFont : Bool) :
    functionSetByte (displayFunctionFlags fourBit rows largeFont) ∈
      if fourBit then [0x20#8, 0x24#8, 0x28#8] else [0x30#8, 0x34#8, 0x38#8] := by
  have hlines : rows = 1 ∨ 1 < rows ∨ rows = 0 := by omega
  rcases hlines with rfl | hrows | rfl
  · revert fourBit largeFont; decide
  · have hone : (rows == 1) = false := by simpa using hrows.ne'
    simp only [displayFunctionFlags, hrows, hone, Bool.and_false]
    revert fourBit; decide
  · revert fourBit largeFont; decide

/-- Settles O44, flag by flag. -/
theorem composedBytesHaveTheirValues : Obligations.ComposedBytesHaveTheirValues :=
  ⟨fun rows largeFont => ⟨functionSetByte_mem true rows largeFont, functionSetByte_mem false rows largeFont⟩,
    by decide, rfl, rfl⟩

/-- Masking a slot again changes nothing (R98). -/
@[simp] theorem maskSlot_maskSlot (slot : Nat) : maskSlot (maskSlot slot) = maskSlot slot := by
  rw [maskSlot, maskSlot, Nat.and_assoc, Nat.and_self]

/-- Settles O38: the slot of a glyph is masked wherever it is used. -/
theorem glyphSlotsWrap : Obligations.GlyphSlotsWrap := by
  intro c slot bitmap offset s
  have hbyte : cgramByte (maskSlot slot) = cgramByte slot := by rw [cgramByte, maskSlot_maskSlot, ← cgramByte]
  refine ⟨Nat.and_two_pow_sub_one_eq_mod slot 3, ?_⟩
  show execCreateChar c slot bitmap offset s = execCreateChar c (maskSlot slot) bitmap offset s
  rw [execCreateChar, execCreateChar, hbyte]

/-! ## The bytes never composed (R99) -/

/-- Whether R99 does not list a command byte as never composed. -/
def mayBeComposed (v : Byte) : Bool :=
  v ≠ 0x00#8 ∧ v ≠ 0x05#8 ∧ v ≠ 0x07#8 ∧ v ≠ 0x2C#8 ∧ v ≠ 0x3C#8 ∧
    ¬ (0x10 ≤ v.toNat ∧ v.toNat < 0x40 ∧ v.toNat % 4 ≠ 0) ∧
    ¬ (0x40 ≤ v.toNat ∧ v.toNat < 0x80 ∧ v.toNat % 8 ≠ 0)

theorem composed_functionSet (fourBit : Bool) (rows : Nat) (largeFont : Bool) :
    mayBeComposed (functionSetByte (displayFunctionFlags fourBit rows largeFont)) = true := by
  have hmem := functionSetByte_mem fourBit rows largeFont
  generalize functionSetByte (displayFunctionFlags fourBit rows largeFont) = v at hmem
  cases fourBit <;> revert v <;> decide

theorem composed_displayControl (visible showCursor blinkCursor : Bool) :
    mayBeComposed (displayControlByte visible showCursor blinkCursor) = true := by
  decide +revert

theorem composed_entryMode (leftToRight : Bool) : mayBeComposed (entryModeByte leftToRight false) = true := by
  decide +revert

theorem composed_cursorShift (moveDisplay right : Bool) :
    mayBeComposed (cursorShiftByte moveDisplay right) = true := by
  decide +revert

/-- A masked slot leaves the low three bits of the CGRAM address byte clear (R98). -/
theorem composed_cgram (slot : Nat) : mayBeComposed (cgramByte slot) = true := by
  have hslot : ∀ m < 8, mayBeComposed (cmd.setCgramAddr ||| BitVec.ofNat 8 (m <<< 3)) = true := by decide
  exact hslot _ (Nat.and_lt_two_pow (n := 3) slot (by decide))

/-- The DDRAM address byte has bit 7 set, whatever the address (R97; log 20). -/
theorem composed_ddram (numRows column row : Nat) : mayBeComposed (ddramByte numRows column row) = true := by
  have hhigh : ∀ x : Byte, mayBeComposed (cmd.setDdramAddr ||| x) = true := by decide
  rw [ddramByte, BitVec.ofNat_or, BitVec.ofNat_toNat, BitVec.setWidth_eq]
  exact hhigh _

/-- An event that is no command of a byte never composed. -/
def Event.CommandComposed : Event → Prop
  | .xfer _ v isData _ => isData = false → mayBeComposed v = true
  | .wait _ | .pin _ _ _ | .release _ _ => True

section Events
variable {c : Nat} {v : Byte} {bl : Bool}

@[simp] theorem commandComposed_command : (Event.xfer c v false bl).CommandComposed ↔ mayBeComposed v = true :=
  ⟨fun h => h rfl, fun h _ => h⟩

@[simp] theorem commandComposed_data : (Event.xfer c v true bl).CommandComposed := nofun

@[simp] theorem commandComposed_wait (d : Delay) : (Event.wait d).CommandComposed := trivial

end Events

/-- Begin's commands are the handshake's constants and composed bytes (R132). -/
theorem commandComposed_beginTrace (fourBit : Bool) (c rows : Nat) (bl ltr font : Bool) :
    ∀ e ∈ beginTrace fourBit c bl (functionSetByte (displayFunctionFlags fourBit rows font))
      (entryModeByte ltr false), e.CommandComposed := by
  have hfs := composed_functionSet fourBit rows font
  have hem := composed_entryMode ltr
  have h01 : mayBeComposed 0x01#8 = true := rfl
  have h02 : mayBeComposed 0x02#8 = true := rfl
  have h03 : mayBeComposed 0x03#8 = true := rfl
  have h0C : mayBeComposed 0x0C#8 = true := rfl
  cases fourBit <;>
    simp only [beginTrace, beginTrace4, beginTrace8, List.forall_mem_cons, commandComposed_command,
      commandComposed_wait, List.not_mem_nil, IsEmpty.forall_iff, implies_true, if_true, if_false,
      Bool.false_eq_true, hfs, hem, h01, h02, h03, h0C, and_self]

/-- Every command of a host operation's plan is a composed byte. -/
theorem commandComposed_plan {k k' : Ctl} {lk : Link} {i : Instr} {evs : List Event}
    (hhost : isHostOp i = true) (h : plan k lk i = some (k', evs)) : ∀ e ∈ evs, e.CommandComposed := by
  have one : ∀ {c : Nat} {v : Byte} {rest : List Event}, mayBeComposed v = true →
      (∀ e ∈ rest, e.CommandComposed) → ∀ e ∈ k.command c v :: rest, e.CommandComposed := fun hv hrest =>
    List.forall_mem_cons.2 ⟨commandComposed_command.2 hv, hrest⟩
  have data : ∀ (c : Nat) (vs : List Byte), ∀ e ∈ k.dataBytes c vs, e.CommandComposed := fun c vs =>
    List.forall_mem_map.2 fun _ _ => commandComposed_data
  have set : ∀ {p c b}, k.whenReady (setPlan p c b k) = some (k', evs) → ∀ e ∈ evs, e.CommandComposed :=
    fun {p c b} hx => by
      obtain ⟨-, he⟩ := whenReady_some hx
      simp only [setPlan] at he
      split at he <;> cases he
      · exact List.forall_mem_nil _
      · exact List.forall_mem_singleton.2 (commandComposed_command.2 (composed_displayControl _ _ _))
  have ready : ∀ {x}, k.whenReady (k, x) = some (k', evs) → (∀ e ∈ x, e.CommandComposed) →
      ∀ e ∈ evs, e.CommandComposed := fun hx hc => by
    obtain ⟨-, he⟩ := whenReady_some hx
    cases he
    exact hc
  have nil := List.forall_mem_nil Event.CommandComposed
  cases i <;> simp only [isHostOp, needsReady, plan, reduceCtorEq] at hhost h
  case beginOp c cols rows ltr font =>
    split at h
    · cases h
      exact commandComposed_beginTrace _ _ _ _ _ _
    · cases h
  case setVisible | setShowCursor | setBlinkCursor | setBacklight => exact set h
  case getProperty => exact ready h nil
  case clear | home =>
    exact ready h (one (by decide) (List.forall_mem_singleton.2 (commandComposed_wait _)))
  case setCursorPosition => exact ready h (one (composed_ddram _ _ _) nil)
  case writeBytes | writeText => exact ready h (data _ _)
  case createChar =>
    split at h
    · exact ready h (one (composed_cgram _) (data _ _))
    · cases h
  case scrollDisplayLeft | scrollDisplayRight | moveCursor =>
    exact ready h (one (composed_cursorShift _ _) nil)

/-- The link adds no transfer record to a controller's events. -/
theorem xfer_mem_of_expand {l c : Nat} {k : Link} {o : List Nat} {evs : List Event} {v : Byte} {r bl : Bool}
    (hown : ∀ e ∈ evs, e.ofController = true) (h : .xfer c v r bl ∈ expand l k o evs) :
    .xfer c v r bl ∈ evs := by
  rw [← controllerTrace_expand l k o hown]
  exact mem_controllerTrace.2 ⟨h, rfl⟩

/-- Settles O60: the transfers of a host operation are those of its plan, whose commands are composed bytes. -/
theorem neverComposedBytesAreNeverSent : Obligations.NeverComposedBytesAreNeverSent := by
  intro i s t tr c v bl hhost h ht hmem
  have of_mem : ∀ {evs : List Event}, (∀ e ∈ evs, e.CommandComposed) → .xfer c v false bl ∈ evs →
      mayBeComposed v = true := fun hevs hm => commandComposed_command.1 (hevs _ hm)
  refine of_decide_eq_true (?_ : mayBeComposed v = true)
  rcases exec_next_cases h with ⟨m, p, rfl, -⟩ | ⟨_, _, _, _, hc, -⟩ | ⟨l, rfl⟩ | ⟨c', hc, hn⟩
  · cases hhost
  · exact absurd hc (ctlOf_ne_none_of_isHostOp hhost s)
  · obtain ⟨lk, -, ⟨-, rfl⟩ | ⟨-, rfl⟩⟩ := construct_ran h
    · cases List.append_cancel_left ht
      exact of_mem (commandComposed_beginTrace _ _ _ _ _ _)
        (xfer_mem_of_expand (beginTrace_ofController _ _ _ _ _) hmem)
    · cases List.append_cancel_left ht
      refine of_mem (List.forall_mem_cons.2 ⟨commandComposed_wait _, List.forall_mem_singleton.2 ?_⟩) hmem
      rw [commandComposed_command]
      split
      · decide
      · exact composed_functionSet _ _ _
  · obtain ⟨k, lk, k', evs, -, -, hp, hran⟩ := ctl_ran hc hn h
    have hevs := commandComposed_plan hhost hp
    rcases hran with ⟨-, rfl⟩ | ⟨-, cut, hcut, rfl⟩ | ⟨-, -, rfl⟩
    · cases List.append_cancel_left ht
      exact of_mem hevs (xfer_mem_of_expand (plan_ofController hp) hmem)
    · cases List.append_cancel_left ht
      exact of_mem hevs (mem_of_cutEvents hcut _ hmem)
    · rw [List.self_eq_append_right.1 ht] at hmem
      cases hmem

end Sys2Proof.Machine
end
section
/-! PROOFS. The table words that `withFetchWord` places (30_encoding.md R103, 70_reset_and_hazards.md R212; log 2,
log 3): what they decode to, and that the boot order makes each of them run. -/

namespace Sys2Proof.Machine

open Sys2Proof.Config

/-! ## What a table word decodes to (log 3) -/

/-- An operation called on the first link or the first controller, or on nothing. -/
def onFirst (i : Instr) : Bool :=
  match targetOf i with
  | .nothing => true
  | .link => linkOf State.reset i == some 0
  | .controller => ctlOf State.reset i == some 0

/-- An operation that a table word can stand for: on the first link or controller, its operands legal. -/
def zeroCall (i : Instr) : Bool := onFirst i && i.wellFormed

theorem zeroCall_decodeBus (w : BitVec 9) : zeroCall (decodeBus w 0) = true := by
  simp only [decodeBus, apply_ite zeroCall]
  simp only [zeroCall, onFirst, targetOf, linkOf, Instr.wellFormed, beq_self_eq_true, Bool.and_self, ite_self]

section Zeros
variable {k : Byte} {i : Instr} {r : List Byte}

/-- A bus word's record with its operand bytes zero names link 0. -/
theorem zeroCall_of_getBusOp {v rs : Byte} (h : getBusOp (v :: rs :: List.replicate 16 0#8) = .ok (i, r)) :
    zeroCall i = true := by
  obtain ⟨w, l, rfl, hrec⟩ := getBusOp_eq h
  have hlink : List.replicate 16 0#8 = putNat l ++ r := by
    rw [putBus] at hrec
    simp only [List.cons_append, List.cons.injEq] at hrec
    exact hrec.2.2.2
  have hread := getNat_putNat l r
  rw [← hlink] at hread
  cases hread
  exact zeroCall_decodeBus w

/-- Each index of a link operation, its operand bytes zero. -/
theorem zeroCall_of_getLinkOp (h : getLinkOp (k :: List.replicate 16 0#8) = .ok (i, r)) : zeroCall i = true := by
  rw [getLinkOp, getByte_cons, ok_bind] at h
  dsimp only at h
  split at h <;> cases h <;> rfl

/-- Each index of a micro-operation, its operand bytes zero. -/
theorem zeroCall_of_getMicroOp (h : getMicroOp (k :: List.replicate 16 0#8) = .ok (i, r)) : zeroCall i = true := by
  rw [getMicroOp, getByte_cons, ok_bind] at h
  dsimp only at h
  split at h <;> cases h <;> rfl

/-- Each index of a host operation, its operand bytes zero: 1 row for Begin, a full glyph for CreateChar. -/
theorem zeroCall_of_getHostOp (h : getHostOp (k :: List.replicate 16 0#8) = .ok (i, r)) : zeroCall i = true := by
  rw [getHostOp, getByte_cons, ok_bind] at h
  dsimp only at h
  split at h <;> cases h <;> rfl

end Zeros

/-- A table word decodes to an operation on the first link or controller, its operands legal. -/
theorem zeroCall_of_tableWord {nbits w : Nat} {i : Instr} (h : decodeTableWord nbits w = some i) :
    zeroCall i = true := by
  rw [decodeTableWord] at h
  split at h <;> cases h
  next hdecode =>
  obtain ⟨n, hfront⟩ := decode_eq_ok.1 hdecode
  rw [tableCall, tableFormat] at hfront
  split_ifs at hfront
  · omega
  · exact zeroCall_of_getLinkOp hfront
  · omega
  · exact zeroCall_of_getMicroOp hfront
  · omega
  · exact zeroCall_of_getHostOp hfront
  · exact zeroCall_of_getBusOp hfront
  · omega
  · cases hfront
  · omega

/-! ## Calls that answer a next state -/

section Runs
variable {i : Instr} {s t : State} {l c : Nat} {k : Ctl} {lk : Link}

/-- A `Send` on a link that exists answers a next state, released or not (R112). -/
theorem runSend_next (hl : s.links[l]? = some lk) (v : Byte) (r bl : Bool) :
    ∃ t, s.runSend l v r bl = .next t := by
  cases hr : lk.released with
  | true => exact ⟨_, runSend_down hl hr v r bl⟩
  | false => exact ⟨_, by rw [State.runSend, onLink_eq hl, send_done (by simpa using hr)]; rfl⟩

/-- A call of the host on a link that exists answers a next state. -/
theorem exec_next_of_link (hcall : hostCallable i = true) (htarget : targetOf i = .link)
    (hi : linkOf s i = some l) (hl : s.links[l]? = some lk) : ∃ t, exec i s = .next t := by
  by_cases hn : ∃ m, i = .construct m
  · obtain ⟨m, rfl⟩ := hn
    cases hi
    cases hr : lk.released with
    | true => exact ⟨_, exec_construct_released hl hr⟩
    | false => exact ⟨_, exec_construct hl hr⟩
  · have hc : ctlOf s i = none := by
      cases i <;> cases htarget
      case construct m => exact absurd ⟨m, rfl⟩ hn
      all_goals rfl
    rcases link_call_cases hcall hc with ⟨_, _, rfl⟩ | ⟨m, rfl⟩ | ⟨m, rfl⟩ | ⟨m, v, r, bl, hm, he⟩
    · cases htarget
    · cases hi
      exact ⟨_, by rw [exec, execFourBitMode, onLink_eq hl]⟩
    · cases hi
      exact ⟨_, exec_release hl⟩
    · cases hi.symm.trans hm
      rw [he]
      exact runSend_next hl v r bl

/-- A ready controller refuses no operation with legal operands (R132, R173, R193). -/
theorem plan_of_wellFormed (hi : ctlOf s i = some c) (hn : ∀ l, i ≠ .construct l) (hw : i.wellFormed = true)
    (hp : k.phase = .ready) (lk : Link) : ∃ x, plan k lk i = some x := by
  have ready : ∀ x, k.whenReady x = some x := fun x => by rw [Ctl.whenReady, hp]
  cases i <;> simp only [ctlOf, reduceCtorEq] at hi
  case construct m => exact absurd rfl (hn m)
  case sendCommand | sendData | pushDisplayControl => exact ⟨_, rfl⟩
  case beginOp => exact ⟨_, if_pos hw⟩
  case createChar => exact ⟨_, (if_pos hw).trans (ready _)⟩
  all_goals exact ⟨_, ready _⟩

/-- A call on a ready controller answers a next state when its operands are legal. -/
theorem exec_next_of_ready (hi : ctlOf s i = some c) (hn : ∀ l, i ≠ .construct l) (hw : i.wellFormed = true)
    (hc : s.ctls[c]? = some k) (hp : k.phase = .ready) (hl : s.links[k.link]? = some lk) :
    ∃ t, exec i s = .next t := by
  obtain ⟨⟨k', evs⟩, hplan⟩ := plan_of_wellFormed hi hn hw hp lk
  cases hr : lk.released with
  | true => exact ⟨_, exec_plan_released hi hc hl hr hplan⟩
  | false => exact ⟨_, exec_plan hi hc hl hr hplan⟩

/-! ## The boot order (R212; log 2) -/

theorem bootLink_of_links (h : s.links ≠ []) : s.bootLink = s := by
  simp [State.bootLink, h]

theorem bootCtl_of_ctls (h : s.ctls ≠ []) : s.bootCtl = s := by
  simp [State.bootCtl, h]

/-- Nothing is booted where a link and a controller exist. -/
theorem bootFor_of_both (hl : s.links ≠ []) (hc : s.ctls ≠ []) (i : Instr) : s.bootFor i = s := by
  rw [State.bootFor]
  split
  · rfl
  · exact bootLink_of_links hl
  · rw [bootLink_of_links hl, bootCtl_of_ctls hc]

/-- The first link of the boot order. -/
theorem bootLink_reset :
    exec (.linkConstruct .eightBit allAssigned) State.reset = .next State.reset.bootLink := rfl

/-- The first controller of the boot order is what `Construct` leaves. -/
theorem bootCtl_eq (hs : s.ctls = []) (h : exec (.construct 0) s = .next t) : s.bootCtl = t := by
  have h : execConstruct 0 s = .next t := h
  simp [State.bootCtl, hs, h, Answer.stateOr]

/-- From reset the boot order makes a controller that is ready on a link (R130, R132). -/
theorem boot_reset : exec (.construct 0) State.reset.bootLink = .next State.reset.bootLink.bootCtl ∧
    ∃ k lk, State.reset.bootLink.bootCtl.ctls[0]? = some k ∧ k.phase = .ready ∧
      State.reset.bootLink.bootCtl.links[k.link]? = some lk := by
  have hexec := exec_construct (s := State.reset.bootLink) (l := 0) rfl rfl
  rw [bootCtl_eq rfl hexec]
  exact ⟨hexec, _, _, rfl, rfl, rfl⟩

theorem bootFor_nothing (h : targetOf i = .nothing) (s : State) : s.bootFor i = s := by
  rw [State.bootFor, h]

theorem bootFor_link (h : targetOf i = .link) (s : State) : s.bootFor i = s.bootLink := by
  rw [State.bootFor, h]

theorem bootFor_controller (h : targetOf i = .controller) (s : State) : s.bootFor i = s.bootLink.bootCtl := by
  rw [State.bootFor, h]

/-- What an operation is called on does not depend on the state where it is its operand. -/
theorem linkOf_of_target (h : targetOf i = .link) (s s' : State) : linkOf s i = linkOf s' i := by
  cases i <;> cases h <;> rfl

theorem ctlOf_of_target (h : targetOf i = .controller) (s s' : State) : ctlOf s i = ctlOf s' i := by
  cases i <;> cases h <;> rfl

/-- From reset, after the boot order, a call that a table word can stand for answers a next state. -/
theorem exec_next_booted (hcall : hostCallable i = true) (hz : zeroCall i = true) :
    ∃ t, exec i (State.reset.bootFor i) = .next t := by
  rw [zeroCall, Bool.and_eq_true] at hz
  obtain ⟨hfirst, hw⟩ := hz
  rw [onFirst] at hfirst
  split at hfirst
  case h_1 ht =>
    cases i <;> cases ht
    case linkConstruct m p =>
      rw [exec, execLinkConstruct]
      split <;> exact ⟨_, rfl⟩
  case h_2 ht =>
    rw [bootFor_link ht]
    exact exec_next_of_link hcall ht ((linkOf_of_target ht _ _).trans (beq_iff_eq.1 hfirst)) rfl
  case h_3 ht =>
    obtain ⟨-, k, lk, hc, hp, hl⟩ := boot_reset
    rw [bootFor_controller ht]
    exact exec_next_of_ready ((ctlOf_of_target ht _ _).trans (beq_iff_eq.1 hfirst))
      (fun l e => by subst e; cases ht) hw hc hp hl

/-- The step after `withFetchWord` runs the word's operation. -/
theorem step_withFetchWord {nbits w : Nat} (h : decodeTableWord nbits w = some i) (hcall : hostCallable i = true)
    (s : State) : step (s.withFetchWord nbits w) = exec i (s.bootFor i) := by
  rw [State.withFetchWord, State.placeWord, h]
  exact (stepRunsTheNextCall _ _ _ rfl).1 hcall

end Runs

/-- Settles O8: the boot order makes what the word is called on, and its zero operands are legal. -/
theorem fetchedTableWordRunsNext : Obligations.FetchedTableWordRunsNext := by
  intro nbits w i h
  refine ⟨fun s hcall => step_withFetchWord h hcall s, fun s hl hc => bootFor_of_both hl hc i,
    fun ht => bootFor_nothing ht _, fun ht => ?_, fun ht => ?_, fun hcall => ?_⟩
  · rw [bootFor_link ht]
    rfl
  · rw [bootFor_controller ht]
    simp only [execAll, bootLink_reset, boot_reset.1]
  · rw [step_withFetchWord h hcall]
    exact exec_next_booted hcall (zeroCall_of_tableWord h)

end Sys2Proof.Machine
end

section
/-! PROOFS. Statements about the link driver (40_link_driver.md R110 to R119): what each link operation emits, what
it leaves on the lines, and what the bus observer reads. -/

namespace Sys2Proof.Machine

open Sys2Proof.Config

/-! ## The free orders (R113, R114, R116; log 8) -/

/-- Every permutation has an order number: the place of the first element is the last digit, the order of the others
the digits before it. -/
theorem exists_permute_eq {α : Type} {ls order : List α} (h : order.Perm ls) : ∃ n, permute n ls = order := by
  induction ls generalizing order with
  | nil => exact ⟨0, h.eq_nil.symm⟩
  | cons x xs ih =>
    obtain ⟨front, back, rfl⟩ := List.append_of_mem (h.mem_iff.2 List.mem_cons_self)
    have hrest : (front ++ back).Perm xs := (List.perm_middle.symm.trans h).cons_inv
    obtain ⟨n, hn⟩ := ih hrest
    have hplace : front.length < xs.length + 1 := by
      have := hrest.length_eq
      rw [List.length_append] at this
      omega
    refine ⟨front.length + (xs.length + 1) * n, ?_⟩
    rw [permute, Nat.add_mul_mod_self_left, Nat.mod_eq_of_lt hplace, Nat.add_mul_div_left _ _ (by omega),
      Nat.div_eq_of_lt hplace, Nat.zero_add, hn, insertAt_append]

/-- Settles O24: `permute` gives permutations only, and gives each. -/
theorem everyLineOrderIsPermitted : Obligations.EveryLineOrderIsPermitted := by
  refine fun group order => ⟨exists_permute_eq, ?_⟩
  rintro ⟨n, rfl⟩
  exact permute_perm n group

/-! ## Construction and the mode (R110, R111) -/

/-- The lines a legal assignment names, one by one (R12, R110). -/
theorem legalPins_iff {mode : Mode} {pins : Lines Bool} : legalPins mode pins = true ↔
    pins.rs = true ∧ pins.e = true ∧
      (mode = .eightBit → pins.d0 = true ∧ pins.d1 = true ∧ pins.d2 = true ∧ pins.d3 = true) ∧
      pins.d4 = true ∧ pins.d5 = true ∧ pins.d6 = true ∧ pins.d7 = true := by
  cases mode <;> simp [legalPins, dataLines, nibbleLines, Lines.get, and_assoc]

/-- Settles O12, by the two sides of the check of the assignment. -/
theorem linkConstructMakesAFreshLink : Obligations.LinkConstructMakesAFreshLink := by
  intro mode pins s legal
  refine ⟨fun h => ⟨Link.fresh mode pins, rfl, rfl, rfl, fun l => ?_, ?_⟩, fun h => ?_⟩
  · rw [Link.fresh, freshPins, Lines.get_map]
  · exact if_pos (legalPins_iff.2 h)
  · exact if_neg (mt legalPins_iff.1 h)

/-- Settles O14: the answer reads the mode alone. -/
theorem fourBitModeReadsTheMode : Obligations.FourBitModeReadsTheMode := by
  intro l k s hk
  rw [exec, execFourBitMode, onLink_eq hk]
  cases hm : k.mode <;> simp [Link.fourBitMode, hm, State.answer]

/-! ## Send (R112, R118, R119) -/

/-- The state a completed `Send` leaves (R112). -/
def State.afterSend (s : State) (l : Nat) (k : Link) (r : Bool) (v : Byte) : State :=
  { s with
    links := s.links.set l { k with pin := pinsAfter k r v }
    lineOrders := s.lineOrders.drop (pulses k.mode)
    trace := s.trace ++ sendEvents l k s.lineOrders r v
    outcome := .ok }

section Send
variable {s : State} {l : Nat} {k : Link}

/-- A `Send` on a link that can send completes. -/
theorem exec_send (h : s.LinkUp l k) (v : Byte) (r bl : Bool) :
    exec (.send l v r bl) s = .next (s.afterSend l k r v) := by
  obtain ⟨hk, hr, -⟩ := h
  rw [exec, execSend, State.runSend, onLink_eq hk, send_done (by simpa using hr)]
  rfl

/-- The link can send again after a `Send`. -/
theorem afterSend_up (h : s.LinkUp l k) (r : Bool) (v : Byte) :
    (s.afterSend l k r v).LinkUp l { k with pin := pinsAfter k r v } := by
  obtain ⟨hk, hr, hlegal⟩ := h
  have hlt := (List.getElem?_eq_some_iff.1 hk).1
  exact ⟨by simp [State.afterSend, hlt], hr, hlegal⟩

/-- A run of `Send` calls shows its transfers, from whatever levels it starts. -/
theorem execAll_sends_show (h : s.LinkUp l k) (xs : List (Bool × Byte)) :
    ∃ t tr, execAll (xs.map fun x => .send l x.2 x.1 true) s = .next t ∧ t.trace = s.trace ++ tr ∧
      Shows l k tr xs := by
  induction xs generalizing s k with
  | nil => exact ⟨s, [], rfl, by simp, .nil l k⟩
  | cons x xs ih =>
    obtain ⟨t, tr, hrun, htrace, hshows⟩ := ih (afterSend_up h x.1 x.2)
    refine ⟨t, sendEvents l k s.lineOrders x.1 x.2 ++ tr, ?_, ?_,
      (shows_send h.2.2 l s.lineOrders x.1 x.2).append (hshows.congr rfl rfl)⟩
    · rw [List.map_cons, execAll, exec_send h]
      exact hrun
    · rw [htrace, State.afterSend, List.append_assoc]

/-- The free orders only rearrange the events of a `Send`. -/
theorem sendEvents_perm (l : Nat) (k : Link) (o : List Nat) (r : Bool) (v : Byte) :
    (sendEvents l k o r v).Perm (sendEvents l k [] r v) := by
  have group : ∀ (n m : Nat) (ls : List Line) (f : Line → Event),
      ((permute n ls).map f).Perm ((permute m ls).map f) :=
    fun n m ls f => ((permute_perm n ls).trans (permute_perm m ls).symm).map f
  rw [sendEvents, sendEvents]
  refine .append_left _ ?_
  cases k.mode with
  | eightBit => exact (group ..).append_right _
  | fourBit => exact (((group ..).append_right _).append (group ..)).append_right _

end Send

/-- Settles O15, by what R112 says of a `Send` on either kind of link. -/
theorem sendPutsItsByteOnTheLink : Obligations.SendPutsItsByteOnTheLink := fun _ _ v r bl _ =>
  ⟨fun hup => runSend_up hup v r bl, fun hk hr => runSend_down hk hr v r bl⟩

/-- Settles O16: the events are a whole `Send`, read mode by mode. -/
theorem sendEmitsItsEvents : Obligations.SendEmitsItsEvents := by
  intro l k v r bl s hup pulse controls
  obtain ⟨_, rfl, hsend⟩ := isSend_sendEvents l k s.lineOrders r v
  cases hm : k.mode with
  | eightBit =>
    simp only [hm] at hsend
    obtain ⟨order, hperm, htrace⟩ := hsend
    refine ⟨_, order, [], exec_send hup v r bl, ?_, fun _ => hperm, nofun⟩
    simp only [State.afterSend, htrace, List.append_assoc]
    rfl
  | fourBit =>
    simp only [hm] at hsend
    obtain ⟨first, second, hfirst, hsecond, htrace⟩ := hsend
    refine ⟨_, first, second, exec_send hup v r bl, ?_, nofun, fun _ => ⟨hfirst, hsecond⟩⟩
    simp only [State.afterSend, htrace, List.append_assoc]
    rfl

/-- Settles O17: no count depends on the free orders, so each is that of the groups as they stand. -/
theorem sendCountsItsEvents : Obligations.SendCountsItsEvents := by
  intro l k v r bl s hup
  refine ⟨_, _, exec_send hup v r bl, rfl, ?_⟩
  have hperm := sendEvents_perm l k s.lineOrders r v
  simp only [hperm.length_eq, hperm.countP_eq, hperm.count_eq, minDuration_send]
  cases hm : k.mode <;> cases hw : k.assigned.rw <;> simp only [sendEvents, hm, hw] <;>
    exact ⟨rfl, rfl, rfl, rfl, rfl, rfl, trivial⟩

/-- Settles O18: the observer reads what the run shows. -/
theorem sendSequenceShowsItsTransfers : Obligations.SendSequenceShowsItsTransfers := by
  intro l k xs s hup
  obtain ⟨t, tr, hrun, htrace, hshows⟩ := execAll_sends_show hup xs
  exact ⟨t, tr, hrun, htrace, hshows.transfers_eq⟩

/-- Settles O19: `Send` reads its backlight flag nowhere. -/
theorem backlightReachesNoLine : Obligations.BacklightReachesNoLine := fun _ _ _ _ => rfl

/-! ## Release (R116) -/

/-- A link after its first `Release`. -/
def Link.freed (k : Link) : Link :=
  { k with released := true, pin := overlay (assignedLines k.assigned) (fun _ => some .Z) k.pin }

theorem freed_pin (k : Link) (m : Line) :
    k.freed.pin.get m = if k.assigned.get m then some .Z else k.pin.get m := by
  simp [Link.freed]

/-- The state the first `Release` of a link leaves. -/
def State.afterRelease (s : State) (l : Nat) (k : Link) : State :=
  { s with
    links := s.links.set l k.freed
    lineOrders := s.lineOrders.tail
    trace := s.trace ++
      (permute (s.lineOrders.headD 0) (assignedLines k.assigned)).map fun m => .release l m
    outcome := .ok }

section Release
variable {s : State} {l : Nat} {k : Link}

theorem exec_release_first (hk : s.links[l]? = some k) (hr : k.released = false) :
    exec (.release l) s = .next (s.afterRelease l k) := by
  rw [exec_release hk, release_first (by simpa using hr)]
  rfl

theorem exec_release_again (hk : s.links[l]? = some k) (hr : k.released = true) :
    exec (.release l) s = .next { s with outcome := .ok } := by
  rw [exec_release hk, release_again (by simpa using hr), putBus_busOf hk]
  rfl

theorem afterRelease_link (hk : s.links[l]? = some k) : (s.afterRelease l k).links[l]? = some k.freed := by
  have hlt := (List.getElem?_eq_some_iff.1 hk).1
  simp [State.afterRelease, hlt]

end Release

/-- Settles O20: the first `Release` leaves a released link, on which every later call is the released case. -/
theorem releaseFreesEveryLineOnce : Obligations.ReleaseFreesEveryLineOnce := by
  intro l k s hk
  refine ⟨exec_release_again hk, fun hr => ?_⟩
  have hfreed := afterRelease_link hk
  exact ⟨_, _, k.freed, exec_release_first hk hr, rfl, permute_perm _ _, rfl, rfl, rfl, rfl, rfl, freed_pin k,
    rfl, rfl, rfl, List.drop_one.symm, exec_release_again hfreed rfl, runSend_down hfreed rfl,
    fourBitModeReadsTheMode l k.freed _ hfreed⟩

/-! ## The micro-operations run alone (R113 to R115; log 15) -/

section Micro
variable {s : State} {l : Nat} {k : Link}

/-- A link that can send drives every assigned line but `D0` to `D3` in `FourBit` mode (R32, R34, R66). -/
theorem drives_of_up (h : s.LinkUp l k) {ls : List Line} (hassigned : ∀ m ∈ ls, k.assigned.get m = true)
    (hlow : k.mode = .fourBit → ∀ m ∈ [Line.d0, .d1, .d2, .d3], m ∉ ls) : ls.all k.drives = true := by
  refine List.all_eq_true.2 fun m hm => drives_iff.2 ⟨hassigned m hm, h.2.1, ?_⟩
  rintro ⟨hmode, hline⟩
  exact hlow hmode m (by simpa using hline) hm

/-- A micro-operation on lines the link drives does its body. -/
theorem runMicro_driven (hk : s.links[l]? = some k) {ls : List Line} (hd : ls.all k.drives = true)
    (op : Bus → Bus) : s.runMicro l ls op = .next ((s.putBus (op (s.busOf l k))).answer .ok) := by
  rw [State.runMicro, onLink_eq hk]
  exact if_pos hd

theorem exec_writeData8 (h : s.LinkUp l k) (hm : k.mode = .eightBit) (v : Byte) :
    exec (.writeData8 l v) s = .next ((s.putBus ((s.busOf l k).writeData8 v)).answer .ok) :=
  runMicro_driven h.1
    (drives_of_up h (fun _ => legalPins_data (hm ▸ h.2.2)) fun hm' => absurd (hm.symm.trans hm') (by decide)) _

theorem exec_writeNibble (h : s.LinkUp l k) (n : Nibble) :
    exec (.writeNibble l n) s = .next ((s.putBus ((s.busOf l k).writeNibble n)).answer .ok) :=
  runMicro_driven h.1 (drives_of_up h (fun _ => legalPins_nibble h.2.2) fun _ => by decide) _

theorem exec_enablePulse (h : s.LinkUp l k) :
    exec (.enablePulse l) s = .next ((s.putBus (s.busOf l k).enablePulse).answer .ok) :=
  runMicro_driven h.1
    (drives_of_up h (fun m hm => by rw [List.mem_singleton.1 hm]; exact legalPins_e h.2.2) fun _ => by decide) _

end Micro

/-- Settles O22: the link drives the lines of each group, so each operation does its body. -/
theorem microOperationsWriteTheirLines : Obligations.MicroOperationsWriteTheirLines := by
  refine fun l k s hup => ⟨fun v hm => ?_, fun n => ?_, ?_⟩
  · rw [exec_writeData8 hup hm, writeData8_eq]
    exact ⟨_, _, _, rfl, rfl, permute_perm _ _, rfl, rfl, rfl, overlay_get _ _ _, rfl, rfl, rfl⟩
  · rw [exec_writeNibble hup, writeNibble_eq]
    exact ⟨_, _, _, rfl, rfl, permute_perm _ _, rfl, rfl, rfl, overlay_get _ _ _, rfl, rfl, rfl⟩
  · rw [exec_enablePulse hup, enablePulse_eq]
    rfl

end Sys2Proof.Machine
end

section
/-! PROOFS. A controller's transfers, Begin and Construct (41_controller_begin.md R130 to R141): each is the plan of
its operation, carried out on a link that can send and cut at the first transfer on a released one. -/

namespace Sys2Proof.Machine

open Sys2Proof.Config

/-! ## A plan on either kind of link -/

/-- No plan moves a controller to another link (R37). -/
theorem plan_link {k k' : Ctl} {lk : Link} {i : Instr} {evs : List Event} (h : plan k lk i = some (k', evs)) :
    k'.link = k.link := by
  rcases plan_ctl h with ⟨_, _, _, _, _, -, -, rfl⟩ | rfl | ⟨p, _, b, -, -, rfl⟩
  · rfl
  · rfl
  · exact withProperty_link k p b

section Plan
variable {s : State} {i : Instr} {c : Nat} {k k' : Ctl} {lk : Link} {evs : List Event}

/-- An operation of a controller whose link can send puts exactly its plan on the link. -/
theorem exec_plan_sent (hi : ctlOf s i = some c) (hup : s.CtlUp c k lk) (hp : plan k lk i = some (k', evs)) :
    ∃ t, exec i s = .next t ∧ t.outcome = okOutcome k i ∧ CtlSent s t c k' lk evs := by
  obtain ⟨hc, hl, hr, hlegal⟩ := hup
  refine ⟨_, exec_plan hi hc hl hr hp, rfl, ?_⟩
  rw [← plan_link hp]
  exact afterCtl_sent hlegal (plan_ofController hp)

/-- An operation of a controller whose link has been released stops at the first transfer of its plan. -/
theorem exec_plan_cut {cut : List Event} (hi : ctlOf s i = some c) (hdown : s.CtlDown c k lk)
    (hp : plan k lk i = some (k', evs)) (hcut : cutEvents evs = some cut) :
    exec i s = .next (disposed s c (cutCtl k lk i) cut) := by
  obtain ⟨hc, hl, hr⟩ := hdown
  rw [exec_plan_released hi hc hl hr hp, hcut]

end Plan

/-! ## The wrappers of R131 -/

/-- Settles O25: the plan of each is its one transfer, which is also where it is cut. -/
theorem sendCommandAndSendDataCarryTheBacklight : Obligations.SendCommandAndSendDataCarryTheBacklight :=
  fun _ _ _ _ _ =>
    ⟨fun hup => exec_plan_sent rfl hup rfl, fun hup => exec_plan_sent rfl hup rfl,
      fun hdown => ⟨exec_plan_cut rfl hdown rfl rfl, exec_plan_cut rfl hdown rfl rfl⟩⟩

/-! ## Begin (R132 to R141) -/

theorem fourBitMode_eq_decide (k : Link) : k.fourBitMode = decide (k.mode = .fourBit) := rfl

/-- The entry-mode byte of Begin's last transfer, by its value (R86, R140; log 5). -/
theorem entryModeByte_noShift (ltr : Bool) : entryModeByte ltr false = if ltr then 0x06#8 else 0x04#8 := by
  cases ltr <;> rfl

/-- Begin's first transfer comes directly after the warm-up: the probe in `FourBit` mode, the function set in
`EightBit` mode (R134 to R136). -/
theorem cutEvents_beginTrace (fourBit : Bool) (c : Nat) (bl : Bool) (fs em : Byte) :
    cutEvents (beginTrace fourBit c bl fs em) =
      some [.wait .warmup, .xfer c (if fourBit then 0x03#8 else fs) false bl] := by
  cases fourBit <;> rfl

section Begin
variable {c columns rows : Nat} {ltr font : Bool} {k : Ctl} {lk : Link}

theorem plan_begin_legal (h1 : 1 ≤ rows) (h4 : rows ≤ 4) :
    plan k lk (.beginOp c columns rows ltr font) =
      some (ctlAfterBegin k (decide (lk.mode = .fourBit)) columns rows ltr font,
        beginTrace (decide (lk.mode = .fourBit)) c k.backlight
          (functionSetByte (displayFunctionFlags (decide (lk.mode = .fourBit)) rows font))
          (if ltr then 0x06#8 else 0x04#8)) := by
  rw [plan, if_pos (rowsLegal_iff.2 ⟨h1, h4⟩), entryModeByte_noShift, fourBitMode_eq_decide]

theorem plan_begin_illegal (h : rows < 1 ∨ rows > 4) : plan k lk (.beginOp c columns rows ltr font) = none :=
  if_neg (mt rowsLegal_iff.1 (by omega))

end Begin

/-- Settles O40: without legal rows there is no plan; with them the plan is the trace of the mode. -/
theorem beginRunsItsSevenSteps : Obligations.BeginRunsItsSevenSteps := by
  intro c columns rows ltr font k lk s hc hl fourBit flags fs em
  refine ⟨fun hrows => ?_, fun h1 h4 hup => ?_, fun h1 h4 hdown => ?_⟩
  · exact exec_no_plan rfl hc hl (plan_begin_illegal hrows)
  · exact exec_plan_sent rfl hup (plan_begin_legal h1 h4)
  · exact exec_plan_cut rfl hdown (plan_begin_legal h1 h4) (cutEvents_beginTrace ..)

/-! ## Construct (R130, D35) -/

section Construct
variable (s : State) (l : Nat)

/-- Whatever Begin leaves takes the new controller's place, so the record it started from does not show. -/
theorem withFresh_ctls_set (k : Ctl) :
    (s.withFresh l).ctls.set s.ctls.length k = (s.ctls ++ [k]).set s.ctls.length k := by
  rw [withFresh_ctls, List.set_append_right _ _ le_rfl, List.set_append_right _ _ le_rfl, Nat.sub_self]
  rfl

theorem afterCtl_withFresh (k : Ctl) (lk : Link) (evs : List Event) (o : OpOutcome) :
    (s.withFresh l).afterCtl s.ctls.length k l lk evs o =
      ({ s with ctls := s.ctls ++ [k] } : State).afterCtl s.ctls.length k l lk evs o := by
  rw [State.afterCtl, withFresh_ctls_set]
  rfl

theorem disposed_withFresh (k : Ctl) (evs : List Event) :
    disposed (s.withFresh l) s.ctls.length k evs =
      disposed { s with ctls := s.ctls ++ [k] } s.ctls.length k evs := by
  rw [disposed, withFresh_ctls_set]
  rfl

end Construct

/-- Settles O41: `Construct` ends as its implicit Begin does, on the record Begin leaves. -/
theorem constructRunsTheDefaultBegin : Obligations.ConstructRunsTheDefaultBegin := by
  intro l lk s hl c fourBit flags fs bl
  refine ⟨fun hup => ?_, fun hr => ?_⟩
  · obtain ⟨-, hr, hlegal⟩ := hup
    refine ⟨_, builtCtl s l lk, exec_construct hl hr, rfl, rfl, ?_⟩
    rw [afterCtl_withFresh]
    exact afterCtl_sent hlegal (beginTrace_ofController _ _ _ _ _)
  · refine ⟨cutBuiltCtl s l lk, ?_, rfl, rfl, rfl, rfl, rfl, rfl, rfl⟩
    rw [exec_construct_released hl hr, disposed_withFresh]
    rfl

end Sys2Proof.Machine
end

section
/-! PROOFS. The property setters and the property read (42_controller_properties.md R150 to R156). A setter has two
plans: the empty one where its value is cached, else the new flag and one display-control byte. -/

namespace Sys2Proof.Machine

open Sys2Proof.Config

/-! ## Plans of operations that need the phase `Ready` (R193), and plans that send nothing -/

/-- An operation whose plan keeps the record and sends nothing only sets its outcome, on a link that can send and
on a released one. -/
theorem exec_quiet {s : State} {i : Instr} {c : Nat} {k : Ctl} {lk : Link} (hi : ctlOf s i = some c)
    (hc : s.ctls[c]? = some k) (hl : s.links[k.link]? = some lk) (hp : plan k lk i = some (k, [])) :
    exec i s = .next { s with outcome := okOutcome k i } := by
  cases hr : lk.released with
  | true => exact exec_plan_released hi hc hl hr hp
  | false =>
    rw [exec_plan hi hc hl hr hp]
    simp [State.afterCtl, list_set_self hc, list_set_self hl, expand]

theorem whenReady_of_ready {k : Ctl} (hready : k.phase = .ready) (x : Ctl × List Event) :
    k.whenReady x = some x := by rw [Ctl.whenReady, hready]

/-! ## The two plans of a setter (R151 to R154) -/

@[simp] theorem okOutcome_setter (k : Ctl) (p : Property) (c : Nat) (b : Bool) :
    okOutcome k (setter p c b) = .ok := by cases p <;> rfl

theorem withProperty_cached (k : Ctl) (p : Property) : k.withProperty p (k.property p) = k := by
  cases p <;> rfl

section Setter
variable {k : Ctl} {p : Property} {b : Bool} (lk : Link) (c : Nat)

theorem plan_setter_cached (hready : k.phase = .ready) (hb : k.property p = b) :
    plan k lk (setter p c b) = some (k, []) := by
  rw [plan_setter, whenReady_of_ready hready, setPlan, if_pos hb]

theorem plan_setter_changing (hready : k.phase = .ready) (hb : k.property p ≠ b) :
    plan k lk (setter p c b) = some (k.withProperty p b,
      [.xfer c (k.withProperty p b).displayByte false (k.withProperty p b).backlight]) := by
  rw [plan_setter, whenReady_of_ready hready, setPlan, if_neg hb]

end Setter

/-! ## One call -/

/-- Settles O26: the plan is one command with the byte of R95, which is also where it is cut. -/
theorem pushSendsTheComposedByte : Obligations.PushSendsTheComposedByte := fun _ _ _ _ =>
  ⟨fun hup => exec_plan_sent rfl hup rfl, fun hdown => exec_plan_cut rfl hdown rfl rfl⟩

/-- Settles O27: the plan of a setter that changes its flag, carried out. -/
theorem changingSetterSendsOneByte : Obligations.ChangingSetterSendsOneByte := by
  intro p c b k lk s hup hready hb
  rw [← okOutcome_setter k p c b]
  exact exec_plan_sent (ctlOf_setter ..) hup (plan_setter_changing lk c hready hb)

/-- Settles O28: the plan of a setter whose value is cached is empty. -/
theorem unchangedSetterSendsNothing : Obligations.UnchangedSetterSendsNothing := by
  intro p c b k lk s hc hl hready hb
  rw [← okOutcome_setter k p c b]
  exact exec_quiet (ctlOf_setter ..) hc hl (plan_setter_cached lk c hready hb)

/-- Settles O29: the plan is cut at its one transfer, after the cache is written. -/
theorem failedSetterKeepsTheNewFlag : Obligations.FailedSetterKeepsTheNewFlag := by
  intro p c b k lk s hdown hready hb
  rw [exec_plan_cut (ctlOf_setter ..) hdown (plan_setter_changing lk c hready hb) rfl, cutCtl_setter]

/-- Settles O31: the plan of the read is empty, and its answer is the cached flag. -/
theorem getPropertyReadsTheCache : Obligations.GetPropertyReadsTheCache := by
  intro p c k lk s hc hl hready
  have hplan : plan k lk (.getProperty c p) = some (k, []) := whenReady_of_ready hready _
  rw [exec_quiet rfl hc hl hplan]
  cases p <;> rfl

/-! ## A sequence of calls (R156) -/

/-- The transfers in what a plan puts on the trace are those of the plan. -/
theorem xfersOf_expand (l : Nat) (k : Link) (o : List Nat) {evs : List Event}
    (h : ∀ e ∈ evs, e.ofController = true) : xfersOf (expand l k o evs) = xfersOf evs := by
  rw [← xfersOf_controllerTrace, controllerTrace_expand _ _ _ h]

section Sequence
variable {s : State} {c : Nat} {k : Ctl} {lk : Link}

/-- One setter call, on either kind of link: the flag is cached, the link is still there, and one transfer was made
exactly if the flag changed. -/
theorem exec_setter_counts (hc : s.ctls[c]? = some k) (hl : s.links[k.link]? = some lk)
    (hready : k.phase = .ready) (p : Property) (b : Bool) :
    ∃ (t : State) (tr : List Event) (lk' : Link), exec (setter p c b) s = .next t ∧
      t.ctls[c]? = some (k.withProperty p b) ∧ t.links[k.link]? = some lk' ∧ t.trace = s.trace ++ tr ∧
      (xfersOf tr).length = if k.property p = b then 0 else 1 := by
  have hclt := (List.getElem?_eq_some_iff.1 hc).1
  have hllt := (List.getElem?_eq_some_iff.1 hl).1
  by_cases hb : k.property p = b
  · refine ⟨_, [], lk, unchangedSetterSendsNothing p c b k lk s hc hl hready hb, ?_, hl, by simp, by simp [hb]⟩
    rw [← hb, withProperty_cached]
    exact hc
  · have hplan := plan_setter_changing lk c hready hb
    cases hr : lk.released with
    | true =>
      exact ⟨_, _, lk, failedSetterKeepsTheNewFlag p c b k lk s ⟨hc, hl, hr⟩ hready hb, by simp [hclt], hl, rfl,
        by simp [hb]⟩
    | false =>
      refine ⟨_, _, _, exec_plan (ctlOf_setter ..) hc hl hr hplan, by simp [State.afterCtl, hclt],
        List.getElem?_set_self hllt, rfl, ?_⟩
      rw [xfersOf_expand _ _ _ (plan_ofController hplan), if_neg hb]
      rfl

end Sequence

/-- Settles O30, by induction on the calls: each makes the transfers `changes` counts for it and leaves the cache the
next one compares with. -/
theorem setterSequenceSendsItsChanges : Obligations.SetterSequenceSendsItsChanges := by
  intro c calls
  induction calls with
  | nil => exact fun k lk s _ _ _ => ⟨s, [], rfl, by simp, rfl⟩
  | cons call calls ih =>
    obtain ⟨p, b⟩ := call
    intro k lk s hc hl hready
    obtain ⟨u, tr, lk', hrun, huc, hul, hutrace, hcount⟩ := exec_setter_counts hc hl hready p b
    obtain ⟨t, tr', hrest, httrace, hcount'⟩ :=
      ih (k.withProperty p b) lk' u huc (by rwa [withProperty_link]) (by rwa [withProperty_phase])
    refine ⟨t, tr ++ tr', ?_, by rw [httrace, hutrace, List.append_assoc], ?_⟩
    · rw [List.map_cons, execAll, hrun]
      exact hrest
    · rw [xfersOf_append, List.length_append, hcount, hcount', changes]

end Sys2Proof.Machine
end

section
/-! PROOFS. Clear, Home and SetCursorPosition (43_controller_clear_home_cursor.md R160 to R163): each has a plan that
keeps the record, and the cursor address reads a row only through its clamp. -/

namespace Sys2Proof.Machine

open Sys2Proof.Config

/-! ## Clear and Home (R160, R161) -/

/-- Settles O32: the plan of each is its command and then its wait. -/
theorem clearAndHomeSendAndWait : Obligations.ClearAndHomeSendAndWait := fun _ _ _ _ hup hready =>
  ⟨exec_plan_sent rfl hup (whenReady_of_ready hready _), exec_plan_sent rfl hup (whenReady_of_ready hready _)⟩

/-! ## The address byte of a cursor position (R97; log 20) -/

/-- The address of a row that R43's table lists, by the offset it lists. -/
theorem ddramAddress_of_tableRow {numRows row offset : Nat}
    (h : rowOffsetTable[clampRow numRows row]? = some offset) (column : Nat) :
    ddramAddress numRows column row = column + offset := by
  rw [ddramAddress, rowOffset, List.getD_eq_getElem?_getD, h, Option.getD_some]

/-- An address of 7 bits is the low part of its command byte. -/
theorem toNat_addressCommand {a : Nat} (h : a ≤ 0x7F) : (BitVec.ofNat 8 (0x80 ||| a)).toNat = 0x80 + a := by
  have hor : 0x80 + a = 0x80 ||| a := Nat.two_pow_add_eq_or_of_lt (i := 7) (by omega) 1
  rw [← hor, BitVec.toNat_ofNat]
  omega

/-- Settles O33: the plan is one command with the address byte of R97. -/
theorem setCursorPositionSendsTheAddress : Obligations.SetCursorPositionSendsTheAddress := by
  intro c column row k lk s hup hready r offset hoffset
  obtain ⟨t, hrun, hok, hsent⟩ :=
    exec_plan_sent (i := .setCursorPosition c column row) rfl hup (whenReady_of_ready hready _)
  have haddr : ddramAddress k.numRows column row = column + offset := ddramAddress_of_tableRow hoffset column
  have hbyte : ddramByte k.numRows column row = BitVec.ofNat 8 (0x80 ||| (column + offset)) := by
    rw [ddramByte, haddr]
    rfl
  exact ⟨t, _, hrun, hok, hsent, hbyte, fun hle => by rw [hbyte, toNat_addressCommand hle]⟩

/-! ## The clamp law (R163) -/

theorem clampRow_min (numRows row : Nat) : clampRow numRows (min row (numRows - 1)) = clampRow numRows row := by
  unfold clampRow
  split <;> split <;> omega

theorem exec_setCursorPosition (c column row : Nat) (s : State) :
    exec (.setCursorPosition c column row) s =
      s.runReady c fun d => d.sendCommand (ddramByte d.ctl.numRows column row) := rfl

/-- An operation of a controller depends only on what it does with that controller's record. -/
theorem runReady_congr {s : State} {c : Nat} {k : Ctl} {op op' : Desk → Ran Desk} (hc : s.ctls[c]? = some k)
    (h : ∀ d : Desk, d.ctl = k → op d = op' d) : s.runReady c op = s.runReady c op' := by
  simp only [State.runReady, State.onReady, State.onCtl, hc]
  cases s.busAt k.link with
  | none => rfl
  | some b => simp only [h ⟨b, c, k⟩ rfl]

/-- Settles O34: the two rows have one clamp, so the operations send one byte. -/
theorem rowClampLaw : Obligations.RowClampLaw := by
  refine fun c column row k s hc => ⟨fun _ => ?_, fun hrow => by omega⟩
  rw [exec_setCursorPosition, exec_setCursorPosition]
  refine runReady_congr hc fun d hd => ?_
  rw [hd, ddramByte, ddramByte, ddramAddress, ddramAddress, clampRow_min]

end Sys2Proof.Machine
end

section
/-! PROOFS. WriteBytes, WriteText and CreateChar (44_controller_write_createchar.md R170 to R173). Two plans that keep
the record, carried out one after the other, are one plan (R172). -/

namespace Sys2Proof.Machine

open Sys2Proof.Config

/-! ## Writes (R170, R171) -/

/-- Settles O35: the plan of each is the transfers of its bytes as data. -/
theorem writesSendEveryByte : Obligations.WritesSendEveryByte := fun _ _ _ _ hup hready =>
  ⟨fun _ => exec_plan_sent rfl hup (whenReady_of_ready hready _),
    fun _ => exec_plan_sent rfl hup (whenReady_of_ready hready _)⟩

/-! ## Writes one after another (R172) -/

theorem dataBytes_append (k : Ctl) (c : Nat) (a b : List Byte) :
    k.dataBytes c (a ++ b) = k.dataBytes c a ++ k.dataBytes c b := List.map_append

section Compose
variable {s : State} {c : Nat} {k : Ctl} {lk : Link}

/-- A completed operation that keeps its controller's record leaves the controller on a link that can send. -/
theorem afterCtl_up (hup : s.CtlUp c k lk) (evs : List Event) (o : OpOutcome) :
    (s.afterCtl c k k.link lk evs o).CtlUp c k { lk with pin := pinsAfterAll lk (xfersOf evs) } := by
  obtain ⟨hc, hl, hr, hlegal⟩ := hup
  have hclt := (List.getElem?_eq_some_iff.1 hc).1
  have hllt := (List.getElem?_eq_some_iff.1 hl).1
  exact ⟨List.getElem?_set_self hclt, List.getElem?_set_self hllt, hr, hlegal⟩

/-- The events of two completed operations leave together what they leave one after the other. -/
theorem afterCtl_afterCtl (s : State) (c : Nat) (k k' : Ctl) (l : Nat) (lk : Link) (xs ys : List Event)
    (o o' : OpOutcome) :
    (s.afterCtl c k l lk xs o).afterCtl c k' l { lk with pin := pinsAfterAll lk (xfersOf xs) } ys o' =
      s.afterCtl c k' l lk (xs ++ ys) o' := by
  simp only [State.afterCtl, List.set_set, pinsAfterAll_append, xfersOf_append, List.drop_drop, List.length_append,
    Nat.add_mul, expand_append, expand_pin, List.append_assoc]

/-- An operation of a controller whose link can send leaves exactly what its plan says. -/
theorem exec_plan_up {i : Instr} {k' : Ctl} {evs : List Event} (hi : ctlOf s i = some c) (hup : s.CtlUp c k lk)
    (hp : plan k lk i = some (k', evs)) :
    exec i s = .next (s.afterCtl c k' k.link lk evs (okOutcome k i)) := by
  obtain ⟨hc, hl, hr, -⟩ := hup
  exact exec_plan hi hc hl hr hp

theorem exec_writeBytes (hup : s.CtlUp c k lk) (hready : k.phase = .ready) (buffer : List Byte) :
    exec (.writeBytes c buffer) s = .next (s.afterCtl c k k.link lk (k.dataBytes c buffer) .ok) :=
  exec_plan_up rfl hup (whenReady_of_ready hready _)

theorem exec_writeText (hup : s.CtlUp c k lk) (hready : k.phase = .ready) (text : Text) :
    exec (.writeText c text) s = .next (s.afterCtl c k k.link lk (k.dataBytes c (encodeText k.encode text)) .ok) :=
  exec_plan_up rfl hup (whenReady_of_ready hready _)

end Compose

/-- Two calls of which the first completes are the second one, made in the state the first one leaves. -/
theorem execAll_pair {s t : State} {i : Instr} (h : exec i s = .next t) (j : Instr) : execAll [i, j] s = exec j t := by
  rw [execAll, h]
  dsimp only
  rw [execAll]
  cases exec j t <;> rfl

/-- Settles O36: the second buffer's plan, carried out on what the first one leaves, is the rest of the plan of the
joined buffer; the plan of a text is that of its encoding. -/
theorem writesCompose : Obligations.WritesCompose := by
  refine fun c k lk s hup hready => ⟨fun a b => ?_, fun text => ?_⟩
  · calc execAll [.writeBytes c a, .writeBytes c b] s
      _ = exec (.writeBytes c b) (s.afterCtl c k k.link lk (k.dataBytes c a) .ok) :=
        execAll_pair (exec_writeBytes hup hready a) _
      _ = .next (s.afterCtl c k k.link lk (k.dataBytes c a ++ k.dataBytes c b) .ok) := by
        rw [exec_writeBytes (afterCtl_up hup _ _) hready, afterCtl_afterCtl]
      _ = exec (.writeBytes c (a ++ b)) s := by
        rw [exec_writeBytes hup hready, dataBytes_append]
  · rw [exec_writeText hup hready, exec_writeBytes hup hready]

/-! ## CreateChar (R173, R98) -/

theorem bitmapLegal_iff {bitmap : List Byte} {offset : Nat} :
    bitmapLegal bitmap offset = true ↔ offset + 8 ≤ bitmap.length := decide_eq_true_iff

theorem length_glyphBytes {bitmap : List Byte} {offset : Nat} (h : offset + 8 ≤ bitmap.length) :
    (glyphBytes bitmap offset).length = 8 := by
  rw [glyphBytes, List.length_take, List.length_drop]
  omega

theorem getElem?_glyphBytes (bitmap : List Byte) (offset : Nat) {j : Nat} (hj : j < 8) :
    (glyphBytes bitmap offset)[j]? = bitmap[offset + j]? := by
  rw [glyphBytes, List.getElem?_take_of_lt hj, List.getElem?_drop]

section Glyph
variable {k : Ctl} {bitmap : List Byte} {offset : Nat} (lk : Link) (c slot : Nat)

theorem plan_createChar_legal (hready : k.phase = .ready) (h : offset + 8 ≤ bitmap.length) :
    plan k lk (.createChar c slot bitmap offset) =
      some (k, k.command c (cgramByte slot) :: k.dataBytes c (glyphBytes bitmap offset)) := by
  rw [plan, if_pos (bitmapLegal_iff.2 h), whenReady_of_ready hready]

theorem plan_createChar_short (h : bitmap.length < offset + 8) :
    plan k lk (.createChar c slot bitmap offset) = none := by
  rw [plan, if_neg fun hlegal => by have := bitmapLegal_iff.1 hlegal; omega]

theorem stopOf_createChar (hready : k.phase = .ready) :
    stopOf k (.createChar c slot bitmap offset) = .bitmapTooShort := by rw [stopOf, hready]

end Glyph

/-- Settles O37: with a whole glyph the plan is the address command and the glyph's bytes as data; with a short bitmap
there is no plan, whatever the link. -/
theorem createCharSendsTheGlyph : Obligations.CreateCharSendsTheGlyph := by
  refine fun c slot bitmap offset k lk s hc hl hready => ⟨fun hup hlen => ?_, fun hshort => ?_⟩
  · obtain ⟨t, hrun, hok, hsent⟩ := exec_plan_sent rfl hup (plan_createChar_legal lk c slot hready hlen)
    exact ⟨t, glyphBytes bitmap offset, hrun, hok, length_glyphBytes hlen,
      fun _ hj => getElem?_glyphBytes bitmap offset hj, hsent⟩
  · rw [exec_no_plan rfl hc hl (plan_createChar_short lk c slot hshort), stopOf_createChar c slot hready]

end Sys2Proof.Machine
end

section
/-! PROOFS. ScrollDisplayLeft, ScrollDisplayRight and MoveCursor (45_controller_shift.md R180 to R182): each has a plan
that keeps the record and is one cursor-shift command. -/

namespace Sys2Proof.Machine

/-! ## The bytes of a shift, by their values (R88; log 5) -/

theorem cursorShiftByte_displayLeft : cursorShiftByte true false = 0x18#8 := rfl

theorem cursorShiftByte_displayRight : cursorShiftByte true true = 0x1C#8 := rfl

theorem cursorShiftByte_cursor (right : Bool) :
    cursorShiftByte false right = if right then 0x14#8 else 0x10#8 := by cases right <;> rfl

/-! ## The shift operations (R180, R181, R182) -/

/-- Settles O39: the plan of each is its one cursor-shift command, the byte of its direction. -/
theorem shiftsSendTheirByte : Obligations.ShiftsSendTheirByte := by
  intro c right k lk s hup hready
  rw [← cursorShiftByte_displayLeft, ← cursorShiftByte_displayRight, ← cursorShiftByte_cursor]
  exact ⟨exec_plan_sent rfl hup (whenReady_of_ready hready _), exec_plan_sent rfl hup (whenReady_of_ready hready _),
    exec_plan_sent rfl hup (whenReady_of_ready hready _)⟩

end Sys2Proof.Machine
end

section
/-! PROOFS. Errors, refusals and stops (60_exceptions.md R190 to R199): the four ways an operation ends with an error,
what a failing `Send` has left, the refusal before Begin, and where a step stops. -/

namespace Sys2Proof.Machine

open Sys2Proof.Config

variable {s t : State} {i : Instr} {c : Nat} {k : Ctl} {lk : Link}

/-! ## The ways an operation ends with an error (R190, R196) -/

/-- How `exec i s = .next t` ended with an error, and what it left: `LinkConstruct` without a mandatory line, a link's
`Send`, the implicit Begin of `Construct`, or an operation of a controller whose plan has a transfer; the last three
on a released link. -/
inductive EndedInError (i : Instr) (s t : State) : ErrorKind → Prop
  | missingLine (mode : Mode) (pins : Lines Bool) (hi : i = .linkConstruct mode pins)
      (hillegal : legalPins mode pins = false) : EndedInError i s t .configurationError
  | linkSend (l : Nat) (lk : Link) (hc : ctlOf s i = none) (hl : linkOf s i = some l) (hlk : s.links[l]? = some lk)
      (hr : lk.released = true) (ht : t = { s with outcome := .error .disposedError })
      (hrelease : ∀ l, i ≠ .release l) (hmode : ∀ l, i ≠ .fourBitMode l) : EndedInError i s t .disposedError
  | construct (l : Nat) (lk : Link) (v : Byte) (hi : i = .construct l) (hlk : s.links[l]? = some lk)
      (hr : lk.released = true)
      (ht : t = disposed (s.withFresh l) s.ctls.length (cutBuiltCtl s l lk)
        [.wait .warmup, .xfer s.ctls.length v false s.params.backlightReset]) : EndedInError i s t .disposedError
  | transfer (c : Nat) (k k' : Ctl) (lk : Link) (evs cut : List Event) (hi : ctlOf s i = some c)
      (hn : ∀ l, i ≠ .construct l) (hc : s.ctls[c]? = some k) (hlk : s.links[k.link]? = some lk)
      (hr : lk.released = true) (hp : plan k lk i = some (k', evs)) (hcut : cutEvents evs = some cut)
      (ht : t = disposed s c (cutCtl k lk i) cut) : EndedInError i s t .disposedError

/-- There are no other ways. -/
theorem endedInError_of_exec {e : ErrorKind} (h : exec i s = .next t) (ho : t.outcome = .error e) :
    EndedInError i s t e := by
  rcases exec_next_cases h with ⟨m, p, rfl, ⟨-, rfl⟩ | ⟨hillegal, rfl⟩⟩ | ⟨l, lk, lk', tr, hc, hl, hlk, hran⟩ |
    ⟨l, rfl⟩ | ⟨c, hc, hn⟩
  · cases ho
  · cases ho
    exact .missingLine m p rfl hillegal
  · rcases hran.outcome with hok | ⟨b, hok⟩ | ⟨hdisposed, hr, ht, hrelease, hmode⟩
    · cases hok.symm.trans ho
    · cases hok.symm.trans ho
    · rw [hdisposed] at ht
      cases hdisposed.symm.trans ho
      exact .linkSend l lk hc hl hlk hr ht hrelease hmode
  · obtain ⟨lk, hlk, ⟨-, rfl⟩ | ⟨hr, ht⟩⟩ := construct_ran h
    · cases ho
    · rw [ht, disposed_outcome] at ho
      cases ho
      exact .construct l lk _ rfl hlk hr ht
  · obtain ⟨k, lk, k', evs, hk, hlk, hp, ⟨-, rfl⟩ | ⟨hr, cut, hcut, ht⟩ | ⟨-, -, rfl⟩⟩ := ctl_ran hc hn h
    · exact absurd ho (okOutcome_ne_error k i e)
    · rw [ht, disposed_outcome] at ho
      cases ho
      exact .transfer c k k' lk evs cut hc hn hk hlk hr hp hcut ht
    · exact absurd ho (okOutcome_ne_error k i e)

/-! ## ConfigurationError (R191) -/

/-- The missing lines that make an assignment illegal (R191). -/
theorem legalPins_eq_false_iff {mode : Mode} {pins : Lines Bool} : legalPins mode pins = false ↔
    pins.rs = false ∨ pins.e = false ∨
      (mode = .eightBit ∧ (pins.d0 = false ∨ pins.d1 = false ∨ pins.d2 = false ∨ pins.d3 = false ∨
        pins.d4 = false ∨ pins.d5 = false ∨ pins.d6 = false ∨ pins.d7 = false)) ∨
      (mode = .fourBit ∧ (pins.d4 = false ∨ pins.d5 = false ∨ pins.d6 = false ∨ pins.d7 = false)) := by
  cases mode <;>
    simp [legalPins, dataLines, nibbleLines, Lines.get, -Bool.and_eq_false_imp, Bool.and_eq_false_iff, or_assoc]

/-- Settles O13: of the ways to end with an error, only an illegal assignment gives this one, and it always does. -/
theorem configurationErrorExactlyForMissingLines : Obligations.ConfigurationErrorExactlyForMissingLines := by
  intro i s
  constructor
  · rintro ⟨t, h, ho⟩
    cases endedInError_of_exec h ho with
    | missingLine mode pins hi hillegal => exact ⟨mode, pins, hi, legalPins_eq_false_iff.1 hillegal⟩
  · rintro ⟨mode, pins, rfl, hmissing⟩
    have hillegal := legalPins_eq_false_iff.2 hmissing
    exact ⟨s.raiseError .configurationError, by simp [exec, execLinkConstruct, hillegal], raiseError_outcome ..⟩

/-! ## DisposedError (R192) -/

/-- A DisposedError comes from a released link, which the operation works on. -/
theorem released_of_disposedError (h : EndedInError i s t .disposedError) :
    ∃ l lk, linkOf s i = some l ∧ s.links[l]? = some lk ∧ lk.released = true := by
  cases h with
  | linkSend l lk hc hl hlk hr => exact ⟨l, lk, hl, hlk, hr⟩
  | construct l lk v hi hlk hr => exact ⟨l, lk, by rw [hi]; rfl, hlk, hr⟩
  | transfer c k k' lk evs cut hi hn hc hlk hr => exact ⟨k.link, lk, linkOf_of_ctlOf hi hc, hlk, hr⟩

/-- An operation of a controller that ends with a DisposedError has a plan that is not empty. -/
theorem plan_of_disposedError (h : EndedInError i s t .disposedError) (hi : ctlOf s i = some c)
    (hn : ∀ l, i ≠ .construct l) :
    ∃ k lk k' evs, s.ctls[c]? = some k ∧ plan k lk i = some (k', evs) ∧ evs ≠ [] := by
  cases h with
  | linkSend l lk hnone => cases hnone.symm.trans hi
  | construct l lk v hconstruct => exact absurd hconstruct (hn l)
  | transfer c' k k' lk evs cut hi' _ hc _ _ hp hcut =>
    cases hi'.symm.trans hi
    refine ⟨k, lk, k', evs, hc, hp, ?_⟩
    rintro rfl
    cases hcut

/-- So none comes from an operation whose plan keeps the record and sends nothing. -/
theorem not_silent_of_disposedError (h : EndedInError i s t .disposedError) (hi : ctlOf s i = some c)
    (hn : ∀ l, i ≠ .construct l) : ¬ ∀ k lk, s.ctls[c]? = some k → plan k lk i = k.whenReady (k, []) := by
  intro hsilent
  obtain ⟨k, lk, k', evs, hc, hp, hevs⟩ := plan_of_disposedError h hi hn
  rw [hsilent k lk hc] at hp
  cases (whenReady_some hp).2
  exact hevs rfl

/-- An operation of a link that ends with a DisposedError is a `Send` on that link, which has been released. -/
theorem linkSend_of_disposedError (h : EndedInError i s t .disposedError) (hc : ctlOf s i = none) :
    (∀ l, i ≠ .release l) ∧ (∀ l, i ≠ .fourBitMode l) ∧
      ∃ l lk, linkOf s i = some l ∧ s.links[l]? = some lk ∧ lk.released = true := by
  have hreleased := released_of_disposedError h
  cases h with
  | linkSend l lk _ _ _ _ _ hrelease hmode => exact ⟨hrelease, hmode, hreleased⟩
  | construct l lk v hi => rw [hi] at hc; cases hc
  | transfer c k k' lk evs cut hi => cases hc.symm.trans hi

/-- A link micro-operation run alone ends with no DisposedError: a released link has it refused (log 15). -/
theorem not_micro_of_disposedError (hexec : exec i s = .next t) (h : EndedInError i s t .disposedError) :
    (∀ l v, i ≠ .writeData8 l v) ∧ (∀ l n, i ≠ .writeNibble l n) ∧ ∀ l, i ≠ .enablePulse l := by
  have refused : ∀ {r}, exec i s ≠ .refused r := fun hr => nomatch hexec.symm.trans hr
  obtain ⟨l, lk, hl, hlk, hr⟩ := released_of_disposedError h
  have off := fun v n => (microOperationsRefusedOffTheirLink l lk v n s hlk).1 hr
  refine ⟨?_, ?_, ?_⟩
  · rintro _ v rfl
    cases hl
    exact refused (off v 0).1
  · rintro _ n rfl
    cases hl
    exact refused (off 0 n).2.1
  · rintro _ rfl
    cases hl
    exact refused (off 0 0).2.2

/-- Settles O47: a link operation that fails is a `Send`, a controller operation that fails has a transfer in its plan,
and both work on a released link. -/
theorem disposedErrorOnlyFromASend : Obligations.DisposedErrorOnlyFromASend := by
  intro i s t hexec ho
  have h := endedInError_of_exec hexec ho
  obtain ⟨hdata, hnibble, hpulse⟩ := not_micro_of_disposedError hexec h
  refine ⟨released_of_disposedError h, ?_, ?_, ?_, ?_, ?_, ?_, hdata, hnibble, hpulse, ?_⟩
  · rintro l rfl
    exact (linkSend_of_disposedError h rfl).1 l rfl
  · rintro l rfl
    exact (linkSend_of_disposedError h rfl).2.1 l rfl
  · rintro c p rfl
    exact not_silent_of_disposedError h rfl nofun fun _ _ _ => rfl
  · rintro m p rfl
    obtain ⟨-, -, l, lk, hl, hlk, -⟩ := linkSend_of_disposedError h rfl
    cases hl
    exact absurd (List.getElem?_eq_some_iff.1 hlk).1 (lt_irrefl _)
  · rintro c rfl
    exact not_silent_of_disposedError h rfl nofun fun _ _ _ => rfl
  · rintro c text k rfl hc hempty
    refine not_silent_of_disposedError h rfl nofun fun k' lk hc' => ?_
    cases hc.symm.trans hc'
    rw [plan, hempty]
    rfl
  · rintro p c b k rfl hc hcached
    refine not_silent_of_disposedError h (ctlOf_setter ..) (by cases p <;> nofun) fun k' lk hc' => ?_
    cases hc.symm.trans hc'
    rw [plan_setter, setPlan, if_pos hcached]

/-! ## What a failing operation has left (R196, R197) -/

/-- No event of the controller's own touches a line, nor is it the enable-high hold. -/
theorem noLine_of_own {evs : List Event} (hown : ∀ e ∈ evs, e.ofController = true) :
    (∀ l m v, .pin l m v ∉ evs) ∧ (∀ l m, .release l m ∉ evs) ∧ .wait .pulse ∉ evs :=
  ⟨fun _ _ _ hmem => Bool.false_ne_true (hown _ hmem), fun _ _ hmem => Bool.false_ne_true (hown _ hmem),
    fun hmem => Bool.false_ne_true (hown _ hmem)⟩

/-- Settles O59: a failing `Send` leaves nothing, a failing Begin and a plan cut short only events of the controller's
own. -/
theorem disposedOperationsWriteNoLine : Obligations.DisposedOperationsWriteNoLine := by
  intro i s t hexec ho
  have own : ∀ {evs : List Event}, t.trace = s.trace ++ evs → (∀ e ∈ evs, e.ofController = true) →
      ∃ tr, t.trace = s.trace ++ tr ∧ (∀ l m v, .pin l m v ∉ tr) ∧ (∀ l m, .release l m ∉ tr) ∧
        .wait .pulse ∉ tr := fun {evs} htrace hown => ⟨evs, htrace, noLine_of_own hown⟩
  cases endedInError_of_exec hexec ho with
  | linkSend l lk _ _ _ _ ht =>
    subst ht
    exact ⟨rfl, rfl, own (List.append_nil _).symm (List.forall_mem_nil _)⟩
  | construct l lk v _ _ _ ht =>
    subst ht
    exact ⟨rfl, rfl, own rfl (by simp [Event.ofController])⟩
  | transfer c k k' lk evs cut _ _ _ _ _ hp hcut ht =>
    subst ht
    exact ⟨rfl, rfl, own rfl fun e he => plan_ofController hp e (mem_of_cutEvents hcut e he)⟩

/-- On a released link an operation that keeps its controller's record and sends something records its first transfer
and does no more. -/
theorem exec_firstTransfer {v : Byte} {r : Bool} {rest : List Event} (hi : ctlOf s i = some c)
    (hdown : s.CtlDown c k lk) (hp : plan k lk i = some (k, .xfer c v r k.backlight :: rest))
    (hkeeps : cutCtl k lk i = k) :
    exec i s = .next (disposed s c k [.xfer c v r k.backlight]) := by
  rw [exec_plan_cut hi hdown hp rfl, hkeeps]

/-- Settles O48: the plan of each begins with the transfer named, and that of a write of no byte is empty. -/
theorem firstTransferFailsAfterRelease : Obligations.FirstTransferFailsAfterRelease := by
  intro c k lk s hdown hready
  have ready : ∀ x, k.whenReady x = some x := whenReady_of_ready hready
  refine ⟨exec_firstTransfer rfl hdown (ready _) rfl, exec_firstTransfer rfl hdown (ready _) rfl,
    fun _ _ => exec_firstTransfer rfl hdown (ready _) rfl, fun _ _ => exec_firstTransfer rfl hdown (ready _) rfl,
    fun text v vs htext => exec_firstTransfer rfl hdown (rest := k.dataBytes c vs) ?_ rfl,
    fun slot _ _ hlen => exec_firstTransfer rfl hdown (plan_createChar_legal lk c slot hready hlen) rfl,
    exec_firstTransfer rfl hdown (ready _) rfl, exec_firstTransfer rfl hdown (ready _) rfl, fun right => ?_,
    exec_quiet rfl hdown.1 hdown.2.1 (ready _)⟩
  · rw [plan, htext]
    exact ready _
  · rw [← cursorShiftByte_cursor]
    exact exec_firstTransfer rfl hdown (ready _) rfl

/-! ## The refusal before Begin (R193, R195) -/

/-- Without the phase `Ready` an operation that needs it has no plan, whatever its operands. -/
theorem plan_of_uninitialized (hneeds : needsReady i = true) (hphase : k.phase = .uninitialized) (lk : Link) :
    plan k lk i = none := by
  have stopped : ∀ x, k.whenReady x = none := fun x => by rw [Ctl.whenReady, hphase]
  cases i <;> simp only [needsReady, Bool.false_eq_true] at hneeds
  case createChar => rw [plan, stopped, ite_self]
  all_goals exact stopped _

/-- The phase is the reason, even where the bitmap is short too. -/
theorem stopOf_of_uninitialized (hneeds : needsReady i = true) (hphase : k.phase = .uninitialized) :
    stopOf k i = .notReady := by
  cases i <;> simp only [needsReady, Bool.false_eq_true] at hneeds
  case createChar => rw [stopOf, hphase]
  all_goals rfl

/-- Settles O46: such an operation has no plan, and what has no plan is refused. -/
theorem nothingBeforeBegin : Obligations.NothingBeforeBegin := by
  intro i c k lk s hneeds hi hc hl hphase
  rw [exec_no_plan hi hc hl (plan_of_uninitialized hneeds hphase lk), stopOf_of_uninitialized hneeds hphase]

/-! ## Where a step stops (R194, R205, R103) -/

theorem step_of_no_call (h : s.pending = []) : step s = .next s := by rw [step, nextCall_none (h := h)]

/-- A step that does not answer a next state stopped on its call: a micro-operation, or one that itself stops. -/
theorem step_eq_of_call {a : Answer} (h : step s = a) (ha : ∀ t, a ≠ .next t) :
    ∃ i rest, s.pending = i :: rest ∧
      ((hostCallable i = false ∧ a = .refused .notHostCallable) ∨
        (hostCallable i = true ∧ exec i { s with pending := rest } = a)) := by
  cases hpending : s.pending with
  | nil => exact absurd (h.symm.trans (step_of_no_call hpending)) (ha s)
  | cons i rest =>
    obtain ⟨hruns, hrefused⟩ := stepRunsTheNextCall s rest i hpending
    refine ⟨i, rest, rfl, ?_⟩
    cases hcall : hostCallable i with
    | false => exact .inl ⟨rfl, h.symm.trans (hrefused hcall)⟩
    | true => exact .inr ⟨rfl, (hruns hcall).symm.trans h⟩

/-- Settles O7: a step without a call keeps the state, and a step that stops has a call that stops. -/
theorem stepWithoutAnOperation : Obligations.StepWithoutAnOperation := by
  refine fun s => ⟨step_of_no_call, fun r h => ?_, fun r h => ?_⟩
  · obtain ⟨i, rest, hpending, ⟨hcall, ha⟩ | hruns⟩ := step_eq_of_call h nofun
    · cases ha
      exact ⟨i, rest, hpending, .inl ⟨hcall, rfl⟩⟩
    · exact ⟨i, rest, hpending, .inr hruns⟩
  · obtain ⟨i, rest, hpending, ⟨-, ha⟩ | hruns⟩ := step_eq_of_call h nofun
    · cases ha
    · exact ⟨i, rest, hpending, hruns⟩

end Sys2Proof.Machine
end

section
/-! PROOFS. Reset and hazards (70_reset_and_hazards.md R212, R215, R228, R229): what exists after reset, which
operations wait, and the least time each operation takes. A wait other than the enable-high hold is the controller's
own, so it stands in a plan; the least time of an operation is that of its plan and of one `Send` per transfer. -/

namespace Sys2Proof.Machine

open Sys2Proof.Config

/-! ## Reset (R212) -/

/-- Settles O9: each field of `State.reset` has that value. -/
theorem resetHoldsNothing : Obligations.ResetHoldsNothing := ⟨rfl, rfl, rfl, rfl, rfl⟩

/-! ## The operations that wait (R228, R215) -/

/-- Only the plans of Begin, Clear and Home have a wait. -/
theorem wait_notMem_plan {k k' : Ctl} {lk : Link} {i : Instr} {evs : List Event}
    (hbegin : ∀ c cols rows ltr font, i ≠ .beginOp c cols rows ltr font) (hclear : ∀ c, i ≠ .clear c)
    (hhome : ∀ c, i ≠ .home c) (hp : plan k lk i = some (k', evs)) (d : Delay) : .wait d ∉ evs := by
  have nil : .wait d ∉ ([] : List Event) := List.not_mem_nil
  have xfer : ∀ {c v r bl} {rest : List Event}, .wait d ∉ rest → .wait d ∉ Event.xfer c v r bl :: rest :=
    List.not_mem_cons_of_ne_of_not_mem nofun
  have data : ∀ c vs, .wait d ∉ k.dataBytes c vs := fun c vs => by simp [Ctl.dataBytes]
  have ready : ∀ {x}, k.whenReady (k, x) = some (k', evs) → .wait d ∉ x → .wait d ∉ evs := fun hx hd => by
    obtain ⟨-, he⟩ := whenReady_some hx
    cases he
    exact hd
  have set : ∀ {p c b}, k.whenReady (setPlan p c b k) = some (k', evs) → .wait d ∉ evs := fun hx => by
    obtain ⟨-, he⟩ := whenReady_some hx
    simp only [setPlan] at he
    split at he <;> cases he
    · exact nil
    · exact xfer nil
  cases i <;> simp only [plan, reduceCtorEq, Option.some.injEq, Prod.mk.injEq] at hp
  case beginOp => exact absurd rfl (hbegin _ _ _ _ _)
  case clear => exact absurd rfl (hclear _)
  case home => exact absurd rfl (hhome _)
  case sendCommand | sendData | pushDisplayControl =>
    rw [← hp.2]
    exact xfer nil
  case setVisible | setShowCursor | setBlinkCursor | setBacklight => exact set hp
  case getProperty => exact ready hp nil
  case writeBytes | writeText => exact ready hp (data _ _)
  case createChar =>
    split at hp
    · exact ready hp (xfer (data _ _))
    · cases hp
  case setCursorPosition | scrollDisplayLeft | scrollDisplayRight | moveCursor => exact ready hp (xfer nil)

/-- Settles O55: another wait is an event of the controller, and the controller's events are those of a plan without
a wait. -/
theorem waitsOnlyWhereListed : Obligations.WaitsOnlyWhereListed := by
  intro i s t tr h ht hconstruct hbegin hclear hhome d hmem
  by_contra hd
  have hown : .wait d ∈ controllerTrace tr :=
    mem_controllerTrace.2 ⟨hmem, by simpa [Event.ofController] using hd⟩
  have quiet : t.trace ≠ s.trace := fun hs => by
    rw [List.append_right_eq_self.1 (ht.symm.trans hs)] at hmem
    cases hmem
  rcases exec_next_cases h with ⟨m, p, rfl, ⟨-, rfl⟩ | ⟨-, rfl⟩⟩ | ⟨l, k, k', new, -, -, -, hr⟩ | ⟨l, rfl⟩ |
    ⟨c, hc, hn⟩
  · exact quiet rfl
  · exact quiet rfl
  · cases List.append_cancel_left (ht.symm.trans hr.trace)
    rw [hr.noXfer] at hown
    cases hown
  · exact hconstruct l rfl
  · obtain ⟨k, lk, k', evs, -, -, hp, hran⟩ := ctl_ran hc hn h
    have hevs := wait_notMem_plan hbegin hclear hhome hp d
    rcases hran with ⟨-, rfl⟩ | ⟨-, cut, hcut, rfl⟩ | ⟨-, -, rfl⟩
    · cases List.append_cancel_left ht
      rw [controllerTrace_expand _ _ _ (plan_ofController hp)] at hown
      exact hevs hown
    · cases List.append_cancel_left ht
      exact hevs (mem_of_cutEvents hcut _ hmem)
    · exact quiet rfl

/-! ## The least time of a controller's own events (R228) -/

@[simp] theorem minDuration_nil : minDuration [] = 0 := rfl

@[simp] theorem minDuration_wait (d : Delay) (tr : List Event) :
    minDuration (.wait d :: tr) = duration d + minDuration tr := by simp [minDuration, Event.minDuration]

@[simp] theorem minDuration_xfer (c : Nat) (v : Byte) (r bl : Bool) (tr : List Event) :
    minDuration (.xfer c v r bl :: tr) = minDuration tr := by simp [minDuration, Event.minDuration]

section Bytes
variable (k : Ctl) (c : Nat)

@[simp] theorem minDuration_command (v : Byte) (tr : List Event) :
    minDuration (k.command c v :: tr) = minDuration tr := minDuration_xfer ..

@[simp] theorem xfersOf_command (v : Byte) (tr : List Event) :
    xfersOf (k.command c v :: tr) = (false, v) :: xfersOf tr := rfl

@[simp] theorem minDuration_dataBytes (vs : List Byte) : minDuration (k.dataBytes c vs) = 0 := by
  induction vs with
  | nil => rfl
  | cons v vs ih => rwa [Ctl.dataBytes, List.map_cons, minDuration_xfer]

@[simp] theorem xfersOf_dataBytes (vs : List Byte) : xfersOf (k.dataBytes c vs) = vs.map (true, ·) := by
  induction vs with
  | nil => rfl
  | cons v vs ih => rw [List.map_cons, ← ih]; rfl

end Bytes

/-! ## The least time of an operation (R229) -/

section Plan
variable {s t : State} {i : Instr} {c : Nat} {k k' : Ctl} {lk : Link} {evs tr : List Event}

/-- An operation of a controller whose link can send takes the time of its plan and of one `Send` per transfer. -/
theorem minDuration_of_plan (hup : s.CtlUp c k lk) (h : exec i s = .next t) (ht : t.trace = s.trace ++ tr)
    (hi : ctlOf s i = some c) (hp : plan k lk i = some (k', evs)) :
    minDuration tr = minDuration evs + (xfersOf evs).length * (pulses lk.mode * duration .pulse) := by
  rw [exec_plan_up hi hup hp] at h
  cases h
  rw [← List.append_cancel_left ht, minDuration_expand]

/-- An operation that is one transfer takes the time of one `Send`. -/
theorem minDuration_of_one_transfer {v : Byte} {r bl : Bool} (hup : s.CtlUp c k lk) (h : exec i s = .next t)
    (ht : t.trace = s.trace ++ tr) (hi : ctlOf s i = some c) (hp : plan k lk i = some (k', [.xfer c v r bl])) :
    minDuration tr = pulses lk.mode * duration .pulse := by
  rw [minDuration_of_plan hup h ht hi hp]
  simp

/-- An operation that is one command and a wait takes the time of one `Send` and of the wait. -/
theorem minDuration_of_command_wait {v : Byte} {d : Delay} (hup : s.CtlUp c k lk) (h : exec i s = .next t)
    (ht : t.trace = s.trace ++ tr) (hi : ctlOf s i = some c)
    (hp : plan k lk i = some (k', [k.command c v, .wait d])) :
    minDuration tr = pulses lk.mode * duration .pulse + duration d := by
  rw [minDuration_of_plan hup h ht hi hp]
  simp [add_comm]

end Plan

/-- The time of Begin in `FourBit` mode: 5 waits, and 8 transfers of 2 pulses each (R132). -/
theorem minDuration_beginTrace4 (c : Nat) (bl : Bool) (fs em : Byte) (pw : Rat) :
    minDuration (beginTrace4 c bl fs em) + (xfersOf (beginTrace4 c bl fs em)).length * (pulses .fourBit * pw) =
      duration .warmup + 2 * duration .hsLong + duration .hs4Short + duration .clear + 16 * pw := by
  simp only [beginTrace4, minDuration_wait, minDuration_xfer, minDuration_nil, xfersOf_wait, xfersOf_xfer, xfersOf_nil,
    List.length_cons, List.length_nil, pulses]
  push_cast
  ring

/-- The time of Begin in `EightBit` mode: 4 waits, and 7 transfers of one pulse each (R132). -/
theorem minDuration_beginTrace8 (c : Nat) (bl : Bool) (fs em : Byte) (pw : Rat) :
    minDuration (beginTrace8 c bl fs em) + (xfersOf (beginTrace8 c bl fs em)).length * (pulses .eightBit * pw) =
      duration .warmup + duration .hsLong + duration .hs8Short + duration .clear + 7 * pw := by
  simp only [beginTrace8, minDuration_wait, minDuration_xfer, minDuration_nil, xfersOf_wait, xfersOf_xfer, xfersOf_nil,
    List.length_cons, List.length_nil, pulses]
  push_cast
  ring

/-- Settles O57: the time of each operation is that of its plan, whose transfers and waits are counted. -/
theorem minimumDurations : Obligations.MinimumDurations := by
  intro c k lk s hup
  dsimp only
  refine ⟨fun cols rows ltr font t tr h1 h4 h ht => ?_, fun hready => ?_⟩
  · rw [minDuration_of_plan hup h ht rfl (plan_begin_legal h1 h4)]
    cases hm : lk.mode with
    | fourBit => exact minDuration_beginTrace4 _ _ _ _ _
    | eightBit => exact minDuration_beginTrace8 _ _ _ _ _
  have ready : ∀ x, k.whenReady x = some x := whenReady_of_ready hready
  refine ⟨fun t tr h ht => ?_, fun t tr h ht => ?_, fun buffer t tr h ht => ?_,
    fun slot bitmap offset t tr h ht => ?_, fun p b t tr h ht => ?_, fun i t tr hi h ht => ?_⟩
  · exact minDuration_of_command_wait hup h ht rfl (ready _)
  · exact minDuration_of_command_wait hup h ht rfl (ready _)
  · rw [minDuration_of_plan hup h ht rfl (ready _), minDuration_dataBytes, xfersOf_dataBytes, List.length_map]
    ring
  · rcases Nat.lt_or_ge bitmap.length (offset + 8) with hshort | hlen
    · rw [exec_no_plan rfl hup.1 hup.2.1 (plan_createChar_short lk c slot hshort)] at h
      cases h
    · rw [minDuration_of_plan hup h ht rfl (plan_createChar_legal lk c slot hready hlen), minDuration_command,
        minDuration_dataBytes, xfersOf_command, xfersOf_dataBytes, List.length_cons, List.length_map,
        length_glyphBytes hlen]
      push_cast
      ring
  · split
    next hb =>
      rw [minDuration_of_plan hup h ht (ctlOf_setter ..) (plan_setter_cached lk c hready hb)]
      simp
    next hb => exact minDuration_of_one_transfer hup h ht (ctlOf_setter ..) (plan_setter_changing lk c hready hb)
  · rcases hi with ⟨column, row, rfl⟩ | rfl | rfl | ⟨right, rfl⟩ <;>
      exact minDuration_of_one_transfer hup h ht rfl (ready _)

end Sys2Proof.Machine
end
